-- ==== Sys2Proof/Word.lean ====
section
/-! DEFINITION. The block's words: the 32-bit word every value crosses the interface and is stored as
(spec/20_memory.md R50), the byte of its serialisation, and the four-word command of spec/30_encoding.md R61. -/

namespace Sys2Proof

/-- One 32-bit word: a binary32 value carried as its encoding (R15) or a u32 (R20). -/
abbrev Word := BitVec 32

/-- One byte lane of a word that is serialised on a byte-addressed host bus (R50, D33). -/
abbrev Byte := BitVec 8

/-- A command as the host gives it: the command word CMD and the three operand words A, B, C (R61, R64). -/
structure Command where
  cmd : Word
  a : Word
  b : Word
  c : Word
deriving DecidableEq, Repr

end Sys2Proof
end

