-- ==== Sys2Proof/Syntax.lean ====
section
/-! DEFINITION. The commands of spec/30_encoding.md R66, one constructor per row of spec/opcode_table.json,
with the fields and operand words each row reads; a word the row marks "-" is not part of the term (R72). -/

namespace Sys2Proof

/-- A command of the block. A `slot` is the IDX field of a grain command, `reg` the IDX field of RDREG,
`field` the SEL field of GR_RD (R63); the other arguments are operand words taken whole (R65). -/
inductive Instr
  /-- 0x00 NOP (R81). -/
  | nop
  /-- 0x01 INIT: A = sample rate (R82). -/
  | init (sampleRate : Word)
  /-- 0x02 PROCESS_N: A = input sample, B = pitch, no hint (R145). -/
  | processN (input pitch : Word)
  /-- 0x03 PROCESS_H: A = input sample, B = pitch, C = frequency hint (R144). -/
  | processH (input pitch hint : Word)
  /-- 0x04 RDREG: IDX = register number (R86). -/
  | rdreg (reg : BitVec 8)
  /-- 0x05 CLRSTAT (R87). -/
  | clrstat
  /-- 0x10 DL_WRITE: A = sample (R92). -/
  | dlWrite (sample : Word)
  /-- 0x11 DL_READ: A = offset into the past (R95). -/
  | dlRead (offset : Word)
  /-- 0x12 DL_PEEK: A = physical slot number, u32 (R96). -/
  | dlPeek (slotNo : Word)
  /-- 0x20 PH_STEP: A = frequency (R102). -/
  | phStep (frequency : Word)
  /-- 0x21 DT_STEP: A = value (R105). -/
  | dtStep (value : Word)
  /-- 0x30 GR_SET: IDX = slot, A = frequency, B = window size in ms, C = speed (R115). -/
  | grSet (slot : BitVec 8) (frequency windowSize speed : Word)
  /-- 0x31 GR_STEP: IDX = slot, A = live speed (R118). -/
  | grStep (slot : BitVec 8) (speed : Word)
  /-- 0x32 GR_FREE: IDX = slot (R119). -/
  | grFree (slot : BitVec 8)
  /-- 0x33 GR_RD: IDX = slot, SEL = field number (R120). -/
  | grRd (slot : BitVec 8) (field : BitVec 4)
  /-- 0x40 P2S: A = pitch (R127). -/
  | p2s (pitch : Word)
  /-- 0x41 GFREQ: A = hint, B = speed (R129). -/
  | gfreq (hint speed : Word)
  /-- 0x42 WSIZE: A = grain frequency (R131). -/
  | wsize (grainFreq : Word)
  /-- 0x43 ALLOC (R133). -/
  | alloc
  /-- 0x44 MIX: A = live speed (R136). -/
  | mix (speed : Word)
deriving DecidableEq, Repr

end Sys2Proof
end

