-- ==== Sys2Proof/Decode.lean ====
section
/-! DEFINITION. The command word's format, the decoder and the encoder (spec/30_encoding.md R63 to R72).
The decoder makes the checks of R67 that depend on the command word alone; the checks on CFG, POOL, the register number
and the field number, which end in other codes, are the meanings' (Machine/Ops.lean; log entry 10). -/

namespace Sys2Proof

/-- Why a command word is no command. The block answers each with ILLEGAL (R68, R152); the order of the checks is
the order of R67 and R154. -/
inductive DecodeError
  /-- CMD[31:20] is not 0. -/
  | reservedField
  /-- OPC is not in the table of R66. -/
  | undefinedOpcode
  /-- IDX is not 0 where the row says 0. -/
  | idxNotZero
  /-- SEL is not 0 where the row says 0. -/
  | selNotZero
deriving DecidableEq, Repr

/-- OPC = CMD[7:0] (R63). -/
def opcOf (cmd : Word) : BitVec 8 := cmd.extractLsb' 0 8
/-- IDX = CMD[15:8] (R63). -/
def idxOf (cmd : Word) : BitVec 8 := cmd.extractLsb' 8 8
/-- SEL = CMD[19:16] (R63). -/
def selOf (cmd : Word) : BitVec 4 := cmd.extractLsb' 16 4
/-- RSV = CMD[31:20] (R63). -/
def rsvOf (cmd : Word) : BitVec 12 := cmd.extractLsb' 20 12

/-- The command word with RSV = 0 and the given fields (R63). -/
def cmdWord (opc idx : BitVec 8) (sel : BitVec 4) : Word := 0#12 ++ sel ++ idx ++ opc

/-- The row of R66 that OPC selects, its operands taken from the other fields and the operand words. -/
def rowOf (k : Command) : Option Instr :=
  match (opcOf k.cmd).toNat with
  | 0x00 => some .nop
  | 0x01 => some (.init k.a)
  | 0x02 => some (.processN k.a k.b)
  | 0x03 => some (.processH k.a k.b k.c)
  | 0x04 => some (.rdreg (idxOf k.cmd))
  | 0x05 => some .clrstat
  | 0x10 => some (.dlWrite k.a)
  | 0x11 => some (.dlRead k.a)
  | 0x12 => some (.dlPeek k.a)
  | 0x20 => some (.phStep k.a)
  | 0x21 => some (.dtStep k.a)
  | 0x30 => some (.grSet (idxOf k.cmd) k.a k.b k.c)
  | 0x31 => some (.grStep (idxOf k.cmd) k.a)
  | 0x32 => some (.grFree (idxOf k.cmd))
  | 0x33 => some (.grRd (idxOf k.cmd) (selOf k.cmd))
  | 0x40 => some (.p2s k.a)
  | 0x41 => some (.gfreq k.a k.b)
  | 0x42 => some (.wsize k.a)
  | 0x43 => some .alloc
  | 0x44 => some (.mix k.a)
  | _ => none

/-- The IDX column of R66: the row names a register or a grain (else IDX must be 0). -/
def Instr.usesIdx : Instr → Bool
  | .rdreg _ | .grSet _ _ _ _ | .grStep _ _ | .grFree _ | .grRd _ _ => true
  | .nop | .init _ | .processN _ _ | .processH _ _ _ | .clrstat | .dlWrite _ | .dlRead _ | .dlPeek _ | .phStep _
  | .dtStep _ | .p2s _ | .gfreq _ _ | .wsize _ | .alloc | .mix _ => false

/-- The SEL column of R66: only GR_RD has a field selector (else SEL must be 0). -/
def Instr.usesSel : Instr → Bool
  | .grRd _ _ => true
  | .nop | .init _ | .processN _ _ | .processH _ _ _ | .rdreg _ | .clrstat | .dlWrite _ | .dlRead _ | .dlPeek _
  | .phStep _ | .dtStep _ | .grSet _ _ _ _ | .grStep _ _ | .grFree _ | .p2s _ | .gfreq _ _ | .wsize _ | .alloc
  | .mix _ => false

/-- The state-free checks of R67 in R67's order: RSV, OPC, IDX, SEL. -/
def decode (k : Command) : Except DecodeError Instr :=
  if rsvOf k.cmd ≠ 0 then .error .reservedField
  else match rowOf k with
    | none => .error .undefinedOpcode
    | some i =>
      if i.usesIdx = false ∧ idxOf k.cmd ≠ 0 then .error .idxNotZero
      else if i.usesSel = false ∧ selOf k.cmd ≠ 0 then .error .selNotZero
      else .ok i

/-- The OPC column of R66. -/
def Instr.opc : Instr → BitVec 8
  | .nop => 0x00 | .init _ => 0x01 | .processN _ _ => 0x02 | .processH _ _ _ => 0x03 | .rdreg _ => 0x04
  | .clrstat => 0x05 | .dlWrite _ => 0x10 | .dlRead _ => 0x11 | .dlPeek _ => 0x12 | .phStep _ => 0x20
  | .dtStep _ => 0x21 | .grSet _ _ _ _ => 0x30 | .grStep _ _ => 0x31 | .grFree _ => 0x32 | .grRd _ _ => 0x33
  | .p2s _ => 0x40 | .gfreq _ _ => 0x41 | .wsize _ => 0x42 | .alloc => 0x43 | .mix _ => 0x44

/-- The IDX field a command is encoded with (R63, R66). -/
def Instr.idx : Instr → BitVec 8
  | .rdreg reg => reg
  | .grSet slot _ _ _ | .grStep slot _ | .grFree slot | .grRd slot _ => slot
  | .nop | .init _ | .processN _ _ | .processH _ _ _ | .clrstat | .dlWrite _ | .dlRead _ | .dlPeek _ | .phStep _
  | .dtStep _ | .p2s _ | .gfreq _ _ | .wsize _ | .alloc | .mix _ => 0

/-- The SEL field a command is encoded with (R63, R66). -/
def Instr.sel : Instr → BitVec 4
  | .grRd _ field => field
  | .nop | .init _ | .processN _ _ | .processH _ _ _ | .rdreg _ | .clrstat | .dlWrite _ | .dlRead _ | .dlPeek _
  | .phStep _ | .dtStep _ | .grSet _ _ _ _ | .grStep _ _ | .grFree _ | .p2s _ | .gfreq _ _ | .wsize _ | .alloc
  | .mix _ => 0

/-- The operand words A, B, C of a command; one it does not take is 0x00000000 (R66, R73). -/
def Instr.operands : Instr → Word × Word × Word
  | .nop | .rdreg _ | .clrstat | .grFree _ | .grRd _ _ | .alloc => (0, 0, 0)
  | .init a | .dlWrite a | .dlRead a | .dlPeek a | .phStep a | .dtStep a | .grStep _ a | .p2s a | .wsize a
  | .mix a => (a, 0, 0)
  | .processN a b | .gfreq a b => (a, b, 0)
  | .processH a b c | .grSet _ a b c => (a, b, c)

/-- The four words of a command (R61, R63, R66). -/
def encode (i : Instr) : Command where
  cmd := cmdWord i.opc i.idx i.sel
  a := i.operands.1
  b := i.operands.2.1
  c := i.operands.2.2

/-- The row of R66 reads operand word A. -/
def Instr.readsA : Instr → Bool
  | .nop | .rdreg _ | .clrstat | .grFree _ | .grRd _ _ | .alloc => false
  | .init _ | .dlWrite _ | .dlRead _ | .dlPeek _ | .phStep _ | .dtStep _ | .grStep _ _ | .p2s _ | .wsize _
  | .mix _ | .processN _ _ | .gfreq _ _ | .processH _ _ _ | .grSet _ _ _ _ => true

/-- The row of R66 reads operand word B. -/
def Instr.readsB : Instr → Bool
  | .processN _ _ | .gfreq _ _ | .processH _ _ _ | .grSet _ _ _ _ => true
  | .nop | .init _ | .rdreg _ | .clrstat | .dlWrite _ | .dlRead _ | .dlPeek _ | .phStep _ | .dtStep _ | .grStep _ _
  | .grFree _ | .grRd _ _ | .p2s _ | .wsize _ | .alloc | .mix _ => false

/-- The row of R66 reads operand word C. -/
def Instr.readsC : Instr → Bool
  | .processH _ _ _ | .grSet _ _ _ _ => true
  | .nop | .init _ | .processN _ _ | .rdreg _ | .clrstat | .dlWrite _ | .dlRead _ | .dlPeek _ | .phStep _ | .dtStep _
  | .grStep _ _ | .grFree _ | .grRd _ _ | .p2s _ | .gfreq _ _ | .wsize _ | .alloc | .mix _ => false

/-- The little-endian bytes of a word: byte lane 0 carries bits 7:0, lane 3 bits 31:24 (R50, D33). -/
def bytesOfWord (w : Word) : List Byte :=
  [w.extractLsb' 0 8, w.extractLsb' 8 8, w.extractLsb' 16 8, w.extractLsb' 24 8]

/-- The word on four byte lanes, lane 0 first (R50, D33). -/
def wordOfBytes (b0 b1 b2 b3 : Byte) : Word := b3 ++ b2 ++ b1 ++ b0

/-- A command of four words (R61, R64) read from the first 16 bytes of a stream, each word little-endian (R50); fewer
bytes are no command, and the bytes after the sixteenth are the rest. That the four words follow one another in the
order CMD, A, B, C is the model's (DESIGN CHOICE, log entry 14): R50 fixes the lanes within one 32-bit port only. -/
def commandOfBytes : List Byte → Option (Command × List Byte)
  | k0 :: k1 :: k2 :: k3 :: a0 :: a1 :: a2 :: a3 :: b0 :: b1 :: b2 :: b3 :: c0 :: c1 :: c2 :: c3 :: rest =>
    some (⟨wordOfBytes k0 k1 k2 k3, wordOfBytes a0 a1 a2 a3, wordOfBytes b0 b1 b2 b3, wordOfBytes c0 c1 c2 c3⟩, rest)
  | _ => none

/-- The 16 bytes of a command, each word little-endian (R50), in the order CMD, A, B, C (DESIGN CHOICE, log entry 14). -/
def Command.bytes (k : Command) : List Byte :=
  bytesOfWord k.cmd ++ (bytesOfWord k.a ++ (bytesOfWord k.b ++ bytesOfWord k.c))

/-- The command whose bits, numbered as spec/opcode_table.json numbers them, are the low `nbits` bits of `w`: CMD is
bits 31:0, A bits 63:32, B bits 95:64, C bits 127:96; every bit from `nbits` up is 0. -/
def commandOfTableWord (nbits w : Nat) : Command :=
  let v := w % 2 ^ nbits
  ⟨BitVec.ofNat 32 v, BitVec.ofNat 32 (v >>> 32), BitVec.ofNat 32 (v >>> 64), BitVec.ofNat 32 (v >>> 96)⟩

/-- The instruction the decoder reads from a word of the opcode table; none where it refuses. -/
def decodeTableWord (nbits w : Nat) : Option Instr :=
  match decode (commandOfTableWord nbits w) with
  | .ok i => some i
  | .error _ => none

end Sys2Proof
end

