-- ==== Sys2Proof/Config.lean ====
section
/-! DEFINITION. The configuration record of the block (spec/00_scope.md section 4, R6 to R14) and the free
values: the functions of binary32 the spec leaves to the implementation (R12, R17, R18), each an opaque constant. -/

namespace Sys2Proof

/-- Which EXP2 and COSPI a block has away from the points R17 and R18 fix (D3).
`free`: any function with the properties those rules require, nothing else known of it.
`correctlyRounded`: the ones the spec's test configurations take (D36). -/
inductive PrimKind
  | free
  | correctlyRounded
deriving DecidableEq, Repr

/-- Which envelope a block has (R12, D23).
`hann`: the spec's default, the periodic Hann window.
`other`: any other ENV with ENV(0) = +0.0 and values in [0, 1], nothing else known of it. -/
inductive EnvKind
  | hann
  | other
deriving DecidableEq, Repr

/-- The implementation parameters of R6 to R11, with the kinds of ENV, EXP2 and COSPI.
They are fixed for a block: no step changes them. PROCESS_LATENCY_MAX is left out: the model is untimed (R182). -/
structure Params where
  /-- VOICES (R6). -/
  voices : Nat
  /-- GRAIN_FREQ_MULT, Hz, binary32 (R8). -/
  grainFreqMult : Word
  /-- MIN_PITCH, semitones, binary32 (R9). -/
  minPitch : Word
  /-- MAX_PITCH, semitones, binary32 (R9). -/
  maxPitch : Word
  /-- MIN_GRAIN_FREQ, Hz, binary32 (R10). -/
  minGrainFreq : Word
  /-- DL_MAX, the physical delay-line slots (R11). -/
  dlMax : Nat
  /-- The envelope ENV (R12). -/
  env : EnvKind
  /-- The primitives EXP2 and COSPI (R17, R18). -/
  prims : PrimKind
deriving DecidableEq, Repr

/-- POOL = 2 x VOICES grain slots (R7). -/
def Params.pool (p : Params) : Nat := 2 * p.voices

/-- LIFE_MAX = 2^24, the largest grain lifetime in samples (R14). -/
def Config.lifeMax : Nat := 2 ^ 24

/-- FREE VALUE: what EXP2 answers away from the points R17 fixes, before the bound R17 sets on it (DESIGN CHOICE, log entry 3). -/
opaque Config.exp2Free : Word → Word

/-- FREE VALUE: what COSPI answers away from the points R18 fixes, before the bound R18 sets on it (DESIGN CHOICE, log entry 3). -/
opaque Config.cospiFree : Word → Word

/-- FREE VALUE: what an envelope other than the default answers away from phase 0, before R12's bound (DESIGN
CHOICE, log entry 4). -/
opaque Config.envFree : Word → Word

/-- Test configuration TC-A (spec/95_test_vectors.md section 0, D36): the spec's own values, not upstream ones. -/
def Config.tcA : Params where
  voices := 4
  grainFreqMult := 0x41800000#32
  minPitch := 0xC1C00000#32
  maxPitch := 0x41C00000#32
  minGrainFreq := 0x3F800000#32
  dlMax := 4096
  env := .hann
  prims := .correctlyRounded

/-- Test configuration TC-B (spec/95_test_vectors.md section 0, D36). -/
def Config.tcB : Params where
  voices := 2
  grainFreqMult := 0x3F800000#32
  minPitch := 0xC1C00000#32
  maxPitch := 0x41C00000#32
  minGrainFreq := 0x3F800000#32
  dlMax := 64
  env := .hann
  prims := .correctlyRounded

end Sys2Proof
end

