-- ==== Sys2Proof/Machine/Binary32.lean ====
section
/-! DEFINITION. Binary32 arithmetic (spec/00_scope.md R15, R16, R19, R20). Every finite binary32 value is an integer
number of units of 2^-149, so an operation takes its operands to exact integers, computes exactly and rounds once,
to nearest, ties to even (`roundMag`). Every NaN an operation produces is the canonical one.
The rounding of IEEE 754, which the spec cites and does not restate, is PRESUMED from general knowledge (log entry 11). -/

namespace Sys2Proof.Machine

open Sys2Proof

/-- The canonical quiet NaN 0x7FC00000 (R16). -/
def canonNaN : Word := 0x7FC00000#32
def posZero : Word := 0x00000000#32
def negZero : Word := 0x80000000#32
def posInf : Word := 0x7F800000#32
def negInf : Word := 0xFF800000#32
/-- 0.5 -/
def half : Word := 0x3F000000#32
/-- 1.0 -/
def one : Word := 0x3F800000#32
/-- -1.0 -/
def minusOne : Word := 0xBF800000#32
/-- 2.0 -/
def two : Word := 0x40000000#32
/-- 12.0 -/
def twelve : Word := 0x41400000#32
/-- 128.0 -/
def f128 : Word := 0x43000000#32
/-- 1000.0 -/
def thousand : Word := 0x447A0000#32

/-- The encoding of +infinity's magnitude: exponent field 255, fraction 0. -/
def infMag : Nat := 0x7F800000

/-- One, in units of 2^-149. -/
def unit : Nat := 2 ^ 149

/-- Bit 31, the sign (R15). -/
def signOf (w : Word) : Bool := w.msb

/-- Bits 30:0, exponent and fraction (R15). -/
def magOf (w : Word) : Nat := w.toNat % 2 ^ 31

def isNaN (w : Word) : Bool := decide (infMag < magOf w)
def isInf (w : Word) : Bool := decide (magOf w = infMag)
def isFinite (w : Word) : Bool := decide (magOf w < infMag)

/-- The word with sign `neg` and magnitude encoding `mag`. -/
def pack (neg : Bool) (mag : Nat) : Word := BitVec.ofNat 32 (mag + if neg then 2 ^ 31 else 0)

/-- The value of a finite magnitude encoding in units of 2^-149: exponent field 0 is subnormal, exponent field e + 1
scales the 24-bit significand by 2^e. -/
def unitsOfMag (m : Nat) : Nat := if m < 2 ^ 23 then m else (2 ^ 23 + m % 2 ^ 23) * 2 ^ (m / 2 ^ 23 - 1)

/-- The value of a finite word in units of 2^-149, exactly. -/
def fix (w : Word) : Int := if signOf w then -(unitsOfMag (magOf w) : Int) else (unitsOfMag (magOf w) : Int)

/-- `num / den` rounded to the nearest integer, ties to the even one. -/
def halfEven (num den : Nat) : Nat :=
  if 2 * (num % den) < den then num / den
  else if den < 2 * (num % den) then num / den + 1
  else if num / den % 2 = 0 then num / den else num / den + 1

/-- The magnitude encoding of `num / den` units of 2^-149 rounded to binary32, to nearest, ties to even: subnormals
are kept and a magnitude past the largest finite one becomes infinity (R16). The exponent's shift `k` is the one that
leaves a significand of 24 bits; the significand's carry moves into the exponent field by itself. -/
def roundMag (num den : Nat) : Nat :=
  let k := Nat.log2 (num / den) - 23
  min (halfEven num (den * 2 ^ k) + k * 2 ^ 23) infMag

/-- The sum of exact values `v` units, rounded; an exact zero takes the sign `zeroNeg`. -/
def roundInt (zeroNeg : Bool) (v : Int) : Word :=
  if v = 0 then pack zeroNeg 0 else pack (decide (v < 0)) (roundMag v.natAbs 1)

/-- `-v`: bit 31 inverted (R19). -/
def fneg (w : Word) : Word := w ^^^ 0x80000000#32

/-- `|v|`: bit 31 cleared (R19). -/
def fabs (w : Word) : Word := w &&& 0x7FFFFFFF#32

/-- Binary32 addition (R16). A sum that is exactly zero is -0.0 only when both operands are negative. -/
def fadd (a b : Word) : Word :=
  if isNaN a || isNaN b then canonNaN
  else if isInf a then (if isInf b && signOf a != signOf b then canonNaN else a)
  else if isInf b then b
  else roundInt (signOf a && signOf b) (fix a + fix b)

/-- Binary32 subtraction (R16): addition of the negated operand. -/
def fsub (a b : Word) : Word := fadd a (fneg b)

/-- Binary32 multiplication (R16). -/
def fmul (a b : Word) : Word :=
  if isNaN a || isNaN b then canonNaN
  else if isInf a || isInf b then
    (if magOf a = 0 ∨ magOf b = 0 then canonNaN else pack (signOf a != signOf b) infMag)
  else pack (signOf a != signOf b) (roundMag (unitsOfMag (magOf a) * unitsOfMag (magOf b)) unit)

/-- Binary32 division (R16). -/
def fdiv (a b : Word) : Word :=
  if isNaN a || isNaN b then canonNaN
  else if isInf a then (if isInf b then canonNaN else pack (signOf a != signOf b) infMag)
  else if isInf b then pack (signOf a != signOf b) 0
  else if magOf b = 0 then (if magOf a = 0 then canonNaN else pack (signOf a != signOf b) infMag)
  else pack (signOf a != signOf b) (roundMag (unitsOfMag (magOf a) * unit) (unitsOfMag (magOf b)))

/-- The order of the non-NaN words: magnitudes are ordered as their encodings, and -0.0 equals +0.0 (R19). -/
def ordKey (w : Word) : Int := if signOf w then -(magOf w : Int) else (magOf w : Int)

/-- `a < b`, false if either is NaN (R19). -/
def flt (a b : Word) : Bool := !isNaN a && !isNaN b && decide (ordKey a < ordKey b)
/-- `a <= b`, false if either is NaN (R19). -/
def fle (a b : Word) : Bool := !isNaN a && !isNaN b && decide (ordKey a ≤ ordKey b)

/-- The largest integer not above a finite value. -/
def floorInt (w : Word) : Int := fix w / (unit : Int)
/-- The smallest integer not below a finite value. -/
def ceilInt (w : Word) : Int := -(-(fix w) / (unit : Int))

/-- The binary32 of sign `neg` whose magnitude is the integer `n`, exact where binary32 holds it. -/
def f32Signed (neg : Bool) (n : Nat) : Word := pack neg (roundMag (n * unit) 1)

/-- `f32(n)` (00_scope.md section 5), exact for n <= 2^24. -/
def f32 (n : Nat) : Word := f32Signed false n

/-- `floor(v)` (R19): infinities and zeros unchanged, NaN canonical, the sign kept. -/
def ffloor (w : Word) : Word :=
  if isNaN w then canonNaN else if isInf w then w else f32Signed (signOf w) (floorInt w).natAbs

/-- `ceil(v)` (R19): infinities and zeros unchanged, NaN canonical, a value in (-1, 0) gives -0.0. -/
def fceil (w : Word) : Word :=
  if isNaN w then canonNaN else if isInf w then w else f32Signed (signOf w) (ceilInt w).natAbs

/-- `rne_int(v)` for a finite v: the nearest integer, ties to the even one (R19). -/
def rneInt (w : Word) : Int :=
  if signOf w then -(halfEven (unitsOfMag (magOf w)) unit : Int) else (halfEven (unitsOfMag (magOf w)) unit : Int)

/-- "The integer value of" an integral finite v. -/
def intOf (w : Word) : Int := floorInt w

/-- A finite value that is an integer. -/
def isIntegral (w : Word) : Bool := isFinite w && decide (unitsOfMag (magOf w) % unit = 0)

end Sys2Proof.Machine
end

