-- ==== Sys2Proof/Machine/Primitives.lean ====
section
/-! DEFINITION. EXP2, COSPI and ENV (spec/00_scope.md R12, R17, R18). Each answers the value its rule requires at the
points its rule names; elsewhere it answers a value the block's kind gives, brought into the range its rule requires.
A block of kind `free` or `other` gives a free value (an opaque constant of Config): every function with the rule's
properties is one of those. A block of kind `correctlyRounded` gives the spec's test functions (D36). -/

namespace Sys2Proof.Machine

open Sys2Proof

/-- Fraction bits of the fixed-point bounds below. -/
def precBits : Nat := 200
/-- floor(ln 2 x 2^200). -/
def ln2Fixed : Nat := 0xB17217F7D1CF79ABC9E3B39803F2F6AF40F343267298B62D8A
/-- floor(pi x 2^200). -/
def piFixed : Nat := 0x3243F6A8885A308D313198A2E03707344A4093822299F31D008

/-- `fuel` terms of the exponential series from a term `t = x^k / k!`, in units of 2^-200; every division is rounded
down, plus `up` (0 for a lower bound, 1 for an upper one). -/
def expSum (x up : Nat) : (fuel k t : Nat) → Nat
  | 0, _, _ => 0
  | fuel + 1, k, t => t + expSum x up fuel (k + 1) (t * x / (2 ^ precBits * (k + 1)) + up)

/-- `fuel` terms of the cosine series' magnitudes from a term `t = z^k / (2k)!`, in units of 2^-200: the sum of the
terms at even distance from the first and of those at odd distance, rounded as in `expSum`. -/
def cosSums (z up : Nat) : (fuel k t : Nat) → Nat × Nat
  | 0, _, _ => (0, 0)
  | fuel + 1, k, t =>
    let r := cosSums z up fuel (k + 1) (t * z / (2 ^ precBits * ((2 * k + 1) * (2 * k + 2))) + up)
    (t + r.2, r.1)

/-- 2^q correctly rounded, for a finite q below 128 that is not an integer from -126 up (R17, D36): q = n + f/2^149,
2^f is bounded below and above by its exponential series, and the two bounds round alike. (Where they would not,
the answer is the free value: no such q is known.) Below -150 the value is under half the least subnormal. -/
def exp2Rounded (q : Word) : Word :=
  let n := floorInt q
  let f := (fix q - n * unit).toNat
  if n < -150 ∨ (n = -150 ∧ f = 0) then posZero
  else
    let lo := expSum (f * ln2Fixed / unit) 0 60 0 (2 ^ precBits)
    let hi := expSum (f * (ln2Fixed + 1) / unit + 1) 1 60 0 (2 ^ precBits) + 1
    let scale := 2 ^ (n + 150).toNat
    let a := roundMag (lo * scale) (2 ^ (precBits + 1))
    let b := roundMag (hi * scale) (2 ^ (precBits + 1))
    if a = b then pack false a else Config.exp2Free q

/-- cos(pi x r / 2^149) correctly rounded, for r in [0, 2^150) (R18, D36): the angle is folded to [0, pi/2], where the
cosine is bounded below and above by its alternating series, and the two bounds round alike. (Where they would not, the
answer is the free value of `t`: no such t is known.) -/
def cospiRounded (t : Word) (r : Nat) : Word :=
  let h := min r (2 * unit - r)
  let neg := decide (unit < 2 * h)
  let x := if neg then unit - h else h
  let yLo := x * piFixed / unit
  let yHi := x * (piFixed + 1) / unit + 1
  let lo := cosSums (yLo * yLo / 2 ^ precBits) 0 40 0 (2 ^ precBits)
  let hi := cosSums (yHi * yHi / 2 ^ precBits + 1) 1 40 0 (2 ^ precBits)
  let a := roundMag ((lo.1 - (hi.2 + 1)) * unit) (2 ^ precBits)
  let b := roundMag ((hi.1 + 1 - lo.2) * unit) (2 ^ precBits)
  if a = b then pack neg a else Config.cospiFree t

/-- A word brought into the values R17 allows for a non-NaN q: itself where it is >= +0.0, else +0.0. -/
def boundNonneg (w : Word) : Word := if fle posZero w then w else posZero
/-- A word brought into [-1, 1] (R18). -/
def boundUnit (w : Word) : Word := if fle minusOne w && fle w one then w else posZero
/-- A word brought into [0, 1] (R12). -/
def boundEnv (w : Word) : Word := if fle posZero w && fle w one then w else posZero

/-- `EXP2(q)` (R17): exact at the integers whose power is normal, +inf from 128 up, +0.0 at -inf, never below +0.0. -/
def exp2 (k : PrimKind) (q : Word) : Word :=
  if isNaN q then canonNaN
  else if fle f128 q then posInf
  else if q = negInf then posZero
  else if isIntegral q ∧ -126 ≤ intOf q then pack false ((intOf q + 127).toNat * 2 ^ 23)
  else boundNonneg (match k with | .free => Config.exp2Free q | .correctlyRounded => exp2Rounded q)

/-- `t mod 2` of a finite t, in units of 2^-149 (R18). -/
def mod2Units (t : Word) : Nat := (fix t % (2 * unit : Nat)).toNat

/-- `COSPI(t)` (R18): exact where t mod 2 is 0, 1/2, 1 or 3/2, in [-1, 1] for every finite t. -/
def cospi (k : PrimKind) (t : Word) : Word :=
  if !isFinite t then canonNaN
  else if mod2Units t = 0 then one
  else if 2 * mod2Units t = unit then posZero
  else if mod2Units t = unit then minusOne
  else if 2 * mod2Units t = 3 * unit then posZero
  else boundUnit (match k with | .free => Config.cospiFree t | .correctlyRounded => cospiRounded t (mod2Units t))

/-- The default envelope: 0.5 x (1 - COSPI(2 x phi)), each step one binary32 operation (R12). -/
def hann (k : PrimKind) (phi : Word) : Word := fmul half (fsub one (cospi k (fmul two phi)))

/-- `ENV(phi)` (R12, R116): the default, or any other envelope that is +0.0 at phase 0 and stays in [0, 1]. -/
def env (p : Params) (phi : Word) : Word :=
  match p.env with
  | .hann => hann p.prims phi
  | .other => if magOf phi = 0 then posZero else boundEnv (Config.envFree phi)

end Sys2Proof.Machine
end

