-- ==== Sys2Proof/Machine/Block.lean ====
section
/-! DEFINITION. The constraints on a block's parameters (spec/00_scope.md R6 to R11), the constants made from them
(R13) and the block that State.reset stands for. -/

namespace Sys2Proof.Machine

open Sys2Proof

/-- The constraints of 00_scope.md section 4. -/
def paramsOk (p : Params) : Bool :=
  decide (1 ≤ p.voices) && decide (p.voices ≤ 128)
  && (isFinite p.grainFreqMult && flt posZero p.grainFreqMult)
  && (isFinite p.minPitch && isFinite p.maxPitch && fle p.minPitch p.maxPitch)
  && (isFinite p.minGrainFreq && flt posZero p.minGrainFreq)
  && decide (3 ≤ p.dlMax) && decide (p.dlMax ≤ 2 ^ 24)

/-- GAIN = rn(2 / VOICES) (R13). -/
def gain (p : Params) : Word := fdiv two (f32 p.voices)

/-- The block that State.reset is the reset state of: the spec's test configuration TC-A (D36; DESIGN CHOICE, log
entry 1).
The claims of this package quantify over every configuration. -/
def block : Params := Config.tcA

end Sys2Proof.Machine
end

