-- ==== Sys2Proof/Machine/State.lean ====
section
/-! DEFINITION. The architectural state (spec/10_state.md R23 to R32), the interface's two ends (spec/30_encoding.md
R61, R62) and the state after hardware reset (R40, R171, R172). -/

namespace Sys2Proof.Machine

open Sys2Proof

/-- The response codes of spec/60_exceptions.md R151; 6 to 15 are never produced. -/
inductive Rsp
  /-- 0: the command executed. -/
  | ok
  /-- 1: reserved or undefined encoding. -/
  | illegal
  /-- 2: grain slot, register number, field selector or delay-line slot out of range. -/
  | badIndex
  /-- 3: a command that needs a configuration while CFG = 0. -/
  | notConfigured
  /-- 4: INIT with a sample rate that is NaN, a zero, negative or +inf. -/
  | badSampleRate
  /-- 5: INIT whose delay line needs more than DL_MAX slots. -/
  | capacity
deriving DecidableEq, Repr

/-- The response to a command: the code RSP and the result word RES (R61, R70). -/
structure Response where
  rsp : Rsp
  res : Word
deriving DecidableEq, Repr

/-- What the host does at the interface (R61, R62, R171), in the order it does it. -/
inductive HostInput
  /-- A command, accepted and answered. -/
  | transact (k : Command)
  /-- `rst` asserted with no command in flight. -/
  | rst
  /-- A command accepted, and `rst` asserted before its response. -/
  | abandoned (k : Command)
deriving DecidableEq, Repr

/-- One grain slot (R30). -/
structure Grain where
  /-- ACTIVE: true = `active`, false = `free`. -/
  active : Bool
  /-- OFFSET: the read offset, samples into the past, unclamped, binary32. -/
  offset : Word
  /-- SPEED captured at trigger time, binary32. -/
  speed : Word
  /-- FREQ given at trigger time, binary32. -/
  freq : Word
  /-- WINDOW size given at trigger time, ms, binary32. -/
  window : Word
  /-- COUNT: samples played since the trigger, u32. -/
  count : BitVec 32
  /-- LIFE: lifetime in samples, u32. -/
  life : BitVec 32
deriving DecidableEq, Repr

/-- The fields of STATUS that are stored (R32); its CFG bit is a copy of the configured flag, its reserved bits read 0. -/
structure Status where
  drop : Bool
  pclamp : Bool
  hinval : Bool
  rclamp : Bool
  ill : Bool
  trig : Bool
  /-- LAST_ERR: the code of the most recently rejected command; `ok` (0) when none is held. -/
  lastErr : Rsp
deriving DecidableEq, Repr

/-- The delay-line storage BUF (R46): pairs of a slot number and the 32-bit word it holds, slot numbers strictly
rising, no word +0.0 (0x00000000): a slot that is not listed holds that word. The cell is the 32-bit slot, the
smallest unit the spec addresses (R46, R50; log entry 6). -/
abbrev Memory := List (Nat × Word)

/-- No command can fault: every rule of the spec is total (R166), no access fault exists (R55), and a rejection is a
response, not a fault (R153). The type has no constructor; nobody raises one (safe). -/
inductive Fault : Type
deriving DecidableEq, Repr

/-- Why the model has no meaning for an instruction. -/
inductive Refusal
  /-- Raised by an arm of `exec` whose instruction has no meaning in this model; no arm raises it (safe: the model
  stops where the hardware goes on). -/
  | notModelled (mnemonic : String)
deriving DecidableEq, Repr

/-- The state of one block instance (R23), with the block's parameters and the interface's two ends. -/
structure State where
  /-- MODEL'S OWN: the configuration record, fixed for the block (R23's last sentence; DESIGN CHOICE, log
  entry 1). -/
  params : Params
  /-- CFG: an INIT has succeeded (R24). -/
  cfg : Bool
  /-- SR: the sample rate, binary32 (R25). -/
  sr : Word
  /-- N: delay-line slots in use, u32 (R27). -/
  n : BitVec 32
  /-- WPTR: the slot the next delay-line write stores to, u32 (R26). -/
  wptr : BitVec 32
  /-- BUF: the delay-line storage (R27, R46). -/
  buf : Memory
  /-- PHASE: the phase accumulator, binary32 (R28). -/
  phase : Word
  /-- DPREV: the edge detector's previous value, binary32 (R29). -/
  dprev : Word
  /-- G: the grain pool, POOL slots (R30, R37). -/
  grains : List Grain
  /-- STATUS (R32). -/
  status : Status
  /-- MODEL'S OWN: what the host still does at the interface, first to come first (R56, R61; DESIGN CHOICE,
  log entry 2). -/
  inputs : List HostInput
  /-- MODEL'S OWN: the response the last step gave, none if it gave none (R61, R62; DESIGN CHOICE, log
  entry 2). -/
  response : Option Response
deriving DecidableEq, Repr

/-- The three outcomes of a command. -/
abbrev Result := Host.Outcome State Fault Refusal

/-- A grain slot after RST and after INIT (R30, R40). -/
def Grain.reset : Grain where
  active := false
  offset := 0
  speed := 0
  freq := 0
  window := 0
  count := 0
  life := 0

/-- STATUS' stored fields after RST and after INIT (R32, R40). -/
def Status.reset : Status where
  drop := false
  pclamp := false
  hinval := false
  rclamp := false
  ill := false
  trig := false
  lastErr := .ok

/-- The "after RST" column of R40 for a block with parameters `p`; BUF, unspecified there, lists nothing
(DESIGN CHOICE, log entry 5). -/
def State.resetWith (p : Params) : State where
  params := p
  cfg := false
  sr := 0
  n := 0
  wptr := 0
  buf := []
  phase := 0
  dprev := 0
  grains := List.replicate p.pool Grain.reset
  status := Status.reset
  inputs := []
  response := none

/-- The machine right after reset (R171, R172): no command has come yet. -/
def State.reset : State := State.resetWith block

end Sys2Proof.Machine
end

