-- ==== Sys2Proof/Machine/Flags.lean ====
section
/-! DEFINITION. The STATUS register (spec/10_state.md R32): its word, the codes it shares with the response, and every
event that sets or clears a field of it (spec/60_exceptions.md R153, R155; spec/45_engine_process.md R147). -/

namespace Sys2Proof.Machine

open Sys2Proof

/-- The 4-bit response code (R151). -/
def rspCode : Rsp → BitVec 4
  | .ok => 0
  | .illegal => 1
  | .badIndex => 2
  | .notConfigured => 3
  | .badSampleRate => 4
  | .capacity => 5

/-- One bit of a register. -/
def bit (b : Bool) : BitVec 1 := if b then 1 else 0

/-- The 32-bit STATUS word: LAST_ERR in bits 11:8, then reserved bit 7, TRIG, ILL, RCLAMP, HINVAL, PCLAMP, DROP, CFG
in bits 6:0; bits 31:12 read 0 (R32). -/
def statusWord (s : State) : Word :=
  0#20 ++ rspCode s.status.lastErr ++ 0#1 ++ bit s.status.trig ++ bit s.status.ill ++ bit s.status.rclamp
    ++ bit s.status.hinval ++ bit s.status.pclamp ++ bit s.status.drop ++ bit s.cfg

/-- A rejection's effect on STATUS: ILL set, LAST_ERR the code (R153). -/
def noteRejection (code : Rsp) (st : Status) : Status := { st with ill := true, lastErr := code }

/-- CLRSTAT's effect: the sticky bits and LAST_ERR cleared, TRIG kept (R87). -/
def clearSticky (st : Status) : Status :=
  { st with drop := false, pclamp := false, hinval := false, rclamp := false, ill := false, lastErr := .ok }

/-- DROP, sticky: a trigger found no free grain (R143, R155). -/
def noteDrop (s : State) : State := { s with status := { s.status with drop := true } }
/-- HINVAL, sticky: a PROCESS_H hint was not valid (R142, R155). -/
def noteHinval (s : State) : State := { s with status := { s.status with hinval := true } }
/-- PCLAMP, sticky: set when `hit` says that the pitch was NaN or out of range (R141, R155). -/
def notePclamp (hit : Bool) (s : State) : State := { s with status := { s.status with pclamp := s.status.pclamp || hit } }
/-- RCLAMP, sticky: set when `hit` says that a read offset was clamped (R93, R155). -/
def noteRclamp (hit : Bool) (s : State) : State := { s with status := { s.status with rclamp := s.status.rclamp || hit } }
/-- TRIG, not sticky: written by every PROCESS (R147). -/
def setTrig (on : Bool) (s : State) : State := { s with status := { s.status with trig := on } }

end Sys2Proof.Machine
end

