-- ==== Sys2Proof/Machine/Ops.lean ====
section
/-! DEFINITION. The shared operations: responding and rejecting (spec/60_exceptions.md R151 to R154), the checks of
spec/30_encoding.md R67 that read the state, the delay-line storage (spec/20_memory.md R46, R48), the delay line
(spec/41_delay_line.md R91, R93, R94), the grain registers (spec/10_state.md R30, R31) and reset. -/

namespace Sys2Proof.Machine

open Sys2Proof

/-! ### Responses and rejections -/

/-- The command ends with response OK and result word `res` (00_scope.md section 5, R70). -/
def respond (res : Word) (s : State) : State := { s with response := some ⟨.ok, res⟩ }

/-- `on_reject(code)`: the whole effect of a rejection, the block's one exception; it saves the code in LAST_ERR, and
since there is no program counter and no mode nothing else is entered or returned from (R153, R158, R159). -/
def rejected (code : Rsp) (s : State) : State :=
  { s with status := noteRejection code s.status, response := some ⟨code, 0⟩ }

/-- The command completes. -/
def answer (res : Word) (s : State) : Result := .next (respond res s)

/-- The command completes with the result and the state an operation computed. -/
def answerOf (r : Word × State) : Result := answer r.1 r.2

/-- `raise Reject(code)`: the machine goes on, in the state R153 gives. -/
def reject (code : Rsp) (s : State) : Result := .next (rejected code s)

/-- The CFG check of R67, before the check of IDX: a command of R71 while CFG = 0 is rejected. -/
def ifConfigured (s : State) (k : Result) : Result := if s.cfg then k else reject .notConfigured s

/-- The grain-slot check of R67: IDX >= POOL is rejected. -/
def ifSlot (slot : BitVec 8) (s : State) (k : Result) : Result :=
  if slot.toNat < s.params.pool then k else reject .badIndex s

/-! ### Reset -/

/-- `rst` asserted: the reset state of the same block; what the host does next is its own (R171, R172). -/
def hardwareReset (s : State) : State := { State.resetWith s.params with inputs := s.inputs }

/-! ### The delay-line storage -/

/-- `MemRead(k, 4)`: the word in slot k; a slot that is not listed holds 0x00000000 (R46; DESIGN CHOICE, log
entry 5). -/
def memRead : Memory → Nat → Word
  | [], _ => 0
  | (a, w) :: m, k => if k = a then w else memRead m k

/-- The cell `(k, v)` in front of `m`, or `m` alone where v is what an unlisted slot holds. -/
def memCons (k : Nat) (v : Word) (m : Memory) : Memory := if v = 0 then m else (k, v) :: m

/-- `MemWrite(k, 4, v)`: the word stored in slot k unchanged, the list kept in its canonical form (R46). -/
def memWrite : Memory → Nat → Word → Memory
  | [], k, v => memCons k v []
  | (a, w) :: m, k, v =>
    if k < a then memCons k v ((a, w) :: m)
    else if k = a then memCons k v m
    else (a, w) :: memWrite m k v

/-- `MemWrite(k, 4, 0x00000000)` for every 0 <= k < n (R85): no slot below n stays listed. -/
def memClear : Memory → Nat → Memory
  | [], _ => []
  | (a, w) :: m, n => if a < n then memClear m n else (a, w) :: memClear m n

/-- The canonical form from slot `lo` up to the slot before `hi`: slot numbers strictly rising, no word listed that an
unlisted slot holds. -/
def memOkFrom (hi : Nat) : Nat → Memory → Bool
  | _, [] => true
  | lo, (a, w) :: m => decide (lo ≤ a) && decide (a < hi) && decide (w ≠ 0) && memOkFrom hi (a + 1) m

/-- The storage of a block with `hi` slots is in its canonical form. -/
def Memory.wf (hi : Nat) (m : Memory) : Bool := memOkFrom hi 0 m

/-! ### The delay line -/

/-- The slot of the sample at offset k into the past: (WPTR - 1 - k) mod N (R48). N = 0 with CFG = 1, which no state
meeting `Inv` has, leaves the sum unreduced (log entry 8). -/
def pastSlot (s : State) (k : Nat) : Nat := (((s.wptr.toNat : Int) - 1 - k) % (s.n.toNat : Int)).toNat

/-- `s(k)`: the sample at integer offset k into the past (R48). -/
def pastSample (s : State) (k : Nat) : Word := memRead s.buf (pastSlot s k)

/-- `dl_write(x)` (R91). -/
def dlWrite (x : Word) (s : State) : State :=
  { s with buf := memWrite s.buf s.wptr.toNat x, wptr := BitVec.ofNat 32 ((s.wptr.toNat + 1) % s.n.toNat) }

/-- MAXR = f32(N - 2), the largest offset read without a clamp (R83, R93). -/
def maxOffset (s : State) : Word := f32 (s.n.toNat - 2)

/-- `clamp_offset(o)`: the offset read, and whether it was clamped (R93). -/
def clampOffset (s : State) (o : Word) : Word × Bool :=
  if isNaN o then (posZero, true)
  else if flt o posZero then (posZero, true)
  else if flt (maxOffset s) o then (maxOffset s, true)
  else (o, false)

/-- `dl_read`'s value at an offset already in range: linear interpolation between the samples at offsets i and i + 1
in the operation order of R94. -/
def interpolate (s : State) (oc : Word) : Word :=
  let fi := ffloor oc
  let i := (intOf fi).toNat
  let fr := fsub oc fi
  let a := pastSample s i
  let b := pastSample s (i + 1)
  fadd a (fmul (fsub b a) fr)

/-- `dl_read(o)` (R94): the value, and the state with RCLAMP noted. -/
def dlRead (o : Word) (s : State) : Word × State :=
  (interpolate s (clampOffset s o).1, noteRclamp (clampOffset s o).2 s)

/-! ### The grain registers -/

/-- `G[j]` (R30). A pool shorter than POOL, which no state meeting `Inv` has, reads a free slot (log entry 8). -/
def grainAt (s : State) (j : Nat) : Grain := s.grains.getD j Grain.reset

/-- `G[j] <- g` (R30). -/
def setGrain (j : Nat) (g : Grain) (s : State) : State := { s with grains := s.grains.set j g }

/-- ENVPH: COUNT / LIFE, one binary32 division of exact integers, +0.0 while LIFE = 0 (R31). -/
def envPhase (g : Grain) : Word := if g.life = 0 then posZero else fdiv (f32 g.count.toNat) (f32 g.life.toNat)

/-- REMAIN: LIFE - COUNT, u32 (R31). -/
def remain (g : Grain) : BitVec 32 := g.life - g.count

end Sys2Proof.Machine
end

