-- ==== Sys2Proof/Machine/Operands.lean ====
section
/-! DEFINITION. The registers a command names by number: the register map of RDREG (spec/10_state.md R34) and the field
map of GR_RD (R35). Operand words are taken whole (spec/30_encoding.md R65), so no other operand form exists. -/

namespace Sys2Proof.Machine

open Sys2Proof

/-- ID = 0x47534531, "GSE1" (R3, R34). -/
def idWord : Word := 0x47534531#32

/-- The value of register number `reg`, none for 0x0F to 0xFF (R34). Binary32 registers are read as their bits. -/
def readReg (s : State) (reg : BitVec 8) : Option Word :=
  match reg.toNat with
  | 0x00 => some (statusWord s)
  | 0x01 => some idWord
  | 0x02 => some s.sr
  | 0x03 => some s.n
  | 0x04 => some s.wptr
  | 0x05 => some s.phase
  | 0x06 => some s.dprev
  | 0x07 => some (BitVec.ofNat 32 s.params.voices)
  | 0x08 => some (BitVec.ofNat 32 s.params.pool)
  | 0x09 => some (BitVec.ofNat 32 s.params.dlMax)
  | 0x0A => some (gain s.params)
  | 0x0B => some s.params.grainFreqMult
  | 0x0C => some s.params.minPitch
  | 0x0D => some s.params.maxPitch
  | 0x0E => some s.params.minGrainFreq
  | _ => none

/-- Field number `field` of a grain, none for 9 to 15 (R35). -/
def readField (g : Grain) (field : BitVec 4) : Option Word :=
  match field.toNat with
  | 0 => some (BitVec.setWidth 32 (bit g.active))
  | 1 => some g.offset
  | 2 => some g.speed
  | 3 => some g.freq
  | 4 => some g.window
  | 5 => some g.count
  | 6 => some g.life
  | 7 => some (envPhase g)
  | 8 => some (remain g)
  | _ => none

end Sys2Proof.Machine
end

