-- ==== Sys2Proof/Machine/Control.lean ====
section
/-! DEFINITION. Construction and control: NOP, INIT, RDREG, CLRSTAT (spec/40_construction_and_control.md). -/

namespace Sys2Proof.Machine

open Sys2Proof

/-- NOP (R81). -/
def execNop (s : State) : Result := answer 0 s

/-- A sample rate INIT accepts: above 0.0 and not infinite; NaN, zeros and negatives fail the comparison (R82). -/
def sampleRateOk (sr : Word) : Bool := flt posZero sr && !isInf sr

/-- `ceil(sr x ceil(1.0 / MIN_GRAIN_FREQ))` in binary32 (R82, R83). -/
def requiredSlots (p : Params) (sr : Word) : Word := fceil (fmul sr (fceil (fdiv one p.minGrainFreq)))

/-- N for a sample rate (R82, R83): the integer value of `requiredSlots`, plus 2. -/
def lineLength (p : Params) (sr : Word) : Nat := (intOf (requiredSlots p sr)).toNat + 2

/-- The required slots fit the physical ones; +inf and NaN do not (R82, R84). -/
def fitsCapacity (p : Params) (sr : Word) : Bool := fle (requiredSlots p sr) (f32 (p.dlMax - 2))

/-- The "after INIT success" column of R40 (R85, R173). -/
def constructed (sr : Word) (s : State) : State :=
  { s with
    cfg := true
    sr := sr
    n := BitVec.ofNat 32 (lineLength s.params sr)
    wptr := 0
    buf := memClear s.buf (lineLength s.params sr)
    phase := posZero
    dprev := posZero
    grains := List.replicate s.params.pool Grain.reset
    status := Status.reset }

/-- INIT (R82): BAD_SAMPLE_RATE before CAPACITY; a rejected INIT leaves the previous configuration as it was. -/
def execInit (sr : Word) (s : State) : Result :=
  if !sampleRateOk sr then reject .badSampleRate s
  else if !fitsCapacity s.params sr then reject .capacity s
  else answer (BitVec.ofNat 32 (lineLength s.params sr)) (constructed sr s)

/-- RDREG (R86): no side effect; BAD_INDEX above 0x0E. -/
def execRdreg (reg : BitVec 8) (s : State) : Result :=
  match readReg s reg with
  | some v => answer v s
  | none => reject .badIndex s

/-- CLRSTAT (R87). -/
def execClrstat (s : State) : Result := answer 0 { s with status := clearSticky s.status }

end Sys2Proof.Machine
end

