-- ==== Sys2Proof/Machine/DelayLine.lean ====
section
/-! DEFINITION. The delay line's commands: DL_WRITE, DL_READ, DL_PEEK (spec/41_delay_line.md). -/

namespace Sys2Proof.Machine

open Sys2Proof

/-- DL_WRITE (R92). -/
def execDlWrite (x : Word) (s : State) : Result := ifConfigured s (answer 0 (dlWrite x s))

/-- DL_READ (R95). -/
def execDlRead (o : Word) (s : State) : Result := ifConfigured s (answerOf (dlRead o s))

/-- DL_PEEK (R96): the raw word of a physical slot below N. -/
def execDlPeek (k : Word) (s : State) : Result :=
  ifConfigured s (if s.n ≤ k then reject .badIndex s else answer (memRead s.buf k.toNat) s)

end Sys2Proof.Machine
end

