-- ==== Sys2Proof/Machine/PhasorEdge.lean ====
section
/-! DEFINITION. The phase accumulator and the edge detector: PH_STEP, DT_STEP (spec/42_phasor_edge.md). -/

namespace Sys2Proof.Machine

open Sys2Proof

/-- The phase a sum x wraps to: x in [0, 1) as it is, else x - floor(x), a non-finite x and a result of 1.0 to +0.0
(R101). -/
def wrapPhase (x : Word) : Word :=
  if isNaN x || isInf x then posZero
  else if fle posZero x && flt x one then x
  else
    let r := fsub x (ffloor x)
    if fle one r then posZero else r

/-- `phasor_step(f)` (R101). -/
def phasorStep (f : Word) (s : State) : Word × State :=
  let r := wrapPhase (fadd s.phase (fdiv f s.sr))
  (r, { s with phase := r })

/-- `delta_step(v)` (R104): the operand's bits are kept as DPREV. -/
def deltaStep (v : Word) (s : State) : Word × State := (fsub v s.dprev, { s with dprev := v })

/-- The trigger predicate on a delta: ordered less than 0.0 (R106). -/
def isTrigger (d : Word) : Bool := flt d posZero

/-- PH_STEP (R102). -/
def execPhStep (f : Word) (s : State) : Result := ifConfigured s (answerOf (phasorStep f s))

/-- DT_STEP (R105). -/
def execDtStep (v : Word) (s : State) : Result := ifConfigured s (answerOf (deltaStep v s))

end Sys2Proof.Machine
end

