-- ==== Sys2Proof/Machine/GrainVoice.lean ====
section
/-! DEFINITION. The grain voice: GR_SET, GR_STEP, GR_FREE, GR_RD (spec/43_grain_voice.md). -/

namespace Sys2Proof.Machine

open Sys2Proof

/-- `lifetime(ws)` for a sample rate: (ws x SR) / 1000 samples to the nearest even integer, in [1, LIFE_MAX]; NaN
gives 1 (R112), and so does -inf, which R115 counts among the negatives (DEDUCED, log entry 7). -/
def lifetime (sr ws : Word) : Nat :=
  let lf := fdiv (fmul ws sr) thousand
  if isNaN lf then 1
  else if fle (f32 Config.lifeMax) lf then Config.lifeMax
  else if 1 ≤ rneInt lf then (rneInt lf).toNat else 1

/-- `start_offset(sp, L)` (R113). -/
def startOffset (sp : Word) (l : Nat) : Word := if flt sp posZero then fmul (fneg sp) (f32 (l - 1)) else posZero

/-- The grain that `grain_set` leaves in a slot (R114). -/
def triggered (sr f ws sp : Word) : Grain where
  active := true
  offset := startOffset sp (lifetime sr ws)
  speed := sp
  freq := f
  window := ws
  count := 0
  life := BitVec.ofNat 32 (lifetime sr ws)

/-- `grain_set(j, f, ws, sp)` (R114). Given again at once with the same operands it leaves the same grain and answers
the same, as R114's pseudocode has it, though R53 lists GR_SET as not idempotent (DEDUCED, log entry 15). -/
def grainSet (j : Nat) (f ws sp : Word) (s : State) : Word × State :=
  (BitVec.ofNat 32 (lifetime s.sr ws), setGrain j (triggered s.sr f ws sp) s)

/-- The grain after one step of an active grain: OFFSET advanced by the live speed, COUNT by one, free at the end of
its life (R117). -/
def advanced (sp : Word) (g : Grain) : Grain :=
  { g with
    offset := fadd g.offset sp
    count := g.count + 1
    active := decide (g.count + 1 < g.life) }

/-- `grain_step(j, sp)` (R117): a free grain returns +0.0 and changes nothing. -/
def grainStep (j : Nat) (sp : Word) (s : State) : Word × State :=
  let g := grainAt s j
  if !g.active then (posZero, s)
  else
    let e := env s.params (fdiv (f32 g.count.toNat) (f32 g.life.toNat))
    let r := dlRead g.offset s
    (fmul r.1 e, setGrain j (advanced sp g) r.2)

/-- GR_SET (R115). -/
def execGrSet (slot : BitVec 8) (f ws sp : Word) (s : State) : Result :=
  ifConfigured s (ifSlot slot s (answerOf (grainSet slot.toNat f ws sp s)))

/-- GR_STEP (R118). -/
def execGrStep (slot : BitVec 8) (sp : Word) (s : State) : Result :=
  ifConfigured s (ifSlot slot s (answerOf (grainStep slot.toNat sp s)))

/-- GR_FREE (R119): 1 for a free slot, 0 for an active one; accepted with CFG = 0. -/
def execGrFree (slot : BitVec 8) (s : State) : Result :=
  ifSlot slot s (answer (if (grainAt s slot.toNat).active then 0 else 1) s)

/-- GR_RD (R120): a field of a grain; accepted with CFG = 0; BAD_INDEX for a field above 8. -/
def execGrRd (slot : BitVec 8) (field : BitVec 4) (s : State) : Result :=
  ifSlot slot s (match readField (grainAt s slot.toNat) field with
    | some v => answer v s
    | none => reject .badIndex s)

end Sys2Proof.Machine
end

