-- ==== Sys2Proof/Machine/PoolMapping.lean ====
section
/-! DEFINITION. Pitch mapping, grain frequency, window size, allocator and mixer: P2S, GFREQ, WSIZE, ALLOC, MIX
(spec/44_pool_mapping_mixer.md). -/

namespace Sys2Proof.Machine

open Sys2Proof

/-- `pitch_to_speed(p)` = 1 - EXP2(p / 12) (R126). -/
def pitchToSpeed (ps : Params) (p : Word) : Word := fsub one (exp2 ps.prims (fdiv p twelve))

/-- The divisor of the grain frequency: floor(h / GRAIN_FREQ_MULT), at least 1.0 (R128). -/
def freqDivisor (ps : Params) (h : Word) : Word :=
  let q := ffloor (fdiv h ps.grainFreqMult)
  if fle one q then q else one

/-- `grain_freq(h, sp)` (R128). -/
def grainFreq (ps : Params) (h sp : Word) : Word := fdiv (fmul h (fabs sp)) (freqDivisor ps h)

/-- `window_size(gf)` = 1000 / gf, in ms (R130). -/
def windowSize (gf : Word) : Word := fdiv thousand gf

/-- `alloc_scan()`: the lowest free slot, none where every slot is active (R132). -/
def allocScan (s : State) : Option Nat := (List.range s.params.pool).find? (fun j => !(grainAt s j).active)

/-- ALLOC's result word: the slot number, or NONE = 0xFFFFFFFF (R133, R20). -/
def allocWord (s : State) : Word :=
  match allocScan s with
  | some j => BitVec.ofNat 32 j
  | none => 0xFFFFFFFF#32

/-- The loop of `mix` over the slots `js`: each slot is stepped and its output added to `acc`, in order (R134). -/
def mixLoop (sp : Word) : List Nat → Word → State → Word × State
  | [], acc, s => (acc, s)
  | j :: js, acc, s => mixLoop sp js (fadd acc (grainStep j sp s).1) (grainStep j sp s).2

/-- `mix(sp)`: the sum of every slot's step in slot order from +0.0, times GAIN (R134, R135). -/
def mix (sp : Word) (s : State) : Word × State :=
  let r := mixLoop sp (List.range s.params.pool) posZero s
  (fmul r.1 (gain s.params), r.2)

/-- P2S (R127). -/
def execP2s (p : Word) (s : State) : Result := answer (pitchToSpeed s.params p) s

/-- GFREQ (R129). -/
def execGfreq (h sp : Word) (s : State) : Result := answer (grainFreq s.params h sp) s

/-- WSIZE (R131). -/
def execWsize (gf : Word) (s : State) : Result := answer (windowSize gf) s

/-- ALLOC (R133). -/
def execAlloc (s : State) : Result := answer (allocWord s) s

/-- MIX (R136). -/
def execMix (sp : Word) (s : State) : Result := ifConfigured s (answerOf (mix sp s))

end Sys2Proof.Machine
end

