-- ==== Sys2Proof/Machine/Engine.lean ====
section
/-! DEFINITION. The per-sample engine process: PROCESS_N, PROCESS_H (spec/45_engine_process.md). -/

namespace Sys2Proof.Machine

open Sys2Proof

/-- The pitch the engine uses: a NaN becomes +0.0, then the value is clamped to [MIN_PITCH, MAX_PITCH] (R141). -/
def pitchUsed (ps : Params) (p : Word) : Word :=
  let q := if isNaN p then posZero else p
  if flt q ps.minPitch then ps.minPitch else if flt ps.maxPitch q then ps.maxPitch else q

/-- `sanitize_pitch` sets PCLAMP: the pitch was NaN or outside the range (R141). -/
def pitchClamped (ps : Params) (p : Word) : Bool := isNaN p || flt p ps.minPitch || flt ps.maxPitch p

/-- `sanitize_pitch(p)` (R141). -/
def sanitizePitch (p : Word) (s : State) : Word × State :=
  (pitchUsed s.params p, notePclamp (pitchClamped s.params p) s)

/-- A valid hint: above 0.0 and at most SR x 0.5 (R142). -/
def hintValid (sr h : Word) : Bool := flt posZero h && fle h (fmul sr half)

/-- "On trigger" (R143 step 3): TRIG is set, and the first free slot is set with the grain frequency gf and the live
speed sp; where no slot is free the trigger is dropped and DROP set. -/
def trigger (gf sp : Word) (s : State) : State :=
  match allocScan (setTrig true s) with
  | none => noteDrop (setTrig true s)
  | some j => (grainSet j gf (windowSize gf) sp (setTrig true s)).2

/-- Trigger generation with a valid hint h (R143 steps 2 and 3): the phasor runs at gf x VOICES, the edge detector sees
the new phase, and a negative delta triggers. -/
def generate (h sp : Word) (s : State) : State :=
  let gf := grainFreq s.params h sp
  let ph := phasorStep (fmul gf (f32 s.params.voices)) s
  let d := deltaStep ph.1 ph.2
  if isTrigger d.1 then trigger gf sp d.2 else d.2

/-- Steps 2 to 4 of R143: no hint skips them, an invalid hint only sets HINVAL. -/
def hintStep (hint : Option Word) (sp : Word) (s : State) : State :=
  match hint with
  | none => s
  | some h => if hintValid s.sr h then generate h sp s else noteHinval s

/-- `engine_process(x, p, hint)` (R143): the write comes last. -/
def engineProcess (x p : Word) (hint : Option Word) (s : State) : Word × State :=
  let pc := sanitizePitch p s
  let sp := pitchToSpeed s.params pc.1
  let y := mix sp (hintStep hint sp (setTrig false pc.2))
  (y.1, dlWrite x y.2)

/-- PROCESS_H (R144). -/
def execProcessH (x p h : Word) (s : State) : Result := ifConfigured s (answerOf (engineProcess x p (some h) s))

/-- PROCESS_N (R145). -/
def execProcessN (x p : Word) (s : State) : Result := ifConfigured s (answerOf (engineProcess x p none s))

end Sys2Proof.Machine
end

