-- ==== Sys2Proof/Machine/Dispatch.lean ====
section
/-! DEFINITION. One command's meaning, one arm per row of spec/opcode_table.json. -/

namespace Sys2Proof.Machine

open Sys2Proof

def exec (i : Instr) (s : State) : Host.Outcome State Fault Refusal :=
  match i with
  | .nop => Sys2Proof.Machine.execNop s
  | .init sampleRate => Sys2Proof.Machine.execInit sampleRate s
  | .processN input pitch => Sys2Proof.Machine.execProcessN input pitch s
  | .processH input pitch hint => Sys2Proof.Machine.execProcessH input pitch hint s
  | .rdreg reg => Sys2Proof.Machine.execRdreg reg s
  | .clrstat => Sys2Proof.Machine.execClrstat s
  | .dlWrite sample => Sys2Proof.Machine.execDlWrite sample s
  | .dlRead offset => Sys2Proof.Machine.execDlRead offset s
  | .dlPeek slotNo => Sys2Proof.Machine.execDlPeek slotNo s
  | .phStep frequency => Sys2Proof.Machine.execPhStep frequency s
  | .dtStep value => Sys2Proof.Machine.execDtStep value s
  | .grSet slot frequency windowSize speed => Sys2Proof.Machine.execGrSet slot frequency windowSize speed s
  | .grStep slot speed => Sys2Proof.Machine.execGrStep slot speed s
  | .grFree slot => Sys2Proof.Machine.execGrFree slot s
  | .grRd slot field => Sys2Proof.Machine.execGrRd slot field s
  | .p2s pitch => Sys2Proof.Machine.execP2s pitch s
  | .gfreq hint speed => Sys2Proof.Machine.execGfreq hint speed s
  | .wsize grainFreq => Sys2Proof.Machine.execWsize grainFreq s
  | .alloc => Sys2Proof.Machine.execAlloc s
  | .mix speed => Sys2Proof.Machine.execMix speed s

end Sys2Proof.Machine
end

