-- ==== Sys2Proof/Machine/Step.lean ====
section
/-! DEFINITION. One step: the block takes the next thing the host does at its interface (spec/20_memory.md R52, R56;
spec/30_encoding.md R61; spec/70_reset_and_hazards.md R171). One command is one step (R182). -/

namespace Sys2Proof.Machine

open Sys2Proof

/-- One step. A command is decoded and runs to its response; a word that is no command is rejected with ILLEGAL (R68);
`rst` gives the reset state, and a command in flight then is abandoned (R171). Where the host does nothing the block
holds its state and gives no response (R165; DESIGN CHOICE, log entries 2 and 9). -/
def step (s : State) : Host.Outcome State Fault Refusal :=
  match s.inputs with
  | [] => .next { s with response := none }
  | .rst :: rest => .next (hardwareReset { s with inputs := rest })
  | .abandoned _ :: rest => .next (hardwareReset { s with inputs := rest })
  | .transact k :: rest =>
    match decode k with
    | .error _ => reject .illegal { s with inputs := rest }
    | .ok i => exec i { s with inputs := rest }

/-- `s` with the command of the opcode table's word put where `step` takes its next command: first among the host's
inputs. There is no program counter and no fetch (R21): the host sequences commands. -/
def State.withFetchWord (s : State) (nbits w : Nat) : State :=
  { s with inputs := .transact (commandOfTableWord nbits w) :: s.inputs }

end Sys2Proof.Machine
end

