-- ==== Sys2Proof/Machine/Assembler.lean ====
section
/-! DEFINITION. The assembly syntax of spec/30_encoding.md R73 with the pseudo-instructions of R74: one line of text to
the command it stands for, none where the line is not of that syntax (what the rules leave to the lexer: log entry 12). The four words are `encode`'s. -/

namespace Sys2Proof.Machine

open Sys2Proof

/-! ### Lines and operands as text -/

/-- The pieces of a text between separators. -/
def splitText (sep : Char) (cs : List Char) : List (List Char) :=
  cs.foldr (fun c acc => if c = sep then [] :: acc else match acc with
    | [] => [[c]]
    | piece :: pieces => (c :: piece) :: pieces) [[]]

/-- A text without spaces at either end. -/
def trimText (cs : List Char) : List Char := ((cs.dropWhile (· = ' ')).reverse.dropWhile (· = ' ')).reverse

/-- The mnemonic and the operands of a line: the operands follow the first space, with commas between them. -/
def lineParts (line : String) : List Char × List (List Char) :=
  let cs := trimText line.toList
  let rest := trimText (cs.dropWhile (· ≠ ' '))
  (cs.takeWhile (· ≠ ' '), if rest = [] then [] else (splitText ',' rest).map trimText)

/-- A digit of a number in base 10 or 16. -/
def digitOf (base : Nat) (c : Char) : Option Nat :=
  let n := c.toNat
  let d := if 48 ≤ n ∧ n ≤ 57 then some (n - 48)
    else if 65 ≤ n ∧ n ≤ 70 then some (n - 55)
    else if 97 ≤ n ∧ n ≤ 102 then some (n - 87)
    else none
  d.bind (fun v => if v < base then some v else none)

/-- The number some digits write, after the number `acc`. -/
def numberFrom (base : Nat) : Nat → List Char → Option Nat
  | acc, [] => some acc
  | acc, c :: cs => (digitOf base c).bind (fun d => numberFrom base (acc * base + d) cs)

/-- A number of at least one digit. -/
def numberOf (base : Nat) (cs : List Char) : Option Nat := if cs = [] then none else numberFrom base 0 cs

/-! ### Operands (R73) -/

/-- A decimal number `digits` or `digits.digits`, rounded to binary32, to nearest, ties to even. -/
def decimalOf (neg : Bool) (cs : List Char) : Option Word :=
  match splitText '.' cs with
  | [whole] => (numberOf 10 whole).map (fun n => pack neg (roundMag (n * unit) 1))
  | [whole, frac] =>
    if whole = [] ∨ frac = [] then none
    else (numberOf 10 (whole ++ frac)).map (fun n => pack neg (roundMag (n * unit) (10 ^ frac.length)))
  | _ => none

/-- A binary32 operand: `nan`, `inf`, `-inf`, `0x` and eight hex digits, or a decimal number. -/
def floatOperand (cs : List Char) : Option Word :=
  match cs with
  | ['n', 'a', 'n'] => some canonNaN
  | ['i', 'n', 'f'] => some posInf
  | ['-', 'i', 'n', 'f'] => some negInf
  | '0' :: 'x' :: ds => if ds.length = 8 then (numberOf 16 ds).map (BitVec.ofNat 32) else none
  | '-' :: ds => decimalOf true ds
  | ds => decimalOf false ds

/-- `<slot>` and `<j>`: a decimal integer that the field holds. -/
def intOperand (w : Nat) (cs : List Char) : Option (BitVec w) :=
  (numberOf 10 cs).bind (fun n => if n < 2 ^ w then some (BitVec.ofNat w n) else none)

/-- A place in a list of names, or a number the field holds, decimal or `0x` and hex digits. -/
def namedOperand (w : Nat) (names : List String) (cs : List Char) : Option (BitVec w) :=
  match names.findIdx? (fun name => name.toList == cs) with
  | some i => some (BitVec.ofNat w i)
  | none => match cs with
    | '0' :: 'x' :: ds => (numberOf 16 ds).bind (fun n => if n < 2 ^ w then some (BitVec.ofNat w n) else none)
    | _ => intOperand w cs

/-- The register names, in the order of their numbers from 0x00 (R34, R73). -/
def regNames : List String :=
  ["status", "id", "sr", "dl_n", "dl_wptr", "phase", "dprev", "voices", "pool", "dl_max", "gain", "grain_freq_mult",
    "min_pitch", "max_pitch", "min_grain_freq"]

/-- The field names, in the order of their numbers from 0 (R35, R73). -/
def fieldNames : List String :=
  ["active", "offset", "speed", "freq", "window", "count", "life", "envph", "remain"]

/-! ### Lines -/

/-- Lines with no operand. -/
def line0 (mnemonic : String) : Option Instr :=
  match mnemonic with
  | "nop" => some .nop
  | "clrstat" => some .clrstat
  | "alloc" => some .alloc
  | "rdstat" => some (.rdreg 0x00)
  | "rdphase" => some (.rdreg 0x05)
  | _ => none

/-- Lines with one operand. -/
def line1 (mnemonic : String) (a : List Char) : Option Instr :=
  match mnemonic with
  | "init" => (floatOperand a).map .init
  | "rdreg" => (namedOperand 8 regNames a).map .rdreg
  | "dl.write" => (floatOperand a).map .dlWrite
  | "dl.read" => (floatOperand a).map .dlRead
  | "dl.peek" => (intOperand 32 a).map .dlPeek
  | "ph.step" => (floatOperand a).map .phStep
  | "dt.step" => (floatOperand a).map .dtStep
  | "gr.free" => (intOperand 8 a).map .grFree
  | "gr.life" => (intOperand 8 a).map (fun j => .grRd j 6)
  | "gr.active" => (intOperand 8 a).map (fun j => .grRd j 0)
  | "p2s" => (floatOperand a).map .p2s
  | "wsize" => (floatOperand a).map .wsize
  | "mix" => (floatOperand a).map .mix
  | _ => none

/-- Lines with two operands. -/
def line2 (mnemonic : String) (a b : List Char) : Option Instr :=
  match mnemonic with
  | "process.n" | "process" => (floatOperand a).bind (fun x => (floatOperand b).map (.processN x))
  | "gr.step" => (intOperand 8 a).bind (fun j => (floatOperand b).map (.grStep j))
  | "gr.rd" => (intOperand 8 a).bind (fun j => (namedOperand 4 fieldNames b).map (.grRd j))
  | "gfreq" => (floatOperand a).bind (fun h => (floatOperand b).map (.gfreq h))
  | _ => none

/-- Lines with three operands. -/
def line3 (mnemonic : String) (a b c : List Char) : Option Instr :=
  match mnemonic with
  | "process.h" | "process" =>
    (floatOperand a).bind (fun x => (floatOperand b).bind (fun p => (floatOperand c).map (.processH x p)))
  | _ => none

/-- Lines with four operands. -/
def line4 (mnemonic : String) (a b c d : List Char) : Option Instr :=
  match mnemonic with
  | "gr.set" => (intOperand 8 a).bind (fun j => (floatOperand b).bind (fun f => (floatOperand c).bind (fun ws =>
      (floatOperand d).map (.grSet j f ws))))
  | _ => none

/-- The command one line of the assembly syntax stands for (R73, R74). -/
def assemble (line : String) : Option Instr :=
  match lineParts line with
  | (m, []) => line0 (String.ofList m)
  | (m, [a]) => line1 (String.ofList m) a
  | (m, [a, b]) => line2 (String.ofList m) a b
  | (m, [a, b, c]) => line3 (String.ofList m) a b c
  | (m, [a, b, c, d]) => line4 (String.ofList m) a b c d
  | _ => none

end Sys2Proof.Machine
end

