-- ==== Sys2Proof/WellFormed.lean ====
section
/-! DEFINITION. Well-formed commands: the ranges of IDX and SEL that spec/30_encoding.md R67 checks after the
fixed fields. An ill-formed command still decodes and runs: the block rejects it with BAD_INDEX. -/

namespace Sys2Proof

/-- A grain command names a slot below POOL; RDREG a register 0x00 to 0x0E; GR_RD a field 0 to 8 (R67). -/
def Instr.wf (p : Params) : Instr → Bool
  | .nop | .init _ | .processN _ _ | .processH _ _ _ | .clrstat | .dlWrite _ | .dlRead _ | .dlPeek _ | .phStep _
  | .dtStep _ | .p2s _ | .gfreq _ _ | .wsize _ | .alloc | .mix _ => true
  | .rdreg reg => decide (reg.toNat ≤ 0x0E)
  | .grSet slot _ _ _ | .grStep slot _ | .grFree slot => decide (slot.toNat < p.pool)
  | .grRd slot field => decide (slot.toNat < p.pool) && decide (field.toNat ≤ 8)

end Sys2Proof
end

