-- ==== Sys2Proof/Safety.lean ====
section
/-! DEFINITION. What a sound state is (spec/10_state.md R39, spec/70_reset_and_hazards.md R172), what the block answers to
a command (spec/60_exceptions.md R152), and the runs and comparisons of states that the claims speak of. -/

namespace Sys2Proof.Machine

open Sys2Proof

/-! ### The invariant -/

/-- A binary32 value in [0, 1), not NaN (R39, R103). -/
def InUnit (w : Word) : Prop := fle posZero w = true ∧ flt w one = true

/-- R39's bounds of one grain: COUNT <= LIFE <= LIFE_MAX, and an active grain has COUNT < LIFE (so LIFE >= 1). -/
structure GrainOk (g : Grain) : Prop where
  count_le : g.count.toNat ≤ g.life.toNat
  life_le : g.life.toNat ≤ Config.lifeMax
  count_lt : g.active = true → g.count.toNat < g.life.toNat

/-- The states the block can be in: R39's invariant, the reset values while CFG = 0 (R40, R172), the storage in its
canonical form, and LAST_ERR held exactly while ILL is set (R32, R153; spec/90_conflicts.md C11). -/
structure Inv (s : State) : Prop where
  params : paramsOk s.params = true
  pool : s.grains.length = s.params.pool
  grains : ∀ g ∈ s.grains, GrainOk g
  phase : InUnit s.phase
  mem : Memory.wf s.params.dlMax s.buf = true
  ring : s.cfg = true →
    sampleRateOk s.sr = true ∧ s.wptr.toNat < s.n.toNat ∧ 3 ≤ s.n.toNat ∧ s.n.toNat ≤ s.params.dlMax
  unconfigured : s.cfg = false →
    s.sr = 0 ∧ s.n = 0 ∧ s.wptr = 0 ∧ s.phase = 0 ∧ s.dprev = 0 ∧ ∀ g ∈ s.grains, g = Grain.reset
  errors : s.status.ill = true ↔ s.status.lastErr ≠ .ok

/-! ### What a command is answered -/

/-- The commands that need CFG = 1 (R71). -/
def needsCfg : Instr → Bool
  | .processN _ _ | .processH _ _ _ | .dlWrite _ | .dlRead _ | .dlPeek _ | .phStep _ | .dtStep _ | .grSet _ _ _ _
  | .grStep _ _ | .mix _ => true
  | .nop | .init _ | .rdreg _ | .clrstat | .grFree _ | .grRd _ _ | .p2s _ | .gfreq _ _ | .wsize _ | .alloc => false

/-- The response code of a decoded command, from the cause table of R152 in the priority of R154. -/
def expectedRsp (i : Instr) (s : State) : Rsp :=
  if needsCfg i = true ∧ s.cfg = false then .notConfigured
  else if i.wf s.params = false then .badIndex
  else match i with
    | .init sr => if sampleRateOk sr = false then .badSampleRate
        else if fitsCapacity s.params sr = false then .capacity else .ok
    | .dlPeek k => if s.n.toNat ≤ k.toNat then .badIndex else .ok
    | .nop | .processN _ _ | .processH _ _ _ | .rdreg _ | .clrstat | .dlWrite _ | .dlRead _ | .phStep _ | .dtStep _
    | .grSet _ _ _ _ | .grStep _ _ | .grFree _ | .grRd _ _ | .p2s _ | .gfreq _ _ | .wsize _ | .alloc | .mix _ => .ok

/-- The commands of the per-sample process (R144, R145). -/
def isProcess : Instr → Bool
  | .processN _ _ | .processH _ _ _ => true
  | .nop | .init _ | .rdreg _ | .clrstat | .dlWrite _ | .dlRead _ | .dlPeek _ | .phStep _ | .dtStep _ | .grSet _ _ _ _
  | .grStep _ _ | .grFree _ | .grRd _ _ | .p2s _ | .gfreq _ _ | .wsize _ | .alloc | .mix _ => false

/-- The commands with no side effect at all (R53, R81): their only effect is the response. -/
def isPure : Instr → Bool
  | .nop | .rdreg _ | .dlPeek _ | .grFree _ | .grRd _ _ | .p2s _ | .gfreq _ _ | .wsize _ | .alloc => true
  | .init _ | .processN _ _ | .processH _ _ _ | .clrstat | .dlWrite _ | .dlRead _ | .phStep _ | .dtStep _
  | .grSet _ _ _ _ | .grStep _ _ | .mix _ => false

/-! ### What sets a warning -/

/-- A PROCESS_H with pitch p and hint h detects a trigger: the hint is valid (R142), and with sp the speed of the pitch
used and gf the grain frequency, the phase that PH_STEP would give at gf x VOICES lies below DPREV (R106, R143). -/
def detectsTrigger (s : State) (p h : Word) : Bool :=
  let sp := fsub one (exp2 s.params.prims (fdiv (pitchUsed s.params p) twelve))
  let step := fdiv (fmul (grainFreq s.params h sp) (f32 s.params.voices)) s.sr
  flt posZero h && fle h (fmul s.sr half) && flt (fsub (wrapPhase (fadd s.phase step)) s.dprev) posZero

/-- A read at this offset is clamped: it is NaN, below 0.0 or above N - 2 (R93). -/
def readClamps (s : State) (o : Word) : Bool := isNaN o || flt o posZero || flt (f32 (s.n.toNat - 2)) o

/-- A step of this grain clamps its read; a free grain reads nothing (R93, R117). -/
def grainClamps (s : State) (g : Grain) : Bool := g.active && readClamps s g.offset

/-- The offset at which a PROCESS_H with pitch p and hint h sets a grain, if it sets one (R113, R143). -/
def triggerOffset (s : State) (p h : Word) : Word :=
  let sp := fsub one (exp2 s.params.prims (fdiv (pitchUsed s.params p) twelve))
  startOffset sp (lifetime s.sr (fdiv thousand (grainFreq s.params h sp)))

/-- A PROCESS pitch that is not used as it is: NaN or outside [MIN_PITCH, MAX_PITCH] (R141). -/
def pitchOutside (s : State) (p : Word) : Bool := isNaN p || flt p s.params.minPitch || flt s.params.maxPitch p

/-- The warnings of R155 that a command causes where it runs: DROP, PCLAMP, HINVAL and RCLAMP of R32's "set by" column.
The mixer reads for every active grain, and after a trigger for the grain it set, if a slot was free. -/
def warnings (s : State) : Instr → Status
  | .processN _ p =>
    { Status.reset with pclamp := pitchOutside s p, rclamp := s.grains.any (grainClamps s) }
  | .processH _ p h =>
    { Status.reset with
      drop := detectsTrigger s p h && s.grains.all (fun g => g.active)
      pclamp := pitchOutside s p
      hinval := !(flt posZero h && fle h (fmul s.sr half))
      rclamp := s.grains.any (grainClamps s)
        || (detectsTrigger s p h && s.grains.any (fun g => !g.active) && readClamps s (triggerOffset s p h)) }
  | .dlRead o => { Status.reset with rclamp := readClamps s o }
  | .grStep slot _ => { Status.reset with rclamp := (s.grains[slot.toNat]?.map (grainClamps s)).getD false }
  | .mix _ => { Status.reset with rclamp := s.grains.any (grainClamps s) }
  | .nop | .init _ | .rdreg _ | .clrstat | .dlWrite _ | .dlPeek _ | .phStep _ | .dtStep _ | .grSet _ _ _ _ | .grFree _
  | .grRd _ _ | .p2s _ | .gfreq _ _ | .wsize _ | .alloc => Status.reset

/-! ### Runs of commands and comparisons of states -/

/-- A list of commands run one after the other (R56). -/
def execAll : List Instr → State → Result
  | [], s => .next s
  | i :: is, s =>
    match exec i s with
    | .next t => execAll is t
    | .fault r => .fault r
    | .refused r => .refused r

/-- The output of one grain in a state: R117's returned value, without the step's effects. -/
def grainOutput (s : State) (g : Grain) : Word :=
  if g.active then
    fmul (interpolate s (clampOffset s g.offset).1) (env s.params (fdiv (f32 g.count.toNat) (f32 g.life.toNat)))
  else posZero

/-- One grain after a step with live speed sp (R117). -/
def grainAfter (sp : Word) (g : Grain) : Grain := if g.active then advanced sp g else g

/-- The states that no command tells apart: equal but for the slots of BUF no command can reach, which are all of them
while CFG = 0 and those from N up while CFG = 1 (R27, R54, R172). -/
def SameReachable (s s' : State) : Prop :=
  s' = { s with buf := s'.buf } ∧ (s.cfg = true → ∀ k, k < s.n.toNat → memRead s'.buf k = memRead s.buf k)

/-- A step from `s` neither faults nor is refused: what a safe run is made of. -/
def Runs (s : State) : Prop := ∃ t, step s = .next t

end Sys2Proof.Machine
end

