-- ==== Sys2Proof/Certificates/Slice0/Obligations.lean ====
section
/-! DEFINITION. The statements about the model, for the provers. Each docstring names the rules of spec/ it rests on. -/

open Sys2Proof Sys2Proof.Machine

/-! ### Encoding -/

/-- Every command is what its four words decode to, with every operand at every value (R63 to R67). -/
def Obligations.DecodeOfEncodeIsIdentity : Prop := ∀ i : Instr, decode (encode i) = .ok i

/-- A word that decodes is the word of the command it decodes to: the command word bit for bit, each operand word the
command reads; an operand word it does not read is encoded as 0 (R63, R66, R73). -/
def Obligations.EncodeOfDecodeIsIdentity : Prop :=
  ∀ (k : Command) (i : Instr), decode k = .ok i →
    (encode i).cmd = k.cmd
    ∧ (encode i).a = (if i.readsA then k.a else 0)
    ∧ (encode i).b = (if i.readsB then k.b else 0)
    ∧ (encode i).c = (if i.readsC then k.c else 0)

/-- A command word decodes exactly when bits 31:20 are 0, bits 7:0 are one of the twenty codes of R66, bits 15:8 are 0
unless the code is RDREG's or a grain command's, and bits 19:16 are 0 unless it is GR_RD's (R66, R67, R68). -/
def Obligations.DecodesExactlyTheTable : Prop :=
  ∀ k : Command, (∃ i, decode k = .ok i) ↔
    k.cmd.toNat / 2 ^ 20 = 0
    ∧ k.cmd.toNat % 2 ^ 8 ∈ [0x00, 0x01, 0x02, 0x03, 0x04, 0x05, 0x10, 0x11, 0x12, 0x20, 0x21, 0x30, 0x31, 0x32, 0x33,
        0x40, 0x41, 0x42, 0x43, 0x44]
    ∧ (k.cmd.toNat / 2 ^ 8 % 2 ^ 8 ≠ 0 → k.cmd.toNat % 2 ^ 8 ∈ [0x04, 0x30, 0x31, 0x32, 0x33])
    ∧ (k.cmd.toNat / 2 ^ 16 % 2 ^ 4 ≠ 0 → k.cmd.toNat % 2 ^ 8 = 0x33)

/-- A word that differs only in operand words the command does not read decodes to the same command (R72). -/
def Obligations.UnreadOperandWordsHaveNoEffect : Prop :=
  ∀ (k k' : Command) (i : Instr), decode k = .ok i → k'.cmd = k.cmd →
    (i.readsA = true → k'.a = k.a) → (i.readsB = true → k'.b = k.b) → (i.readsC = true → k'.c = k.c) →
    decode k' = .ok i

/-- The command words R74, R86, R136 and R144 write out decode to the commands they name. -/
def Obligations.WrittenOutWordsDecode : Prop :=
  decode ⟨0x00050333, 0, 0, 0⟩ = .ok (.grRd 3 5)
  ∧ decode ⟨0x00000731, 0x3F000000, 0, 0⟩ = .ok (.grStep 7 0x3F000000)
  ∧ decode ⟨0x00000404, 0, 0, 0⟩ = .ok (.rdreg 4)
  ∧ decode ⟨0x00000304, 0, 0, 0⟩ = .ok (.rdreg 3)
  ∧ decode ⟨0x00000104, 0, 0, 0⟩ = .ok (.rdreg 1)
  ∧ decode ⟨0x00000001, 0x44800000, 0, 0⟩ = .ok (.init 0x44800000)
  ∧ decode ⟨0x00000003, 1, 2, 3⟩ = .ok (.processH 1 2 3)
  ∧ decode ⟨0x00000044, 0xBF800000, 7, 7⟩ = .ok (.mix 0xBF800000)

/-- A word's bytes are its bits 7:0, 15:8, 23:16 and 31:24 in that order (R50); the sixteen bytes of a command are those
of CMD, A, B and C in that order, which is the model's choice (log entry 14), and with any bytes after them they are
read back as that command and those bytes. -/
def Obligations.BytesAreLittleEndian : Prop :=
  (∀ w : Word, (bytesOfWord w).map BitVec.toNat =
      [w.toNat % 2 ^ 8, w.toNat / 2 ^ 8 % 2 ^ 8, w.toNat / 2 ^ 16 % 2 ^ 8, w.toNat / 2 ^ 24])
  ∧ ∀ k : Command, k.bytes = bytesOfWord k.cmd ++ bytesOfWord k.a ++ bytesOfWord k.b ++ bytesOfWord k.c
    ∧ ∀ rest : List Byte, commandOfBytes (k.bytes ++ rest) = some (k, rest)

/-- Each pseudo-instruction of the assembly syntax is the command it expands to, whatever its operands' text; rdstat
and rdphase are the words 0x00000004 and 0x00000504 (R73, R74). -/
def Obligations.PseudoInstructionsExpand : Prop :=
  (assemble "rdstat").map encode = some ⟨0x00000004, 0, 0, 0⟩ ∧ assemble "rdstat" = assemble "rdreg status"
  ∧ (assemble "rdphase").map encode = some ⟨0x00000504, 0, 0, 0⟩ ∧ assemble "rdphase" = assemble "rdreg phase"
  ∧ ∀ a b c : List Char,
    line2 "process" a b = line2 "process.n" a b ∧ line3 "process" a b c = line3 "process.h" a b c
    ∧ line1 "gr.life" a = line2 "gr.rd" a "life".toList ∧ line1 "gr.active" a = line2 "gr.rd" a "active".toList

/-! ### Steps -/

/-- When the host's next command decodes to i, a step is i's meaning on the state whose remaining inputs are the rest.
There is no program counter to move (R21, R56, R61). -/
def Obligations.StepRunsTheDecodedCommand : Prop :=
  ∀ (s : State) (k : Command) (rest : List HostInput) (i : Instr),
    s.inputs = .transact k :: rest → decode k = .ok i → step s = exec i { s with inputs := rest }

/-- A word that does not decode is answered with ILLEGAL and result 0 and has no effect but ILL and LAST_ERR (R68). -/
def Obligations.UndecodableWordIsIllegal : Prop :=
  ∀ (s : State) (k : Command) (rest : List HostInput),
    s.inputs = .transact k :: rest → (∀ i, decode k ≠ .ok i) →
    step s = .next { s with
      inputs := rest
      status := { s.status with ill := true, lastErr := .illegal }
      response := some ⟨.illegal, 0⟩ }

/-- `rst`, with a command in flight or without, gives the "after RST" values of R40 with some contents of BUF, no
response, and the host's further inputs still to come (R40, R171). State.reset holds the same values; that it is the
reset state of the block TC-A is the model's choice, log entry 1, and that it has no host inputs and no response is the
model's choice, log entry 2. -/
def Obligations.HardwareResetState : Prop :=
  (∃ b, State.reset = ⟨block, false, 0, 0, 0, b, 0, 0, List.replicate (2 * block.voices) ⟨false, 0, 0, 0, 0, 0, 0⟩,
      ⟨false, false, false, false, false, false, .ok⟩, [], none⟩)
  ∧ ∀ (s : State) (e : HostInput) (rest : List HostInput),
      s.inputs = e :: rest → (e = .rst ∨ ∃ k, e = .abandoned k) →
      ∃ b, step s = .next ⟨s.params, false, 0, 0, 0, b, 0, 0,
        List.replicate (2 * s.params.voices) ⟨false, 0, 0, 0, 0, 0, 0⟩,
        ⟨false, false, false, false, false, false, .ok⟩, rest, none⟩

/-- Every step from every state gives exactly one next state; it takes one input off the host's list, keeps the
configuration, and gives a response exactly when that input is a command to be answered; with no input it changes
nothing else (R52, R165, R166; that an idle step leaves no response is log entry 2). -/
def Obligations.EveryStepAnswers : Prop :=
  ∀ s : State, ∃ t, step s = .next t ∧ t.inputs = s.inputs.tail ∧ t.params = s.params
    ∧ (t.response.isSome = true ↔ ∃ k, s.inputs.head? = some (.transact k))
    ∧ (s.inputs = [] → t = { s with response := none })

/-! ### Rejections -/

/-- Every command is answered, with the code the cause table of R152 gives in the priority of R154. -/
def Obligations.ResponseCodeFollowsCauses : Prop :=
  ∀ (i : Instr) (s : State), ∃ t res, exec i s = .next t ∧ t.response = some ⟨expectedRsp i s, res⟩

/-- A rejected command has no effect but ILL, LAST_ERR and the response with result 0 (R70, R153). -/
def Obligations.RejectionIsPrecise : Prop :=
  ∀ (i : Instr) (s : State), expectedRsp i s ≠ .ok →
    exec i s = .next { s with
      status := { s.status with ill := true, lastErr := expectedRsp i s }
      response := some ⟨expectedRsp i s, 0⟩ }

/-- While CFG = 0 each of the ten commands of R71 is rejected with NOT_CONFIGURED, whatever its slot or operands: the
check comes before the check of the slot (R71, R154). -/
def Obligations.UnconfiguredCommandsAreRejected : Prop :=
  ∀ (s : State) (x p h : Word) (slot : BitVec 8), s.cfg = false →
    ∀ i ∈ [Instr.processN x p, .processH x p h, .dlWrite x, .dlRead x, .dlPeek x, .phStep x, .dtStep x,
      .grSet slot x p h, .grStep slot x, .mix x],
    exec i s = .next { s with
      status := { s.status with ill := true, lastErr := .notConfigured }
      response := some ⟨.notConfigured, 0⟩ }

/-- INIT rejects +0.0, -0.0, every NaN, every negative value and +inf with BAD_SAMPLE_RATE, before it looks at the
capacity; it rejects another rate with CAPACITY when ceil(sr x ceil(1 / MIN_GRAIN_FREQ)) is not at most DL_MAX - 2
(R82, R84). -/
def Obligations.InitRejections : Prop :=
  ∀ (s : State) (sr : Word),
    (magOf sr = 0 ∨ isNaN sr = true ∨ signOf sr = true ∨ isInf sr = true →
      exec (.init sr) s = .next { s with
        status := { s.status with ill := true, lastErr := .badSampleRate }
        response := some ⟨.badSampleRate, 0⟩ })
    ∧ (magOf sr ≠ 0 → isNaN sr = false → signOf sr = false → isInf sr = false →
      fle (fceil (fmul sr (fceil (fdiv one s.params.minGrainFreq)))) (f32 (s.params.dlMax - 2)) = false →
      exec (.init sr) s = .next { s with
        status := { s.status with ill := true, lastErr := .capacity }
        response := some ⟨.capacity, 0⟩ })

/-! ### STATUS -/

/-- The STATUS word: bit 0 CFG, 1 DROP, 2 PCLAMP, 3 HINVAL, 4 RCLAMP, 5 ILL, 6 TRIG, 11:8 the code of LAST_ERR (0 OK,
1 ILLEGAL, 2 BAD_INDEX, 3 NOT_CONFIGURED, 4 BAD_SAMPLE_RATE, 5 CAPACITY), every other bit 0 (R32, R151). -/
def Obligations.StatusWordBits : Prop :=
  ∀ s : State, (statusWord s).toNat =
    s.cfg.toNat + 2 * s.status.drop.toNat + 4 * s.status.pclamp.toNat + 8 * s.status.hinval.toNat
    + 16 * s.status.rclamp.toNat + 32 * s.status.ill.toNat + 64 * s.status.trig.toNat
    + 256 * (match s.status.lastErr with
      | .ok => 0 | .illegal => 1 | .badIndex => 2 | .notConfigured => 3 | .badSampleRate => 4 | .capacity => 5)

/-- No command but the readback of STATUS itself tells apart two states that differ in STATUS' stored fields only: the
response and everything but STATUS come out the same (R33). -/
def Obligations.FlagsNeverChangeResults : Prop :=
  ∀ (i : Instr) (s : State) (st : Status), i ≠ .rdreg 0 →
    ∃ t st', exec i s = .next t ∧ exec i { s with status := st } = .next { t with status := st' }

/-- TRIG is left alone by every command but PROCESS_N, PROCESS_H and INIT, and by each of those where it is rejected; an
INIT that succeeds and a PROCESS_N that runs clear it, and a PROCESS_H that runs sets it to whether it detected a trigger
(R32, R147). -/
def Obligations.TrigIsWrittenByProcessAndInit : Prop :=
  (∀ (i : Instr) (s t : State), exec i s = .next t →
    (isProcess i = false ∧ ∀ sr, i ≠ .init sr) ∨ expectedRsp i s ≠ .ok → t.status.trig = s.status.trig)
  ∧ (∀ (s : State) (sr : Word), expectedRsp (.init sr) s = .ok →
    ∃ t, exec (.init sr) s = .next t ∧ t.status.trig = false)
  ∧ ∀ (s : State) (x p h : Word), s.cfg = true →
    (∃ t, exec (.processN x p) s = .next t ∧ t.status.trig = false)
    ∧ ∃ t, exec (.processH x p h) s = .next t ∧ t.status.trig = detectsTrigger s p h

/-- The table of R32 for the sticky bits. CLRSTAT and an INIT that succeeds clear all five. Every other command keeps a
set bit; it sets ILL exactly where it is rejected and DROP, PCLAMP, HINVAL and RCLAMP exactly where it runs and has the
cause of `warnings`: DROP a trigger with every grain active, PCLAMP a PROCESS pitch that is NaN or outside the range,
HINVAL a hint that is not valid, RCLAMP a delay-line read at a NaN offset, below 0.0 or above N - 2 (R32, R155; `rst` is
HardwareResetState's). -/
def Obligations.StickyBitsHaveTheirCauses : Prop :=
  ∀ (i : Instr) (s t : State), Inv s → exec i s = .next t →
    (i = .clrstat ∨ (∃ sr, i = .init sr ∧ expectedRsp i s = .ok) →
      t.status.drop = false ∧ t.status.pclamp = false ∧ t.status.hinval = false ∧ t.status.rclamp = false
      ∧ t.status.ill = false)
    ∧ (i ≠ .clrstat → (∀ sr, i = .init sr → expectedRsp i s ≠ .ok) →
      t.status.ill = (s.status.ill || decide (expectedRsp i s ≠ .ok))
      ∧ t.status.drop = (s.status.drop || (decide (expectedRsp i s = .ok) && (warnings s i).drop))
      ∧ t.status.pclamp = (s.status.pclamp || (decide (expectedRsp i s = .ok) && (warnings s i).pclamp))
      ∧ t.status.hinval = (s.status.hinval || (decide (expectedRsp i s = .ok) && (warnings s i).hinval))
      ∧ t.status.rclamp = (s.status.rclamp || (decide (expectedRsp i s = .ok) && (warnings s i).rclamp)))

/-! ### Construction and control -/

/-- NOP changes nothing and answers 0 (R81). CLRSTAT clears DROP, PCLAMP, HINVAL, RCLAMP, ILL and LAST_ERR, keeps TRIG
and CFG and everything else, and answers 0; a STATUS word 0x00000363 becomes 0x00000041 (R87). -/
def Obligations.NopAndClrstat : Prop :=
  (∀ s : State, exec .nop s = .next { s with response := some ⟨.ok, 0⟩ })
  ∧ (∀ s : State, exec .clrstat s =
    .next { s with status := ⟨false, false, false, false, false, s.status.trig, .ok⟩, response := some ⟨.ok, 0⟩ })
  ∧ ∀ s : State, statusWord s = 0x00000363 → ∃ t, exec .clrstat s = .next t ∧ statusWord t = 0x00000041

/-- RDREG answers each register of R34 by its number and changes nothing; a number above 0x0E is rejected with
BAD_INDEX (R34, R86). -/
def Obligations.RdregReadsTheRegisterMap : Prop :=
  ∀ s : State,
    (∀ e ∈ [((0x00 : BitVec 8), statusWord s), (0x01, 0x47534531), (0x02, s.sr), (0x03, s.n), (0x04, s.wptr),
        (0x05, s.phase), (0x06, s.dprev), (0x07, BitVec.ofNat 32 s.params.voices),
        (0x08, BitVec.ofNat 32 (2 * s.params.voices)), (0x09, BitVec.ofNat 32 s.params.dlMax),
        (0x0A, fdiv two (f32 s.params.voices)), (0x0B, s.params.grainFreqMult), (0x0C, s.params.minPitch),
        (0x0D, s.params.maxPitch), (0x0E, s.params.minGrainFreq)],
      exec (.rdreg e.1) s = .next { s with response := some ⟨.ok, e.2⟩ })
    ∧ ∀ reg : BitVec 8, 0x0E < reg.toNat →
      exec (.rdreg reg) s = .next { s with
        status := { s.status with ill := true, lastErr := .badIndex }
        response := some ⟨.badIndex, 0⟩ }

/-- INIT with an accepted rate: with N = ceil(sr x ceil(1 / MIN_GRAIN_FREQ)) + 2 in binary32, it answers N and leaves
CFG = 1, SR the rate, N, WPTR 0, slots 0 to N-1 of BUF 0, PHASE and DPREV +0.0, every grain free with its other fields
zero, STATUS clear (R82, R83, R85); that the unreachable slots from N up keep their words is the model's choice, log
entry 5. -/
def Obligations.InitConstructsTheBlock : Prop :=
  ∀ (s : State) (sr : Word), flt posZero sr = true → isInf sr = false →
    fle (fceil (fmul sr (fceil (fdiv one s.params.minGrainFreq)))) (f32 (s.params.dlMax - 2)) = true →
    ∃ (n : Nat) (b : Memory),
      (n : Int) = max 0 (floorInt (fceil (fmul sr (fceil (fdiv one s.params.minGrainFreq))))) + 2
      ∧ exec (.init sr) s = .next ⟨s.params, true, sr, BitVec.ofNat 32 n, 0, b, 0, 0,
          List.replicate (2 * s.params.voices) ⟨false, 0, 0, 0, 0, 0, 0⟩,
          ⟨false, false, false, false, false, false, .ok⟩, s.inputs, some ⟨.ok, BitVec.ofNat 32 n⟩⟩
      ∧ (∀ k, k < n → memRead b k = 0) ∧ ∀ k, n ≤ k → memRead b k = memRead s.buf k

/-- For every block within the constraints of 00_scope.md section 4 and every rate INIT accepts, 3 <= N <= DL_MAX
(R27, R83, R84). -/
def Obligations.DelayLineLengthIsInBounds : Prop :=
  ∀ (p : Params) (sr : Word), paramsOk p = true → sampleRateOk sr = true → fitsCapacity p sr = true →
    3 ≤ lineLength p sr ∧ lineLength p sr ≤ p.dlMax

/-- No command but INIT changes CFG, SR or N; no command at all clears CFG, changes the parameters or the host's
inputs (R24, R25, R27, R175). -/
def Obligations.OnlyInitConfigures : Prop :=
  ∀ (i : Instr) (s t : State), exec i s = .next t →
    t.params = s.params ∧ t.inputs = s.inputs ∧ (s.cfg = true → t.cfg = true)
    ∧ ((∀ sr, i ≠ .init sr) → t.cfg = s.cfg ∧ t.sr = s.sr ∧ t.n = s.n)

/-! ### Delay line -/

/-- DL_WRITE stores the sample's bits in the slot of WPTR and no other slot, moves WPTR one slot on modulo N, answers 0
and changes nothing else (R26, R46, R91, R92). -/
def Obligations.DlWriteAppendsOneSample : Prop :=
  ∀ (s : State) (x : Word), Inv s → s.cfg = true →
    ∃ (b : Memory) (w : BitVec 32),
      exec (.dlWrite x) s = .next { s with buf := b, wptr := w, response := some ⟨.ok, 0⟩ }
      ∧ (∀ k, memRead b k = if k = s.wptr.toNat then x else memRead s.buf k)
      ∧ w.toNat = if s.wptr.toNat + 1 = s.n.toNat then 0 else s.wptr.toNat + 1

/-- After a DL_WRITE the sample at offset 0 is the one written, and every sample that is not the overwritten oldest lies
one offset deeper (R48, R91). -/
def Obligations.WriteMovesHistoryOneDeeper : Prop :=
  ∀ (s t : State) (x : Word), Inv s → s.cfg = true → exec (.dlWrite x) s = .next t →
    pastSample t 0 = x ∧ ∀ k, k + 1 < s.n.toNat → pastSample t (k + 1) = pastSample s k

/-- DL_READ at an offset o in [0, N-2]: with i = floor(o), a the word in slot (WPTR - 1 - i) mod N and b the word in
slot (WPTR - 2 - i) mod N, it answers a + ((b - a) x (o - i)) in binary32 and changes nothing (R48, R94, R95). -/
def Obligations.DlReadInterpolates : Prop :=
  ∀ (s : State) (o : Word), s.cfg = true → fle posZero o = true → fle o (f32 (s.n.toNat - 2)) = true →
    ∀ a b : Word,
      a = memRead s.buf (((s.wptr.toNat : Int) - 1 - floorInt o) % s.n.toNat).toNat →
      b = memRead s.buf (((s.wptr.toNat : Int) - 2 - floorInt o) % s.n.toNat).toNat →
      exec (.dlRead o) s =
        .next { s with response := some ⟨.ok, fadd a (fmul (fsub b a) (fsub o (ffloor o)))⟩ }

/-- DL_READ at a NaN or an offset below 0.0 reads offset +0.0, at one above N - 2 reads offset N - 2, and sets RCLAMP;
nothing else changes (R93, R95). -/
def Obligations.DlReadClampsAndRecords : Prop :=
  ∀ (s : State) (o : Word), s.cfg = true →
    (isNaN o = true ∨ flt o posZero = true →
      exec (.dlRead o) s = .next { s with
        status := { s.status with rclamp := true }
        response := some ⟨.ok, interpolate s posZero⟩ })
    ∧ (flt o posZero = false → flt (f32 (s.n.toNat - 2)) o = true →
      exec (.dlRead o) s = .next { s with
        status := { s.status with rclamp := true }
        response := some ⟨.ok, interpolate s (f32 (s.n.toNat - 2))⟩ })

/-- DL_READ at an integral offset k answers the sample s(k) itself where s(k) is finite and not a zero and the binary32
difference to its older neighbour is finite (R95; where that difference overflows R94 gives NaN, so the premise is not
only that the neighbours are finite). -/
def Obligations.IntegralOffsetReadsTheSample : Prop :=
  ∀ (s : State) (k : Nat), Inv s → s.cfg = true → k + 2 ≤ s.n.toNat →
    isFinite (pastSample s k) = true → magOf (pastSample s k) ≠ 0 →
    isFinite (fsub (pastSample s (k + 1)) (pastSample s k)) = true →
    exec (.dlRead (f32 k)) s = .next { s with response := some ⟨.ok, pastSample s k⟩ }

/-- DL_PEEK answers the raw word of a slot below N and changes nothing; from N up it is rejected with BAD_INDEX (R96). -/
def Obligations.DlPeekReadsTheRawSlot : Prop :=
  ∀ (s : State) (k : Word), s.cfg = true →
    (k.toNat < s.n.toNat →
      exec (.dlPeek k) s = .next { s with response := some ⟨.ok, memRead s.buf k.toNat⟩ })
    ∧ (s.n.toNat ≤ k.toNat →
      exec (.dlPeek k) s = .next { s with
        status := { s.status with ill := true, lastErr := .badIndex }
        response := some ⟨.badIndex, 0⟩ })

/-- For every offset word, the clamped offset's integer part lies in 0 to N - 2 and both slots read lie in the ring; an
offset in [0, N-2] is not clamped (R97). -/
def Obligations.ReadsStayInTheRing : Prop :=
  ∀ (s : State) (o : Word), Inv s → s.cfg = true →
    (0 ≤ floorInt (clampOffset s o).1 ∧ floorInt (clampOffset s o).1 ≤ (s.n.toNat : Int) - 2)
    ∧ pastSlot s (floorInt (clampOffset s o).1).toNat < s.n.toNat
    ∧ pastSlot s ((floorInt (clampOffset s o).1).toNat + 1) < s.n.toNat
    ∧ (fle posZero o = true → fle o (f32 (s.n.toNat - 2)) = true → clampOffset s o = (o, false))

/-! ### Phase accumulator and edge detector -/

/-- PH_STEP: with x = PHASE + f / SR, it stores in PHASE and answers +0.0 for a non-finite x, x itself in [0, 1), else
x - floor(x), or +0.0 where that is not below 1.0; nothing else changes (R101, R102). -/
def Obligations.PhStepAdvancesThePhase : Prop :=
  ∀ (s : State) (f x r : Word), s.cfg = true → x = fadd s.phase (fdiv f s.sr) →
    r = (if isFinite x = false then posZero
      else if fle posZero x = true ∧ flt x one = true then x
      else if fle one (fsub x (ffloor x)) = true then posZero else fsub x (ffloor x)) →
    exec (.phStep f) s = .next { s with phase := r, response := some ⟨.ok, r⟩ }

/-- From any phase and for any frequency, PH_STEP leaves PHASE in [0, 1) and not NaN, and not -0.0 unless it was -0.0
before (R103). -/
def Obligations.PhaseStaysInUnitInterval : Prop :=
  ∀ (s t : State) (f : Word), s.cfg = true → exec (.phStep f) s = .next t →
    InUnit t.phase ∧ (s.phase ≠ negZero → t.phase ≠ negZero)

/-- Where x = PHASE + f / SR lies in [1, 2), PH_STEP subtracts one, exactly (R101). -/
def Obligations.WrapSubtractsOne : Prop :=
  ∀ (s : State) (f x : Word), s.cfg = true → x = fadd s.phase (fdiv f s.sr) → fle one x = true → flt x two = true →
    exec (.phStep f) s = .next { s with phase := fsub x one, response := some ⟨.ok, fsub x one⟩ }
    ∧ fix (fsub x one) = fix x - fix one

/-- DT_STEP answers the operand minus DPREV and keeps the operand's bits as DPREV; nothing else changes (R104, R105). -/
def Obligations.DtStepDifferences : Prop :=
  ∀ (s : State) (v : Word), s.cfg = true →
    exec (.dtStep v) s = .next { s with dprev := v, response := some ⟨.ok, fsub v s.dprev⟩ }

/-- From a state whose DPREV is its PHASE, in [0, 1), and for an increment f / SR in (0, 1 - 2^-23], PH_STEP followed by
DT_STEP of the new phase gives a negative delta exactly when the phase wrapped, that is when PHASE + f / SR reached 1
(R101, R104, R106). -/
def Obligations.NegativeDeltaExactlyOnWrap : Prop :=
  ∀ (s : State) (f : Word), s.cfg = true → InUnit s.phase → s.dprev = s.phase →
    flt posZero (fdiv f s.sr) = true → fle (fdiv f s.sr) 0x3F7FFFFE#32 = true →
    ∃ t u d, exec (.phStep f) s = .next t ∧ exec (.dtStep t.phase) t = .next u ∧ u.response = some ⟨.ok, d⟩
      ∧ (flt d posZero = true ↔ fle one (fadd s.phase (fdiv f s.sr)) = true)

/-! ### Grain voice -/

/-- GR_SET arms a slot below POOL, free or active: FREQ, WINDOW and SPEED latched, LIFE the lifetime L of the window,
COUNT 0, OFFSET (-sp) x f32(L - 1) for a speed below 0.0 and else +0.0, ACTIVE 1; it answers L and changes nothing else
(R113, R114, R115). -/
def Obligations.GrSetArmsTheSlot : Prop :=
  ∀ (s : State) (slot : BitVec 8) (f ws sp : Word), s.cfg = true → slot.toNat < s.params.pool →
    exec (.grSet slot f ws sp) s = .next { s with
      grains := s.grains.set slot.toNat
        { active := true
          offset := if flt sp posZero then fmul (fneg sp) (f32 (lifetime s.sr ws - 1)) else posZero
          speed := sp
          freq := f
          window := ws
          count := 0
          life := BitVec.ofNat 32 (lifetime s.sr ws) }
      response := some ⟨.ok, BitVec.ofNat 32 (lifetime s.sr ws)⟩ }

/-- The lifetime of a window: with lf = (ws x SR) / 1000 in binary32, 1 for a NaN and for lf below 1.0, 2^24 from 2^24
up, else an integer no further than half from lf, the even one of two equally near; always in 1 to 2^24 (R14, R112;
that a window of -inf gives 1 is R115's "negative"). -/
def Obligations.LifetimeOfAWindow : Prop :=
  ∀ sr ws lf : Word, lf = fdiv (fmul ws sr) thousand →
    (isNaN lf = true ∨ flt lf one = true → lifetime sr ws = 1)
    ∧ (fle (f32 (2 ^ 24)) lf = true → lifetime sr ws = 2 ^ 24)
    ∧ (fle one lf = true → flt lf (f32 (2 ^ 24)) = true →
        2 * |(lifetime sr ws : Int) * unit - fix lf| ≤ unit
        ∧ (2 * |(lifetime sr ws : Int) * unit - fix lf| = unit → lifetime sr ws % 2 = 0))
    ∧ 1 ≤ lifetime sr ws ∧ lifetime sr ws ≤ 2 ^ 24

/-- GR_STEP of an active slot answers the sample at OFFSET times ENV(COUNT / LIFE), advances OFFSET by the live speed
and COUNT by one, frees the slot when COUNT reaches LIFE, notes a clamped read in RCLAMP and changes nothing else; of a
free slot it answers +0.0 and changes nothing (R111, R117, R118). -/
def Obligations.GrStepPlaysOneSample : Prop :=
  ∀ (s : State) (slot : BitVec 8) (sp : Word) (g : Grain), s.cfg = true → slot.toNat < s.params.pool →
    s.grains[slot.toNat]? = some g →
    (g.active = true →
      exec (.grStep slot sp) s = .next { s with
        grains := s.grains.set slot.toNat { g with
          offset := fadd g.offset sp
          count := g.count + 1
          active := decide ((g.count + 1).toNat < g.life.toNat) }
        status := { s.status with rclamp := s.status.rclamp || (clampOffset s g.offset).2 }
        response := some ⟨.ok, fmul (interpolate s (clampOffset s g.offset).1)
          (env s.params (fdiv (f32 g.count.toNat) (f32 g.life.toNat)))⟩ })
    ∧ (g.active = false → exec (.grStep slot sp) s = .next { s with response := some ⟨.ok, posZero⟩ })

/-- GR_FREE of a slot below POOL answers 1 for a free grain and 0 for an active one, GR_RD each field of R35 by its
number (ENVPH is COUNT / LIFE in binary32, +0.0 while LIFE = 0; REMAIN is LIFE - COUNT); neither changes anything
(R31, R35, R119, R120). -/
def Obligations.GrainReadback : Prop :=
  ∀ (s : State) (slot : BitVec 8) (g : Grain), slot.toNat < s.params.pool → s.grains[slot.toNat]? = some g →
    exec (.grFree slot) s = .next { s with response := some ⟨.ok, if g.active then 0 else 1⟩ }
    ∧ ∀ e ∈ [((0 : BitVec 4), if g.active then (1 : Word) else 0), (1, g.offset), (2, g.speed), (3, g.freq),
        (4, g.window), (5, g.count), (6, g.life),
        (7, if g.life.toNat = 0 then posZero else fdiv (f32 g.count.toNat) (f32 g.life.toNat)), (8, g.life - g.count)],
      exec (.grRd slot e.1) s = .next { s with response := some ⟨.ok, e.2⟩ }

/-- A block with the default envelope has 0.5 x (1 - COSPI(2 x phi)), each step one binary32 operation, which is 0.5 at
phases 1/4 and 3/4 and 1.0 at 1/2 whatever its COSPI. The envelope of every block is +0.0 at phase 0 and lies in [0, 1]
on [0, 1); the envelope phase of an active grain lies in [0, 1) (R12, R116). -/
def Obligations.EnvelopeStaysInUnitRange : Prop :=
  (∀ p : Params, p.env = .hann →
    (∀ phi : Word, env p phi = fmul half (fsub one (cospi p.prims (fmul two phi))))
    ∧ env p 0x3E800000 = 0x3F000000 ∧ env p 0x3F400000 = 0x3F000000 ∧ env p 0x3F000000 = 0x3F800000)
  ∧ (∀ p : Params, env p posZero = posZero
    ∧ ∀ phi : Word, InUnit phi → fle posZero (env p phi) = true ∧ fle (env p phi) one = true)
  ∧ ∀ g : Grain, GrainOk g → g.active = true → InUnit (fdiv (f32 g.count.toNat) (f32 g.life.toNat))

/-- A slot set with lifetime L and then stepped, at any live speeds, has COUNT the number of steps while that is at most
L, and is active until the L-th step and free after it (R111, R114, R117). -/
def Obligations.GrainPlaysExactlyItsLifetime : Prop :=
  ∀ (s : State) (slot : BitVec 8) (f ws sp : Word) (speeds : List Word), Inv s → s.cfg = true →
    slot.toNat < s.params.pool → speeds.length ≤ lifetime s.sr ws →
    ∃ t g, execAll (.grSet slot f ws sp :: speeds.map (fun v => .grStep slot v)) s = .next t
      ∧ t.grains[slot.toNat]? = some g ∧ g.count.toNat = speeds.length ∧ g.life.toNat = lifetime s.sr ws
      ∧ g.active = decide (speeds.length < lifetime s.sr ws)

/-! ### Mapping, allocator, mixer -/

/-- P2S answers 1 - EXP2(p / 12), GFREQ (h x |sp|) / k with k = floor(h / GRAIN_FREQ_MULT) where that is at least 1.0 and
else 1.0, WSIZE 1000 / gf, each step one binary32 operation; they change nothing and need no configuration
(R126 to R131). -/
def Obligations.MappingFormulas : Prop :=
  ∀ (s : State) (p h sp gf k : Word),
    k = (if fle one (ffloor (fdiv h s.params.grainFreqMult)) = true then ffloor (fdiv h s.params.grainFreqMult)
      else one) →
    exec (.p2s p) s = .next { s with response := some ⟨.ok, fsub one (exp2 s.params.prims (fdiv p twelve))⟩ }
    ∧ exec (.gfreq h sp) s = .next { s with response := some ⟨.ok, fdiv (fmul h (fabs sp)) k⟩ }
    ∧ exec (.wsize gf) s = .next { s with response := some ⟨.ok, fdiv thousand gf⟩ }

/-- For every block, whatever its EXP2: P2S of a pitch p is 1 - 2^n where p is 12 n, or the binary32 quotient p / 12 is
n, for an integer n from -126 to 127 (2^n is the word with exponent field n + 127 and fraction 0); -inf from 1536 up,
+inf among them; 1.0 at -inf; the canonical NaN at every NaN. So it is +0.0 at 0.0 and -0.0, -1.0 at 12, 0.5 at -12, -3.0
at 24, 0.75 at -24 (R17, R126, R127). -/
def Obligations.SpeedAtTheExactPitches : Prop :=
  ∀ s : State,
    (∀ (p : Word) (n : Int), -126 ≤ n → n ≤ 127 →
      (isFinite p = true ∧ fix p = 12 * n * unit)
        ∨ (isFinite (fdiv p twelve) = true ∧ fix (fdiv p twelve) = n * unit) →
      exec (.p2s p) s = .next { s with
        response := some ⟨.ok, fsub one (BitVec.ofNat 32 ((n + 127).toNat * 2 ^ 23))⟩ })
    ∧ (∀ p : Word, fle 0x44C00000 p = true → exec (.p2s p) s = .next { s with response := some ⟨.ok, negInf⟩ })
    ∧ (∀ p : Word, isNaN p = true → exec (.p2s p) s = .next { s with response := some ⟨.ok, canonNaN⟩ })
    ∧ ∀ e ∈ [((0x00000000 : Word), (0x00000000 : Word)), (0x80000000, 0x00000000), (0x41400000, 0xBF800000),
      (0xC1400000, 0x3F000000), (0x41C00000, 0xC0400000), (0xC1C00000, 0x3F400000), (0x7FC00000, 0x7FC00000),
      (0x7F800000, 0xFF800000), (0x44C00000, 0xFF800000), (0xFF800000, 0x3F800000)],
    exec (.p2s e.1) s = .next { s with response := some ⟨.ok, e.2⟩ }

/-- EXP2 of every block is exactly 2^n at every integer n from -126 to 127, +inf from 128 up, +0.0 at -inf, at least
+0.0 on every non-NaN, and the canonical NaN on NaN (R17). -/
def Obligations.Exp2MeetsItsRule : Prop :=
  ∀ (k : PrimKind) (q : Word),
    (∀ n : Int, -126 ≤ n → n ≤ 127 → isFinite q = true → fix q = n * unit →
      isFinite (exp2 k q) = true ∧ fix (exp2 k q) = 2 ^ (n + 149).toNat)
    ∧ (fle f128 q = true → exp2 k q = posInf)
    ∧ exp2 k negInf = posZero
    ∧ (isNaN q = false → fle posZero (exp2 k q) = true)
    ∧ (isNaN q = true → exp2 k q = canonNaN)

/-- COSPI of every block is +1.0, +0.0, -1.0, +0.0 where t mod 2 is 0, 1/2, 1, 3/2, lies in [-1, 1] on every finite t,
and is the canonical NaN on NaN and the infinities (R18). -/
def Obligations.CospiMeetsItsRule : Prop :=
  ∀ (k : PrimKind) (t : Word),
    (isFinite t = true →
      (fix t % (2 ^ 150) = 0 → cospi k t = 0x3F800000)
      ∧ (fix t % (2 ^ 150) = 2 ^ 148 → cospi k t = 0x00000000)
      ∧ (fix t % (2 ^ 150) = 2 ^ 149 → cospi k t = 0xBF800000)
      ∧ (fix t % (2 ^ 150) = 3 * 2 ^ 148 → cospi k t = 0x00000000)
      ∧ fle 0xBF800000 (cospi k t) = true ∧ fle (cospi k t) 0x3F800000 = true)
    ∧ (isFinite t = false → cospi k t = 0x7FC00000)

/-- A speed of +0.0 or -0.0 gives the grain frequency +0.0 for every finite hint of positive sign (R129; C2: so PROCESS_H
never triggers at pitch 0), and the divisor of the grain frequency is at least 1.0 for every hint (R128). -/
def Obligations.ZeroSpeedHasNoGrainFrequency : Prop :=
  ∀ (s : State) (h sp : Word),
    fle one (freqDivisor s.params h) = true
    ∧ (isFinite h = true → signOf h = false → magOf sp = 0 →
      exec (.gfreq h sp) s = .next { s with response := some ⟨.ok, posZero⟩ })

/-- ALLOC answers the lowest free slot number below POOL, or 0xFFFFFFFF when every slot is active, and changes nothing
(R132, R133). -/
def Obligations.AllocFindsTheLowestFreeSlot : Prop :=
  ∀ s : State, Inv s → ∃ r : Word,
    exec .alloc s = .next { s with response := some ⟨.ok, r⟩ }
    ∧ ((∀ g ∈ s.grains, g.active = true) → r = 0xFFFFFFFF)
    ∧ ∀ (j : Nat) (g : Grain), s.grains[j]? = some g → g.active = false →
        (∀ (l : Nat) (g' : Grain), l < j → s.grains[l]? = some g' → g'.active = true) → r.toNat = j

/-- MIX steps every slot of the pool once with the live speed and answers the sum of their outputs, taken in slot order
from +0.0 with one rounding each, times rn(2 / VOICES); a free slot gives +0.0 and stays as it is; RCLAMP is set if any
read was clamped; nothing else changes (R134, R135, R136). -/
def Obligations.MixStepsEveryGrainOnce : Prop :=
  ∀ (s : State) (sp : Word), Inv s → s.cfg = true →
    exec (.mix sp) s = .next { s with
      grains := s.grains.map (grainAfter sp)
      status := { s.status with rclamp := s.status.rclamp || s.grains.any (grainClamps s) }
      response := some ⟨.ok, fmul ((s.grains.map (grainOutput s)).foldl fadd posZero)
        (fdiv two (f32 s.params.voices))⟩ }

/-- With every grain free MIX answers +0.0 and changes nothing (R136). -/
def Obligations.MixOfASilentPool : Prop :=
  ∀ (s : State) (sp : Word), Inv s → s.cfg = true → (∀ g ∈ s.grains, g.active = false) →
    exec (.mix sp) s = .next { s with response := some ⟨.ok, posZero⟩ }

/-! ### The per-sample process -/

/-- The pitch the engine uses is the operand itself, with no PCLAMP, where that lies in [MIN_PITCH, MAX_PITCH],
MIN_PITCH for one below the range, MAX_PITCH for one above it, and for a NaN what it is for +0.0, each with PCLAMP; so it
lies in the range for every pitch word (R9, R141). -/
def Obligations.PitchUsedIsInRange : Prop :=
  ∀ (p : Params) (w : Word), paramsOk p = true →
    fle p.minPitch (pitchUsed p w) = true ∧ fle (pitchUsed p w) p.maxPitch = true
    ∧ (fle p.minPitch w = true → fle w p.maxPitch = true → pitchUsed p w = w ∧ pitchClamped p w = false)
    ∧ (flt w p.minPitch = true → pitchUsed p w = p.minPitch ∧ pitchClamped p w = true)
    ∧ (flt p.maxPitch w = true → pitchUsed p w = p.maxPitch ∧ pitchClamped p w = true)
    ∧ (isNaN w = true → pitchUsed p w = pitchUsed p posZero ∧ pitchClamped p w = true)

/-- PROCESS_N does what MIX does at the speed of the pitch used, answers the same, clears TRIG, notes a clamped pitch in
PCLAMP, and then writes the input to the delay line; PHASE, DPREV and all else are MIX's (R143, R145). -/
def Obligations.ProcessWithoutHint : Prop :=
  ∀ (s : State) (x p : Word), Inv s → s.cfg = true →
    ∃ u b w, exec (.mix (fsub one (exp2 s.params.prims (fdiv (pitchUsed s.params p) twelve)))) s = .next u
      ∧ exec (.processN x p) s = .next { u with
          buf := b
          wptr := w
          status := { u.status with trig := false, pclamp := s.status.pclamp || pitchClamped s.params p } }
      ∧ u.phase = s.phase ∧ u.dprev = s.dprev
      ∧ (∀ k, memRead b k = if k = s.wptr.toNat then x else memRead s.buf k)
      ∧ w.toNat = if s.wptr.toNat + 1 = s.n.toNat then 0 else s.wptr.toNat + 1

/-- PROCESS_H with a hint that is not above 0.0 or not at most SR x 0.5 does what PROCESS_N does and sets HINVAL
(R142). -/
def Obligations.ProcessWithInvalidHint : Prop :=
  ∀ (s : State) (x p h : Word), s.cfg = true →
    (flt posZero h = false ∨ fle h (fmul s.sr half) = false) →
    ∃ t, exec (.processN x p) s = .next t
      ∧ exec (.processH x p h) s = .next { t with status := { t.status with hinval := true } }

/-- PROCESS_H with a valid hint: with sp the speed of the pitch used, gf the grain frequency, ph the phase PH_STEP would
give at gf x VOICES and d = ph - DPREV, the phase and DPREV become ph; if d is below 0.0 TRIG is set and the lowest free
slot is set with frequency gf, window 1000 / gf and speed sp, or DROP is set where none is free, else TRIG is cleared
and no slot is set; then every slot is stepped and the sum answered as MIX does, and last the input is written
(R143, R144, R147). -/
def Obligations.ProcessWithValidHint : Prop :=
  ∀ (s : State) (x p h sp gf ph : Word) (trig : Bool), Inv s → s.cfg = true →
    flt posZero h = true → fle h (fmul s.sr half) = true →
    sp = fsub one (exp2 s.params.prims (fdiv (pitchUsed s.params p) twelve)) →
    gf = grainFreq s.params h sp →
    ph = wrapPhase (fadd s.phase (fdiv (fmul gf (f32 s.params.voices)) s.sr)) →
    trig = flt (fsub ph s.dprev) posZero →
    ∃ m u b w,
      m = { s with
        phase := ph
        dprev := ph
        grains := (match (trig, s.grains.findIdx? (fun g => !g.active)) with
          | (true, some j) => s.grains.set j (triggered s.sr gf (fdiv thousand gf) sp)
          | _ => s.grains)
        status := { s.status with
          pclamp := s.status.pclamp || pitchClamped s.params p
          trig := trig
          drop := s.status.drop || (trig && s.grains.all (fun g => g.active)) } }
      ∧ exec (.mix sp) m = .next u
      ∧ exec (.processH x p h) s = .next { u with buf := b, wptr := w }
      ∧ (∀ k, memRead b k = if k = s.wptr.toNat then x else memRead s.buf k)
      ∧ w.toNat = if s.wptr.toNat + 1 = s.n.toNat then 0 else s.wptr.toNat + 1

/-- No grain reads the sample its own command writes: two PROCESS commands that differ in the input sample only answer
the same and leave the same state but for the one slot of WPTR (R57, R177). -/
def Obligations.WriteComesLast : Prop :=
  ∀ (s : State) (x x' p h : Word), Inv s → s.cfg = true →
    (∃ t b, exec (.processN x p) s = .next t ∧ exec (.processN x' p) s = .next { t with buf := b }
      ∧ ∀ k, k ≠ s.wptr.toNat → memRead b k = memRead t.buf k)
    ∧ ∃ t b, exec (.processH x p h) s = .next t ∧ exec (.processH x' p h) s = .next { t with buf := b }
      ∧ ∀ k, k ≠ s.wptr.toNat → memRead b k = memRead t.buf k

/-- Over any run of PROCESS_N commands and PROCESS_H commands with invalid hints PHASE and DPREV stay, no grain becomes
active, a grain is active at the end exactly if the run is shorter than its remaining lifetime, and if every grain is
free from the start the last command answers +0.0 (R142, R145, R148, R181). -/
def Obligations.DecayWithoutHints : Prop :=
  ∀ (s : State) (run : List Instr), Inv s → s.cfg = true →
    (∀ i ∈ run, (∃ x p, i = .processN x p)
      ∨ ∃ x p h, i = .processH x p h ∧ (flt posZero h = false ∨ fle h (fmul s.sr half) = false)) →
    ∃ t, execAll run s = .next t ∧ t.phase = s.phase ∧ t.dprev = s.dprev
      ∧ (∀ (j : Nat) (g : Grain), s.grains[j]? = some g → ∃ g', t.grains[j]? = some g'
        ∧ (g.active = false → g' = g)
        ∧ (g.active = true → g'.active = decide (run.length < g.life.toNat - g.count.toNat)))
      ∧ ((∀ g ∈ s.grains, g.active = false) → run ≠ [] → t.response = some ⟨.ok, posZero⟩)

/-! ### The whole machine -/

/-- The reset state of every block within the constraints of 00_scope.md section 4 meets the invariant (R39, R40). -/
def Obligations.ResetMeetsTheInvariant : Prop :=
  (∀ p : Params, paramsOk p = true → Inv (State.resetWith p)) ∧ Inv State.reset

/-- Every step keeps the invariant (R39, R172): the ring's bounds, the phase in [0, 1), the grains' counters, the pool's
size, the reset values while unconfigured, the storage's canonical form, and LAST_ERR held exactly with ILL. -/
def Obligations.StepKeepsTheInvariant : Prop :=
  ∀ s t : State, Inv s → step s = .next t → Inv t

/-- No command tells apart two states that differ only in slots of BUF no command can reach: the next states answer the
same and differ in such slots only. So the contents of BUF after RST, which R172 leaves open, are never observed
(R27, R54, R172). -/
def Obligations.UnreachableSlotsAreUnobservable : Prop :=
  ∀ s s' t : State, Inv s → Inv s' → SameReachable s s' → step s = .next t →
    ∃ t', step s' = .next t' ∧ SameReachable t t'

/-- RDREG, GR_RD, GR_FREE, ALLOC, DL_PEEK, P2S, GFREQ, WSIZE and NOP that are not rejected change nothing but the
response, and answer the same when given again (R53). -/
def Obligations.ReadbackHasNoSideEffect : Prop :=
  ∀ (i : Instr) (s t : State), isPure i = true → expectedRsp i s = .ok → exec i s = .next t →
    t = { s with response := t.response } ∧ exec i t = .next t
end

