-- ==== Sys2Proof/Laws/Binary32.lean ====
section
/-! SUPPORT. What the binary32 operations do: fields of packed words, the order of magnitudes, and rounding (exact on
what binary32 holds, monotone, within half a unit). -/

namespace Sys2Proof.Machine

open Sys2Proof

/-! ### Fields -/

theorem magOf_lt (w : Word) : magOf w < 2 ^ 31 := Nat.mod_lt _ (by decide)

theorem signOf_eq (w : Word) : signOf w = decide (2 ^ 31 ≤ w.toNat) := by
  simp [signOf, BitVec.msb_eq_decide]

theorem magOf_pack {neg : Bool} {m : Nat} (h : m < 2 ^ 31) : magOf (pack neg m) = m := by
  cases neg <;> simp [magOf, pack, BitVec.toNat_ofNat] <;> omega

theorem signOf_pack {neg : Bool} {m : Nat} (h : m < 2 ^ 31) : signOf (pack neg m) = neg := by
  cases neg <;> simp [signOf_eq, pack, BitVec.toNat_ofNat] <;> omega

theorem pack_fields (w : Word) : pack (signOf w) (magOf w) = w := by
  apply BitVec.eq_of_toNat_eq
  have := w.isLt
  by_cases h : 2 ^ 31 ≤ w.toNat
  · simp only [pack, signOf_eq, magOf, decide_eq_true h, if_true, BitVec.toNat_ofNat]; omega
  · simp only [pack, signOf_eq, magOf, decide_eq_false h, Bool.false_eq_true, if_false, BitVec.toNat_ofNat]; omega

theorem word_ext {a b : Word} (hs : signOf a = signOf b) (hm : magOf a = magOf b) : a = b := by
  rw [← pack_fields a, ← pack_fields b, hs, hm]

theorem isFinite_iff {w : Word} : isFinite w = true ↔ magOf w < infMag := by simp [isFinite]
theorem isNaN_iff {w : Word} : isNaN w = true ↔ infMag < magOf w := by simp [isNaN]
theorem isInf_iff {w : Word} : isInf w = true ↔ magOf w = infMag := by simp [isInf]

theorem isFinite_of_not {w : Word} (h1 : isNaN w = false) (h2 : isInf w = false) : isFinite w = true := by
  simp only [isNaN, isInf, isFinite, decide_eq_false_iff_not, decide_eq_true_eq] at *; omega

theorem not_nan_of_finite {w : Word} (h : isFinite w = true) : isNaN w = false := by
  simp only [isNaN, isFinite, decide_eq_false_iff_not, decide_eq_true_eq] at *; omega

theorem not_inf_of_finite {w : Word} (h : isFinite w = true) : isInf w = false := by
  simp only [isInf, isFinite, decide_eq_false_iff_not, decide_eq_true_eq] at *; omega

theorem signOf_fneg (w : Word) : signOf (fneg w) = !signOf w := by
  have h : (0x80000000#32).msb = true := by decide
  simp [signOf, fneg, h]

theorem magOf_eq_and (w : Word) : magOf w = (w &&& 0x7FFFFFFF#32).toNat := by
  have h : (0x7FFFFFFF#32).toNat = 2 ^ 31 - 1 := by decide
  rw [BitVec.toNat_and, h, Nat.and_two_pow_sub_one_eq_mod, magOf]

theorem magOf_fneg (w : Word) : magOf (fneg w) = magOf w := by
  rw [magOf_eq_and, magOf_eq_and]; congr 1; unfold fneg
  ext i hi
  simp only [BitVec.getElem_and, BitVec.getElem_xor]
  interval_cases i <;> simp

theorem magOf_fabs (w : Word) : magOf (fabs w) = magOf w := by
  rw [magOf_eq_and, magOf_eq_and]; congr 1; unfold fabs
  rw [BitVec.and_assoc, BitVec.and_self]

theorem signOf_fabs (w : Word) : signOf (fabs w) = false := by
  have h : (0x7FFFFFFF#32).msb = false := by decide
  simp [signOf, fabs, h]

theorem fix_fneg (w : Word) : fix (fneg w) = -fix w := by
  unfold fix; rw [signOf_fneg, magOf_fneg]; cases signOf w <;> simp

theorem natAbs_fix (w : Word) : (fix w).natAbs = unitsOfMag (magOf w) := by
  unfold fix; split <;> simp

/-! ### Magnitudes are ordered as their encodings -/

theorem unitsOfMag_lt_succ (m : Nat) : unitsOfMag m < unitsOfMag (m + 1) := by
  unfold unitsOfMag
  by_cases h : m + 1 < 2 ^ 23
  · rw [if_pos h, if_pos (by omega)]; omega
  · rw [if_neg h]
    by_cases h' : m < 2 ^ 23
    · rw [if_pos h']
      have : m + 1 = 2 ^ 23 := by omega
      rw [this, show (2 ^ 23 + 2 ^ 23 % 2 ^ 23) * 2 ^ (2 ^ 23 / 2 ^ 23 - 1) = 2 ^ 23 by decide]; exact h'
    · rw [if_neg h']
      by_cases hc : (m + 1) % 2 ^ 23 = 0
      · have hd : (m + 1) / 2 ^ 23 = m / 2 ^ 23 + 1 := by omega
        have hm : m % 2 ^ 23 = 2 ^ 23 - 1 := by omega
        rw [hc, hd, hm]
        obtain ⟨e, he⟩ : ∃ e, m / 2 ^ 23 = e + 1 := ⟨m / 2 ^ 23 - 1, by omega⟩
        rw [he, show e + 1 + 1 - 1 = (e + 1 - 1) + 1 by omega, pow_succ]
        have : 0 < 2 ^ (e + 1 - 1) := Nat.two_pow_pos _
        omega
      · have hd : (m + 1) / 2 ^ 23 = m / 2 ^ 23 := by omega
        have hm : (m + 1) % 2 ^ 23 = m % 2 ^ 23 + 1 := by omega
        rw [hd, hm]
        exact Nat.mul_lt_mul_of_pos_right (by omega) (Nat.two_pow_pos _)

theorem unitsOfMag_strictMono : StrictMono unitsOfMag := strictMono_nat_of_lt_succ unitsOfMag_lt_succ

theorem unitsOfMag_lt_iff {a b : Nat} : unitsOfMag a < unitsOfMag b ↔ a < b := unitsOfMag_strictMono.lt_iff_lt
theorem unitsOfMag_le_iff {a b : Nat} : unitsOfMag a ≤ unitsOfMag b ↔ a ≤ b := unitsOfMag_strictMono.le_iff_le
theorem unitsOfMag_inj {a b : Nat} : unitsOfMag a = unitsOfMag b ↔ a = b := unitsOfMag_strictMono.injective.eq_iff
@[simp] theorem unitsOfMag_zero : unitsOfMag 0 = 0 := rfl

theorem unitsOfMag_one : unitsOfMag (magOf one) = unit := by decide

theorem ordKey_le_iff_fix {a b : Word} : ordKey a ≤ ordKey b ↔ fix a ≤ fix b := by
  have h := @unitsOfMag_le_iff
  have h0 : ∀ m, unitsOfMag m ≤ 0 ↔ m ≤ 0 := fun m => by simpa using h (a := m) (b := 0)
  unfold ordKey fix
  have ha := h (a := magOf a) (b := magOf b)
  have hb := h (a := magOf b) (b := magOf a)
  have h1 := h0 (magOf a)
  have h2 := h0 (magOf b)
  split <;> split <;> omega

theorem ordKey_lt_iff_fix {a b : Word} : ordKey a < ordKey b ↔ fix a < fix b := by
  have := @ordKey_le_iff_fix b a
  omega

theorem flt_iff {a b : Word} (ha : isNaN a = false) (hb : isNaN b = false) : flt a b = true ↔ fix a < fix b := by
  simp [flt, ha, hb, ordKey_lt_iff_fix]

theorem fle_iff {a b : Word} (ha : isNaN a = false) (hb : isNaN b = false) : fle a b = true ↔ fix a ≤ fix b := by
  simp [fle, ha, hb, ordKey_le_iff_fix]

theorem fle_not_nan {a b : Word} (h : fle a b = true) : isNaN a = false ∧ isNaN b = false := by
  simp [fle] at h; exact ⟨h.1.1, h.1.2⟩

theorem flt_not_nan {a b : Word} (h : flt a b = true) : isNaN a = false ∧ isNaN b = false := by
  simp [flt] at h; exact ⟨h.1.1, h.1.2⟩

/-! ### Rounding to an integer -/

theorem halfEven_mul_left {c num den : Nat} (hc : 0 < c) : halfEven (c * num) (c * den) = halfEven num den := by
  unfold halfEven
  have hq : c * num / (c * den) = num / den := Nat.mul_div_mul_left _ _ hc
  have hr : c * num % (c * den) = c * (num % den) := Nat.mul_mod_mul_left _ _ _
  rw [hq, hr]
  have e : 2 * (c * (num % den)) = c * (2 * (num % den)) := by ring
  rw [e]
  simp only [Nat.mul_lt_mul_left hc]

theorem halfEven_exact {k den : Nat} (h : 0 < den) : halfEven (k * den) den = k := by
  unfold halfEven
  rw [Nat.mul_mod_left, Nat.mul_div_cancel _ h, if_pos (by simpa using h)]

theorem halfEven_le {num den : Nat} (h : 0 < den) : 2 * den * halfEven num den ≤ 2 * num + den := by
  have e := Nat.div_add_mod num den
  have := Nat.mod_lt num h
  unfold halfEven
  generalize num / den = q at *
  generalize num % den = r at *
  have e2 : 2 * den * (q + 1) = 2 * (den * q) + 2 * den := by ring
  have e1 : 2 * den * q = 2 * (den * q) := by ring
  split
  · rw [e1]; omega
  · split
    · rw [e2]; omega
    · split
      · rw [e1]; omega
      · rw [e2]; omega

theorem le_halfEven {num den : Nat} (h : 0 < den) : 2 * num ≤ 2 * den * halfEven num den + den := by
  have e := Nat.div_add_mod num den
  have := Nat.mod_lt num h
  unfold halfEven
  generalize num / den = q at *
  generalize num % den = r at *
  have e2 : 2 * den * (q + 1) = 2 * (den * q) + 2 * den := by ring
  have e1 : 2 * den * q = 2 * (den * q) := by ring
  split
  · rw [e1]; omega
  · split
    · rw [e2]; omega
    · split
      · rw [e1]; omega
      · rw [e2]; omega

theorem halfEven_ge_div (num den : Nat) : num / den ≤ halfEven num den := by unfold halfEven; split_ifs <;> omega

theorem halfEven_le_div_succ (num den : Nat) : halfEven num den ≤ num / den + 1 := by
  unfold halfEven; split_ifs <;> omega

/-- Rounding over one denominator is monotone. -/
theorem halfEven_mono_num {a b den : Nat} (hab : a ≤ b) : halfEven a den ≤ halfEven b den := by
  rcases Nat.lt_or_ge (a / den) (b / den) with hq | hq
  · exact (halfEven_le_div_succ a den).trans (hq.trans_le (halfEven_ge_div b den))
  · have hq' : a / den = b / den := le_antisymm (Nat.div_le_div_right hab) hq
    have ea := Nat.div_add_mod a den
    have eb := Nat.div_add_mod b den
    rw [hq'] at ea
    have hr : a % den ≤ b % den := by omega
    unfold halfEven
    rw [hq']
    split_ifs <;> omega

/-- Rounding is monotone in the rational `num / den`. -/
theorem halfEven_mono {a b c d : Nat} (hb : 0 < b) (hd : 0 < d) (h : a * d ≤ c * b) : halfEven a b ≤ halfEven c d := by
  rw [← halfEven_mul_left (c := d) hd, ← halfEven_mul_left (c := b) (num := c) hb, Nat.mul_comm b d]
  exact halfEven_mono_num (by rw [Nat.mul_comm d a, Nat.mul_comm b c]; exact h)

/-! ### Rounding to binary32 -/

theorem roundMag_le_infMag (num den : Nat) : roundMag num den ≤ infMag := by unfold roundMag; exact Nat.min_le_right _ _

theorem roundMag_lt (num den : Nat) : roundMag num den < 2 ^ 31 :=
  (roundMag_le_infMag num den).trans_lt (by decide)

theorem roundMag_mul_left {c num den : Nat} (hc : 0 < c) : roundMag (c * num) (c * den) = roundMag num den := by
  unfold roundMag
  rw [Nat.mul_div_mul_left _ _ hc]
  simp only [Nat.mul_assoc, halfEven_mul_left hc]

theorem roundMag_mul_den {a den : Nat} (h : 0 < den) : roundMag (a * den) den = roundMag a 1 := by
  have := roundMag_mul_left (num := a) (den := 1) h
  rwa [Nat.mul_one, Nat.mul_comm] at this

/-- The exponent shift of a rounding. -/
def shiftOf (num den : Nat) : Nat := Nat.log2 (num / den) - 23

theorem roundMag_eq (num den : Nat) :
    roundMag num den = min (halfEven num (den * 2 ^ shiftOf num den) + shiftOf num den * 2 ^ 23) infMag := rfl

theorem lt_of_shiftOf (num den : Nat) : num / den < 2 ^ (shiftOf num den + 24) := by
  unfold shiftOf
  have h := Nat.lt_log2_self (n := num / den)
  exact h.trans_le (Nat.pow_le_pow_right (by decide) (by omega))

theorem le_of_shiftOf {num den : Nat} (h : 0 < shiftOf num den) : 2 ^ (shiftOf num den + 23) ≤ num / den := by
  unfold shiftOf at *
  have hne : num / den ≠ 0 := by rintro h0; simp [h0] at h
  have := Nat.log2_self_le hne
  rwa [show (num / den).log2 - 23 + 23 = (num / den).log2 by omega]

/-- The significand of a rounding is at most 2^24. -/
theorem significand_le {num den : Nat} : halfEven num (den * 2 ^ shiftOf num den) ≤ 2 ^ 24 := by
  have hp : 0 < 2 ^ shiftOf num den := Nat.two_pow_pos _
  have hlt := lt_of_shiftOf num den
  have : num / (den * 2 ^ shiftOf num den) < 2 ^ 24 := by
    rw [← Nat.div_div_eq_div_mul, Nat.div_lt_iff_lt_mul hp, ← pow_add, Nat.add_comm 24]; exact hlt
  exact (halfEven_le_div_succ _ _).trans this

/-- The significand of a rounding with a positive shift is at least 2^23. -/
theorem le_significand {num den : Nat} (hs : 0 < shiftOf num den) :
    2 ^ 23 ≤ halfEven num (den * 2 ^ shiftOf num den) := by
  have hp : 0 < 2 ^ shiftOf num den := Nat.two_pow_pos _
  refine le_trans ?_ (halfEven_ge_div _ _)
  rw [← Nat.div_div_eq_div_mul, Nat.le_div_iff_mul_le hp, ← pow_add, Nat.add_comm 23]
  exact le_of_shiftOf hs

/-- Rounding to binary32 is monotone in the rational `num / den`. -/
theorem roundMag_mono {a b c d : Nat} (hb : 0 < b) (hd : 0 < d) (h : a * d ≤ c * b) : roundMag a b ≤ roundMag c d := by
  have hq : a / b ≤ c / d := by
    rw [Nat.le_div_iff_mul_le hd]
    refine Nat.le_of_mul_le_mul_right ?_ hb
    calc a / b * d * b = a / b * b * d := by ring
      _ ≤ a * d := Nat.mul_le_mul_right _ (Nat.div_mul_le_self a b)
      _ ≤ c * b := h
  have hk : shiftOf a b ≤ shiftOf c d := by
    unfold shiftOf
    exact Nat.sub_le_sub_right (by rw [Nat.log2_eq_log_two, Nat.log2_eq_log_two]; exact Nat.log_mono_right hq) _
  rw [roundMag_eq, roundMag_eq]
  refine min_le_min_right _ ?_
  rcases Nat.eq_or_lt_of_le hk with hk | hk
  · rw [hk]
    refine Nat.add_le_add_right (halfEven_mono (Nat.mul_pos hb (Nat.two_pow_pos _)) (Nat.mul_pos hd (Nat.two_pow_pos _)) ?_) _
    calc a * (d * 2 ^ shiftOf c d) = a * d * 2 ^ shiftOf c d := by ring
      _ ≤ c * b * 2 ^ shiftOf c d := Nat.mul_le_mul_right _ h
      _ = c * (b * 2 ^ shiftOf c d) := by ring
  · have h1 := significand_le (num := a) (den := b)
    have h2 := le_significand (num := c) (den := d) (by omega)
    have : shiftOf a b * 2 ^ 23 + 2 ^ 23 ≤ shiftOf c d * 2 ^ 23 := by
      rw [← Nat.succ_mul]; exact Nat.mul_le_mul_right _ hk
    omega

/-- The value of a significand M of 24 bits at shift k. -/
theorem unitsOfMag_shift {M k : Nat} (h1 : 2 ^ 23 ≤ M) (h2 : M < 2 ^ 24) : unitsOfMag (M + k * 2 ^ 23) = M * 2 ^ k := by
  have hge : ¬ M + k * 2 ^ 23 < 2 ^ 23 := by omega
  have hd : (M + k * 2 ^ 23) / 2 ^ 23 = k + 1 := by omega
  have hm : (M + k * 2 ^ 23) % 2 ^ 23 = M - 2 ^ 23 := by omega
  have e1 : 2 ^ 23 + (M - 2 ^ 23) = M := by omega
  have e2 : k + 1 - 1 = k := by omega
  unfold unitsOfMag
  rw [if_neg hge, hd, hm, e1, e2]

theorem min_infMag_of {M k : Nat} (h2 : M < 2 ^ 24) (hk : k ≤ 253) :
    min (M + k * 2 ^ 23) infMag = M + k * 2 ^ 23 := Nat.min_eq_left (by unfold infMag; omega)

/-- A value with a 24-bit significand rounds to itself. -/
theorem unitsOfMag_roundMag {n e : Nat} (hn : n < 2 ^ 24) (he : e ≤ 253) :
    unitsOfMag (roundMag (n * 2 ^ e) 1) = n * 2 ^ e := by
  generalize hv : n * 2 ^ e = v at *
  have hs := lt_of_shiftOf v 1
  rw [roundMag_eq]
  rw [Nat.div_one] at hs
  generalize hk : shiftOf v 1 = k at *
  rw [Nat.one_mul]
  rcases Nat.eq_zero_or_pos k with h0 | hpos
  · subst h0
    have : halfEven v (2 ^ 0) = v := by simpa using halfEven_exact (k := v) (den := 1) (by decide)
    rw [this, Nat.zero_mul, Nat.add_zero]
    have hv24 : v < 2 ^ 24 := by simpa using hs
    rw [Nat.min_eq_left (by unfold infMag; omega)]
    unfold unitsOfMag
    split
    · rfl
    · have hd : v / 2 ^ 23 = 1 := by omega
      rw [hd]; omega
  · have hl := le_of_shiftOf (num := v) (den := 1) (by omega)
    rw [hk, Nat.div_one] at hl
    have hke : k ≤ e := by
      by_contra hlt
      have : n * 2 ^ e < 2 ^ 24 * 2 ^ e := Nat.mul_lt_mul_of_pos_right hn (Nat.two_pow_pos _)
      rw [hv, ← pow_add] at this
      have h3 : 2 ^ (24 + e) ≤ 2 ^ (k + 23) := Nat.pow_le_pow_right (by decide) (by omega)
      omega
    obtain ⟨M, hM⟩ : ∃ M, v = M * 2 ^ k := ⟨n * 2 ^ (e - k), by rw [← hv, Nat.mul_assoc, ← pow_add]; congr 2; omega⟩
    have hp := Nat.two_pow_pos k
    have hM1 : 2 ^ 23 ≤ M := by
      rw [hM, Nat.add_comm, pow_add] at hl; exact Nat.le_of_mul_le_mul_right hl hp
    have hM2 : M < 2 ^ 24 := by
      rw [hM, Nat.add_comm, pow_add] at hs; exact Nat.lt_of_mul_lt_mul_right hs
    rw [hM, halfEven_exact hp, min_infMag_of hM2 (hke.trans he), unitsOfMag_shift hM1 hM2]

theorem unitsOfMag_form {m : Nat} (h : m < infMag) :
    ∃ n e, n < 2 ^ 24 ∧ e ≤ 253 ∧ unitsOfMag m = n * 2 ^ e := by
  unfold infMag at h
  unfold unitsOfMag
  split
  · exact ⟨m, 0, by omega, by omega, by simp⟩
  · exact ⟨2 ^ 23 + m % 2 ^ 23, m / 2 ^ 23 - 1, by omega, by omega, rfl⟩

/-- A finite magnitude rounds to itself. -/
theorem roundMag_unitsOfMag {m : Nat} (h : m < infMag) : roundMag (unitsOfMag m) 1 = m := by
  obtain ⟨n, e, hn, he, hv⟩ := unitsOfMag_form h
  apply unitsOfMag_inj.1
  rw [hv, unitsOfMag_roundMag hn he]

/-- A value of at least one unit does not round to zero. -/
theorem roundMag_pos {a : Nat} (h : 0 < a) : 0 < roundMag a 1 := by
  have h1 : roundMag (unitsOfMag 1) 1 = 1 := roundMag_unitsOfMag (by decide)
  have h2 := roundMag_mono (a := unitsOfMag 1) (b := 1) (c := a) (d := 1) (by decide) (by decide)
    (by have : unitsOfMag 1 = 1 := by decide
        omega)
  omega

theorem roundMag_zero {den : Nat} : roundMag 0 den = 0 := by
  simp [roundMag, halfEven, infMag]

/-- A value at most a finite magnitude's rounds to at most that magnitude. -/
theorem roundMag_le_of_le {a m : Nat} (hm : m < infMag) (h : a ≤ unitsOfMag m) : roundMag a 1 ≤ m := by
  have := roundMag_mono (a := a) (b := 1) (c := unitsOfMag m) (d := 1) (by decide) (by decide) (by omega)
  rwa [roundMag_unitsOfMag hm] at this

/-- A value at least a finite magnitude's rounds to at least that magnitude. -/
theorem le_roundMag_of_le {a m : Nat} (hm : m < infMag) (h : unitsOfMag m ≤ a) : m ≤ roundMag a 1 := by
  have := roundMag_mono (a := unitsOfMag m) (b := 1) (c := a) (d := 1) (by decide) (by decide) (by omega)
  rwa [roundMag_unitsOfMag hm] at this

/-! ### Rounded sums -/

theorem roundInt_not_nan (z : Bool) (v : Int) : isNaN (roundInt z v) = false := by
  unfold roundInt
  split
  · rw [isNaN, magOf_pack (by decide)]; rfl
  · rw [isNaN, magOf_pack (roundMag_lt _ _)]; have := roundMag_le_infMag v.natAbs 1; simpa using this

theorem signOf_roundInt (z : Bool) (v : Int) : signOf (roundInt z v) = if v = 0 then z else decide (v < 0) := by
  unfold roundInt
  split
  · rw [signOf_pack (by decide)]
  · rw [signOf_pack (roundMag_lt _ _)]

theorem magOf_roundInt (z : Bool) (v : Int) : magOf (roundInt z v) = roundMag v.natAbs 1 := by
  unfold roundInt
  split
  · next h => rw [magOf_pack (by decide), h]; exact roundMag_zero.symm
  · rw [magOf_pack (roundMag_lt _ _)]

/-- A sum binary32 holds is exact. -/
theorem fix_roundInt_exact {z : Bool} {v : Int} {n e : Nat} (hn : n < 2 ^ 24) (he : e ≤ 253)
    (hv : v.natAbs = n * 2 ^ e) : fix (roundInt z v) = v := by
  unfold fix
  rw [signOf_roundInt, magOf_roundInt, hv, unitsOfMag_roundMag hn he, ← hv]
  clear hv
  by_cases h0 : v = 0
  · subst h0; simp
  · rw [if_neg h0]; by_cases hneg : v < 0 <;> simp only [hneg, decide_true, decide_false, if_true, Bool.false_eq_true, if_false] <;> omega

theorem fadd_finite {a b : Word} (ha : isFinite a = true) (hb : isFinite b = true) :
    fadd a b = roundInt (signOf a && signOf b) (fix a + fix b) := by
  unfold fadd
  simp [not_nan_of_finite ha, not_nan_of_finite hb, not_inf_of_finite ha, not_inf_of_finite hb]

theorem isFinite_fneg (w : Word) : isFinite (fneg w) = isFinite w := by simp [isFinite, magOf_fneg]

theorem fsub_finite {a b : Word} (ha : isFinite a = true) (hb : isFinite b = true) :
    fsub a b = roundInt (signOf a && !signOf b) (fix a - fix b) := by
  unfold fsub
  rw [fadd_finite ha (by rw [isFinite_fneg]; exact hb), signOf_fneg, fix_fneg, Int.sub_eq_add_neg]

/-! ### Integers -/

theorem fix_f32Signed {neg : Bool} {n : Nat} (h : n ≤ 2 ^ 24) :
    fix (f32Signed neg n) = if neg then -((n * unit : Nat) : Int) else ((n * unit : Nat) : Int) := by
  have hu : unitsOfMag (roundMag (n * unit) 1) = n * unit := by
    rcases Nat.lt_or_ge n (2 ^ 24) with hl | hg
    · exact unitsOfMag_roundMag hl (by decide)
    · have : n = 2 ^ 24 := by omega
      subst this
      have e : 2 ^ 24 * unit = 1 * 2 ^ 173 := by decide
      rw [e]; exact unitsOfMag_roundMag (by decide) (by decide)
  unfold fix f32Signed
  rw [signOf_pack (roundMag_lt _ _), magOf_pack (roundMag_lt _ _), hu]

theorem fix_f32 {n : Nat} (h : n ≤ 2 ^ 24) : fix (f32 n) = ((n * unit : Nat) : Int) := by
  rw [f32, fix_f32Signed h, if_neg Bool.false_ne_true]

theorem f32Signed_not_nan (neg : Bool) (n : Nat) : isNaN (f32Signed neg n) = false := by
  unfold f32Signed isNaN
  rw [magOf_pack (roundMag_lt _ _)]
  simpa using roundMag_le_infMag (n * unit) 1

theorem f32Signed_finite {neg : Bool} {n : Nat} (h : n ≤ 2 ^ 24) : isFinite (f32Signed neg n) = true := by
  have hu : unitsOfMag 0x4B800000 = 2 ^ 24 * unit := by decide
  have := roundMag_le_of_le (a := n * unit) (m := 0x4B800000) (by decide)
    (by rw [hu]; exact Nat.mul_le_mul_right _ h)
  unfold isFinite f32Signed
  rw [magOf_pack (roundMag_lt _ _)]
  unfold infMag; simp; omega

theorem signOf_f32Signed (neg : Bool) (n : Nat) : signOf (f32Signed neg n) = neg := signOf_pack (roundMag_lt _ _)

theorem unit_pos : 0 < unit := Nat.two_pow_pos _

/-- From exponent field 150 up every value is an integer; below, a magnitude is under 2^23. -/
theorem unit_dvd_or_lt (m : Nat) : unit ∣ unitsOfMag m ∨ unitsOfMag m < 2 ^ 23 * unit := by
  rcases Nat.lt_or_ge m (150 * 2 ^ 23) with h | h
  · right
    have hu : unitsOfMag (150 * 2 ^ 23) = 2 ^ 23 * unit := by decide
    rw [← hu]; exact unitsOfMag_lt_iff.2 h
  · left
    unfold unitsOfMag
    rw [if_neg (by omega)]
    obtain ⟨e, he⟩ : ∃ e, m / 2 ^ 23 - 1 = 149 + e := ⟨m / 2 ^ 23 - 150, by omega⟩
    rw [he, pow_add]
    exact Dvd.intro_left ((2 ^ 23 + m % 2 ^ 23) * 2 ^ e) (by unfold unit; ring)

theorem floorInt_le (w : Word) : floorInt w * unit ≤ fix w :=
  Int.ediv_mul_le _ (by have := unit_pos; omega)

theorem lt_floorInt (w : Word) : fix w < (floorInt w + 1) * unit :=
  Int.lt_ediv_add_one_mul_self _ (by have := unit_pos; omega)

theorem fix_neg_iff {w : Word} (h : signOf w = true) : fix w ≤ 0 := by unfold fix; rw [if_pos h]; omega
theorem fix_nonneg {w : Word} (h : signOf w = false) : 0 ≤ fix w := by unfold fix; rw [h]; simp

theorem floorInt_nonneg {w : Word} (h : signOf w = false) : 0 ≤ floorInt w :=
  Int.ediv_nonneg (fix_nonneg h) (by omega)

theorem floorInt_nonpos {w : Word} (h : signOf w = true) : floorInt w ≤ 0 := by
  have h1 := fix_neg_iff h
  have h2 := floorInt_le w
  by_contra hc
  have hu := unit_pos
  have : 0 < floorInt w * unit := Int.mul_pos (by omega) (by omega)
  omega

/-- Floor is exact: a finite integral word of the operand's sign. -/
theorem ffloor_spec {w : Word} (h : isFinite w = true) :
    isFinite (ffloor w) = true ∧ signOf (ffloor w) = signOf w ∧ fix (ffloor w) = floorInt w * unit := by
  have hd : ffloor w = f32Signed (signOf w) (floorInt w).natAbs := by
    unfold ffloor; simp [not_nan_of_finite h, not_inf_of_finite h]
  have hu := unit_pos
  rcases unit_dvd_or_lt (magOf w) with ⟨c, hc⟩ | hlt
  · have hfl : (floorInt w).natAbs = c := by
      unfold floorInt fix
      rw [hc]
      split
      · rw [show -(((unit * c : Nat)) : Int) = -(c : Int) * unit by push_cast; ring,
          Int.mul_ediv_cancel _ (by omega)]; simp
      · rw [show (((unit * c : Nat)) : Int) = (c : Int) * unit by push_cast; ring,
          Int.mul_ediv_cancel _ (by omega)]; simp
    have he : ffloor w = w := by
      rw [hd, hfl, f32Signed, show c * unit = unitsOfMag (magOf w) by rw [hc, Nat.mul_comm],
        roundMag_unitsOfMag (isFinite_iff.1 h), pack_fields]
    refine ⟨by rw [he]; exact h, by rw [he], ?_⟩
    rw [he]
    unfold floorInt
    rw [Int.ediv_mul_cancel]
    unfold fix
    split
    · exact (Int.dvd_neg).2 (Int.natCast_dvd_natCast.2 ⟨c, hc⟩)
    · exact Int.natCast_dvd_natCast.2 ⟨c, hc⟩
  · have hn : (floorInt w).natAbs ≤ 2 ^ 24 := by
      have h1 := floorInt_le w
      have h2 := lt_floorInt w
      have h3 : (fix w).natAbs < 2 ^ 23 * unit := by rw [natAbs_fix]; exact hlt
      have h4 : fix w < 2 ^ 23 * unit := by omega
      have h5 : -(2 ^ 23 * unit : Int) < fix w := by omega
      have h6 : floorInt w < 2 ^ 23 := by
        by_contra hcon
        have : (2 ^ 23 : Int) * unit ≤ floorInt w * unit := Int.mul_le_mul_of_nonneg_right (by omega) (by omega)
        omega
      have h7 : -(2 ^ 23 : Int) ≤ floorInt w := by
        by_contra hcon
        have : (floorInt w + 1) * unit ≤ -(2 ^ 23 : Int) * unit := Int.mul_le_mul_of_nonneg_right (by omega) (by omega)
        rw [Int.neg_mul] at this
        omega
      omega
    rw [hd]
    refine ⟨f32Signed_finite hn, signOf_f32Signed _ _, ?_⟩
    rw [fix_f32Signed hn]
    cases hs : signOf w
    · have := floorInt_nonneg hs
      rw [if_neg Bool.false_ne_true, Nat.cast_mul, Int.natAbs_of_nonneg this]
    · have := floorInt_nonpos hs
      rw [if_pos rfl, Nat.cast_mul, Int.ofNat_natAbs_of_nonpos this, Int.neg_mul, Int.neg_neg]

theorem intOf_ffloor {w : Word} (h : isFinite w = true) : intOf (ffloor w) = floorInt w := by
  unfold intOf
  rw [show floorInt (ffloor w) = fix (ffloor w) / unit from rfl, (ffloor_spec h).2.2,
    Int.mul_ediv_cancel _ (by have := unit_pos; omega)]

/-- A difference of finite words in order is not negative, nor NaN. -/
theorem fsub_nonneg {a b : Word} (ha : isFinite a = true) (hb : isFinite b = true) (h : fix b ≤ fix a)
    (hz : (signOf a && !signOf b) = false) : isNaN (fsub a b) = false ∧ signOf (fsub a b) = false := by
  rw [fsub_finite ha hb]
  refine ⟨roundInt_not_nan _ _, ?_⟩
  rw [signOf_roundInt, hz]
  split
  · rfl
  · simp; omega

theorem fle_zero_of_sign {w : Word} (h1 : isNaN w = false) (h2 : signOf w = false) : fle posZero w = true := by
  have hz : ordKey posZero = 0 := by decide
  have hn : isNaN posZero = false := by decide
  have hk : ordKey w = magOf w := by simp [ordKey, h2]
  simp [fle, hz, hn, h1, hk]

theorem flt_of_not_fle {a b : Word} (ha : isNaN a = false) (hb : isNaN b = false) (h : fle a b = false) :
    flt b a = true := by
  simp [fle, flt, ha, hb] at *; exact h

theorem fle_of_not_flt {a b : Word} (ha : isNaN a = false) (hb : isNaN b = false) (h : flt a b = false) :
    fle b a = true := by
  simp [fle, flt, ha, hb] at *; exact h

end Sys2Proof.Machine
end

