-- ==== Sys2Proof/Laws/Memory.lean ====
section
/-! SUPPORT. The delay-line storage: reads after writes and after clearing, and every operation keeps the canonical
form, in which equal contents are equal lists. -/

namespace Sys2Proof.Machine

open Sys2Proof

@[simp] theorem memRead_nil (k : Nat) : memRead [] k = 0 := rfl

theorem memOkFrom_cons {hi lo a : Nat} {w : Word} {m : Memory} :
    memOkFrom hi lo ((a, w) :: m) = true ↔ lo ≤ a ∧ a < hi ∧ w ≠ 0 ∧ memOkFrom hi (a + 1) m = true := by
  simp [memOkFrom, and_assoc]

theorem memOkFrom_mono {hi lo lo' : Nat} {m : Memory} (h : lo' ≤ lo) (ok : memOkFrom hi lo m = true) :
    memOkFrom hi lo' m = true := by
  cases m with
  | nil => rfl
  | cons p m =>
    obtain ⟨a, w⟩ := p
    rw [memOkFrom_cons] at *
    exact ⟨h.trans ok.1, ok.2⟩

/-- A slot below the first listed one holds what an unlisted slot holds. -/
theorem memRead_below {hi lo k : Nat} {m : Memory} (ok : memOkFrom hi lo m = true) (h : k < lo) : memRead m k = 0 := by
  induction m generalizing lo with
  | nil => rfl
  | cons p m ih =>
    obtain ⟨a, w⟩ := p
    rw [memOkFrom_cons] at ok
    rw [memRead, if_neg (by omega)]
    exact ih ok.2.2.2 (by omega)

theorem memRead_memCons {hi k j : Nat} {v : Word} {m : Memory} (ok : memOkFrom hi (k + 1) m = true) :
    memRead (memCons k v m) j = if j = k then v else memRead m j := by
  unfold memCons
  split
  · next hv =>
    split
    · next hj => rw [hj, hv]; exact memRead_below ok (by omega)
    · rfl
  · rfl

theorem memOkFrom_memCons {hi lo k : Nat} {v : Word} {m : Memory} (h1 : lo ≤ k) (h2 : k < hi)
    (ok : memOkFrom hi (k + 1) m = true) : memOkFrom hi lo (memCons k v m) = true := by
  unfold memCons
  split
  · exact memOkFrom_mono (by omega) ok
  · next hv => exact memOkFrom_cons.2 ⟨h1, h2, hv, ok⟩

theorem memRead_memWrite_from {hi lo k : Nat} {m : Memory} (v : Word) (ok : memOkFrom hi lo m = true) (j : Nat) :
    memRead (memWrite m k v) j = if j = k then v else memRead m j := by
  induction m generalizing lo with
  | nil => exact memRead_memCons (hi := 0) rfl
  | cons p m ih =>
    obtain ⟨a, w⟩ := p
    have ok' := memOkFrom_cons.1 ok
    unfold memWrite
    split
    · next hk => exact memRead_memCons (memOkFrom_cons.2 ⟨hk, ok'.2⟩)
    · split
      · next hk =>
        subst hk
        rw [memRead_memCons ok'.2.2.2, memRead]
        split <;> rfl
      · rw [memRead, ih ok'.2.2.2, memRead]
        by_cases hj : j = k
        · subst hj; simp_all
        · simp [hj]

theorem memOkFrom_memWrite {hi lo k : Nat} {m : Memory} (v : Word) (ok : memOkFrom hi lo m = true) (h1 : lo ≤ k)
    (h2 : k < hi) : memOkFrom hi lo (memWrite m k v) = true := by
  induction m generalizing lo with
  | nil => exact memOkFrom_memCons h1 h2 rfl
  | cons p m ih =>
    obtain ⟨a, w⟩ := p
    have ok' := memOkFrom_cons.1 ok
    unfold memWrite
    split
    · next hk => exact memOkFrom_memCons h1 h2 (memOkFrom_cons.2 ⟨hk, ok'.2⟩)
    · split
      · next hk => subst hk; exact memOkFrom_memCons h1 h2 ok'.2.2.2
      · exact memOkFrom_cons.2 ⟨ok'.1, ok'.2.1, ok'.2.2.1, ih ok'.2.2.2 (by omega)⟩

/-- Clearing the slots below n: they read 0x00000000 and the others as before. -/
theorem memRead_memClear (m : Memory) (n j : Nat) : memRead (memClear m n) j = if j < n then 0 else memRead m j := by
  induction m with
  | nil => simp [memClear]
  | cons p m ih =>
    obtain ⟨a, w⟩ := p
    unfold memClear
    by_cases ha : a < n
    · rw [if_pos ha, ih, memRead]
      by_cases hj : j < n
      · rw [if_pos hj, if_pos hj]
      · rw [if_neg hj, if_neg hj, if_neg (by omega)]
    · rw [if_neg ha, memRead, ih, memRead]
      by_cases hj : j = a
      · rw [if_pos hj, if_pos hj, if_neg (by omega)]
      · rw [if_neg hj, if_neg hj]

theorem memOkFrom_memClear {hi lo : Nat} {m : Memory} (n : Nat) (ok : memOkFrom hi lo m = true) :
    memOkFrom hi lo (memClear m n) = true := by
  induction m generalizing lo with
  | nil => rfl
  | cons p m ih =>
    obtain ⟨a, w⟩ := p
    have ok' := memOkFrom_cons.1 ok
    unfold memClear
    split
    · exact memOkFrom_mono (by omega) (ih ok'.2.2.2)
    · exact memOkFrom_cons.2 ⟨ok'.1, ok'.2.1, ok'.2.2.1, ih ok'.2.2.2⟩

/-! ### The same, of whole memories -/

theorem memRead_memWrite {hi : Nat} {m : Memory} (ok : Memory.wf hi m = true) (k : Nat) (v : Word) (j : Nat) :
    memRead (memWrite m k v) j = if j = k then v else memRead m j := memRead_memWrite_from v ok j

theorem Memory.wf_memWrite {hi k : Nat} {m : Memory} (ok : Memory.wf hi m = true) (h : k < hi) (v : Word) :
    Memory.wf hi (memWrite m k v) = true := memOkFrom_memWrite v ok (Nat.zero_le k) h

theorem Memory.wf_memClear {hi : Nat} {m : Memory} (ok : Memory.wf hi m = true) (n : Nat) :
    Memory.wf hi (memClear m n) = true := memOkFrom_memClear n ok

theorem Memory.wf_reset (hi : Nat) (p : Params) : Memory.wf hi (State.resetWith p).buf = true := rfl

theorem memOkFrom_ext {hi lo : Nat} {m m' : Memory} (ok : memOkFrom hi lo m = true) (ok' : memOkFrom hi lo m' = true)
    (h : ∀ k, memRead m k = memRead m' k) : m = m' := by
  induction m generalizing m' lo with
  | nil =>
    cases m' with
    | nil => rfl
    | cons p m' =>
      obtain ⟨a, w⟩ := p
      have := h a
      simp [memRead] at this
      exact absurd this.symm (memOkFrom_cons.1 ok').2.2.1
  | cons p m ih =>
    obtain ⟨a, w⟩ := p
    have o := memOkFrom_cons.1 ok
    cases m' with
    | nil =>
      have := h a
      simp [memRead] at this
      exact absurd this o.2.2.1
    | cons p' m' =>
      obtain ⟨a', w'⟩ := p'
      have o' := memOkFrom_cons.1 ok'
      have hlt : ∀ {x y : Nat} {u : Word} {l : Memory}, memOkFrom hi (x + 1) l = true → y < x →
          memRead ((x, u) :: l) y = 0 := by
        intro x y u l hl hy
        rw [memRead, if_neg (by omega)]; exact memRead_below hl (by omega)
      have haa : a = a' := by
        rcases Nat.lt_trichotomy a a' with hc | hc | hc
        · have := h a
          rw [hlt o'.2.2.2 hc] at this
          simp [memRead] at this
          exact absurd this o.2.2.1
        · exact hc
        · have := h a'
          rw [hlt o.2.2.2 hc] at this
          simp [memRead] at this
          exact absurd this.symm o'.2.2.1
      subst haa
      have hw : w = w' := by simpa [memRead] using h a
      subst hw
      rw [ih o.2.2.2 o'.2.2.2]
      intro k
      by_cases hk : k = a
      · rw [memRead_below o.2.2.2 (by omega), memRead_below o'.2.2.2 (by omega)]
      · have := h k
        rwa [memRead, memRead, if_neg hk, if_neg hk] at this

/-- Memories in the canonical form with the same contents are the same list. -/
theorem Memory.ext_of_wf {hi : Nat} {m m' : Memory} (ok : Memory.wf hi m = true) (ok' : Memory.wf hi m' = true)
    (h : ∀ k, memRead m k = memRead m' k) : m = m' := memOkFrom_ext ok ok' h

end Sys2Proof.Machine
end

