-- ==== Sys2Proof/Laws/State.lean ====
section
/-! SUPPORT. One lemma per field of State per named update: what the update leaves in that field. -/

namespace Sys2Proof.Machine

open Sys2Proof

/-! ### respond -/

@[simp] theorem respond_params (v : Word) (s : State) : (respond v s).params = s.params := rfl
@[simp] theorem respond_cfg (v : Word) (s : State) : (respond v s).cfg = s.cfg := rfl
@[simp] theorem respond_sr (v : Word) (s : State) : (respond v s).sr = s.sr := rfl
@[simp] theorem respond_n (v : Word) (s : State) : (respond v s).n = s.n := rfl
@[simp] theorem respond_wptr (v : Word) (s : State) : (respond v s).wptr = s.wptr := rfl
@[simp] theorem respond_buf (v : Word) (s : State) : (respond v s).buf = s.buf := rfl
@[simp] theorem respond_phase (v : Word) (s : State) : (respond v s).phase = s.phase := rfl
@[simp] theorem respond_dprev (v : Word) (s : State) : (respond v s).dprev = s.dprev := rfl
@[simp] theorem respond_grains (v : Word) (s : State) : (respond v s).grains = s.grains := rfl
@[simp] theorem respond_status (v : Word) (s : State) : (respond v s).status = s.status := rfl
@[simp] theorem respond_inputs (v : Word) (s : State) : (respond v s).inputs = s.inputs := rfl
@[simp] theorem respond_response (v : Word) (s : State) : (respond v s).response = some ⟨.ok, v⟩ := rfl

/-! ### rejected -/

@[simp] theorem rejected_params (v : Rsp) (s : State) : (rejected v s).params = s.params := rfl
@[simp] theorem rejected_cfg (v : Rsp) (s : State) : (rejected v s).cfg = s.cfg := rfl
@[simp] theorem rejected_sr (v : Rsp) (s : State) : (rejected v s).sr = s.sr := rfl
@[simp] theorem rejected_n (v : Rsp) (s : State) : (rejected v s).n = s.n := rfl
@[simp] theorem rejected_wptr (v : Rsp) (s : State) : (rejected v s).wptr = s.wptr := rfl
@[simp] theorem rejected_buf (v : Rsp) (s : State) : (rejected v s).buf = s.buf := rfl
@[simp] theorem rejected_phase (v : Rsp) (s : State) : (rejected v s).phase = s.phase := rfl
@[simp] theorem rejected_dprev (v : Rsp) (s : State) : (rejected v s).dprev = s.dprev := rfl
@[simp] theorem rejected_grains (v : Rsp) (s : State) : (rejected v s).grains = s.grains := rfl
@[simp] theorem rejected_status (v : Rsp) (s : State) : (rejected v s).status = noteRejection v s.status := rfl
@[simp] theorem rejected_inputs (v : Rsp) (s : State) : (rejected v s).inputs = s.inputs := rfl
@[simp] theorem rejected_response (v : Rsp) (s : State) : (rejected v s).response = some ⟨v, 0⟩ := rfl

/-! ### noteDrop -/

@[simp] theorem noteDrop_params (s : State) : (noteDrop s).params = s.params := rfl
@[simp] theorem noteDrop_cfg (s : State) : (noteDrop s).cfg = s.cfg := rfl
@[simp] theorem noteDrop_sr (s : State) : (noteDrop s).sr = s.sr := rfl
@[simp] theorem noteDrop_n (s : State) : (noteDrop s).n = s.n := rfl
@[simp] theorem noteDrop_wptr (s : State) : (noteDrop s).wptr = s.wptr := rfl
@[simp] theorem noteDrop_buf (s : State) : (noteDrop s).buf = s.buf := rfl
@[simp] theorem noteDrop_phase (s : State) : (noteDrop s).phase = s.phase := rfl
@[simp] theorem noteDrop_dprev (s : State) : (noteDrop s).dprev = s.dprev := rfl
@[simp] theorem noteDrop_grains (s : State) : (noteDrop s).grains = s.grains := rfl
@[simp] theorem noteDrop_status (s : State) : (noteDrop s).status = { s.status with drop := true } := rfl
@[simp] theorem noteDrop_inputs (s : State) : (noteDrop s).inputs = s.inputs := rfl
@[simp] theorem noteDrop_response (s : State) : (noteDrop s).response = s.response := rfl

/-! ### noteHinval -/

@[simp] theorem noteHinval_params (s : State) : (noteHinval s).params = s.params := rfl
@[simp] theorem noteHinval_cfg (s : State) : (noteHinval s).cfg = s.cfg := rfl
@[simp] theorem noteHinval_sr (s : State) : (noteHinval s).sr = s.sr := rfl
@[simp] theorem noteHinval_n (s : State) : (noteHinval s).n = s.n := rfl
@[simp] theorem noteHinval_wptr (s : State) : (noteHinval s).wptr = s.wptr := rfl
@[simp] theorem noteHinval_buf (s : State) : (noteHinval s).buf = s.buf := rfl
@[simp] theorem noteHinval_phase (s : State) : (noteHinval s).phase = s.phase := rfl
@[simp] theorem noteHinval_dprev (s : State) : (noteHinval s).dprev = s.dprev := rfl
@[simp] theorem noteHinval_grains (s : State) : (noteHinval s).grains = s.grains := rfl
@[simp] theorem noteHinval_status (s : State) : (noteHinval s).status = { s.status with hinval := true } := rfl
@[simp] theorem noteHinval_inputs (s : State) : (noteHinval s).inputs = s.inputs := rfl
@[simp] theorem noteHinval_response (s : State) : (noteHinval s).response = s.response := rfl

/-! ### notePclamp -/

@[simp] theorem notePclamp_params (v : Bool) (s : State) : (notePclamp v s).params = s.params := rfl
@[simp] theorem notePclamp_cfg (v : Bool) (s : State) : (notePclamp v s).cfg = s.cfg := rfl
@[simp] theorem notePclamp_sr (v : Bool) (s : State) : (notePclamp v s).sr = s.sr := rfl
@[simp] theorem notePclamp_n (v : Bool) (s : State) : (notePclamp v s).n = s.n := rfl
@[simp] theorem notePclamp_wptr (v : Bool) (s : State) : (notePclamp v s).wptr = s.wptr := rfl
@[simp] theorem notePclamp_buf (v : Bool) (s : State) : (notePclamp v s).buf = s.buf := rfl
@[simp] theorem notePclamp_phase (v : Bool) (s : State) : (notePclamp v s).phase = s.phase := rfl
@[simp] theorem notePclamp_dprev (v : Bool) (s : State) : (notePclamp v s).dprev = s.dprev := rfl
@[simp] theorem notePclamp_grains (v : Bool) (s : State) : (notePclamp v s).grains = s.grains := rfl
@[simp] theorem notePclamp_status (v : Bool) (s : State) : (notePclamp v s).status = { s.status with pclamp := s.status.pclamp || v } := rfl
@[simp] theorem notePclamp_inputs (v : Bool) (s : State) : (notePclamp v s).inputs = s.inputs := rfl
@[simp] theorem notePclamp_response (v : Bool) (s : State) : (notePclamp v s).response = s.response := rfl

/-! ### noteRclamp -/

@[simp] theorem noteRclamp_params (v : Bool) (s : State) : (noteRclamp v s).params = s.params := rfl
@[simp] theorem noteRclamp_cfg (v : Bool) (s : State) : (noteRclamp v s).cfg = s.cfg := rfl
@[simp] theorem noteRclamp_sr (v : Bool) (s : State) : (noteRclamp v s).sr = s.sr := rfl
@[simp] theorem noteRclamp_n (v : Bool) (s : State) : (noteRclamp v s).n = s.n := rfl
@[simp] theorem noteRclamp_wptr (v : Bool) (s : State) : (noteRclamp v s).wptr = s.wptr := rfl
@[simp] theorem noteRclamp_buf (v : Bool) (s : State) : (noteRclamp v s).buf = s.buf := rfl
@[simp] theorem noteRclamp_phase (v : Bool) (s : State) : (noteRclamp v s).phase = s.phase := rfl
@[simp] theorem noteRclamp_dprev (v : Bool) (s : State) : (noteRclamp v s).dprev = s.dprev := rfl
@[simp] theorem noteRclamp_grains (v : Bool) (s : State) : (noteRclamp v s).grains = s.grains := rfl
@[simp] theorem noteRclamp_status (v : Bool) (s : State) : (noteRclamp v s).status = { s.status with rclamp := s.status.rclamp || v } := rfl
@[simp] theorem noteRclamp_inputs (v : Bool) (s : State) : (noteRclamp v s).inputs = s.inputs := rfl
@[simp] theorem noteRclamp_response (v : Bool) (s : State) : (noteRclamp v s).response = s.response := rfl

/-! ### setTrig -/

@[simp] theorem setTrig_params (v : Bool) (s : State) : (setTrig v s).params = s.params := rfl
@[simp] theorem setTrig_cfg (v : Bool) (s : State) : (setTrig v s).cfg = s.cfg := rfl
@[simp] theorem setTrig_sr (v : Bool) (s : State) : (setTrig v s).sr = s.sr := rfl
@[simp] theorem setTrig_n (v : Bool) (s : State) : (setTrig v s).n = s.n := rfl
@[simp] theorem setTrig_wptr (v : Bool) (s : State) : (setTrig v s).wptr = s.wptr := rfl
@[simp] theorem setTrig_buf (v : Bool) (s : State) : (setTrig v s).buf = s.buf := rfl
@[simp] theorem setTrig_phase (v : Bool) (s : State) : (setTrig v s).phase = s.phase := rfl
@[simp] theorem setTrig_dprev (v : Bool) (s : State) : (setTrig v s).dprev = s.dprev := rfl
@[simp] theorem setTrig_grains (v : Bool) (s : State) : (setTrig v s).grains = s.grains := rfl
@[simp] theorem setTrig_status (v : Bool) (s : State) : (setTrig v s).status = { s.status with trig := v } := rfl
@[simp] theorem setTrig_inputs (v : Bool) (s : State) : (setTrig v s).inputs = s.inputs := rfl
@[simp] theorem setTrig_response (v : Bool) (s : State) : (setTrig v s).response = s.response := rfl

/-! ### setGrain -/

@[simp] theorem setGrain_params (j : Nat) (v : Grain) (s : State) : (setGrain j v s).params = s.params := rfl
@[simp] theorem setGrain_cfg (j : Nat) (v : Grain) (s : State) : (setGrain j v s).cfg = s.cfg := rfl
@[simp] theorem setGrain_sr (j : Nat) (v : Grain) (s : State) : (setGrain j v s).sr = s.sr := rfl
@[simp] theorem setGrain_n (j : Nat) (v : Grain) (s : State) : (setGrain j v s).n = s.n := rfl
@[simp] theorem setGrain_wptr (j : Nat) (v : Grain) (s : State) : (setGrain j v s).wptr = s.wptr := rfl
@[simp] theorem setGrain_buf (j : Nat) (v : Grain) (s : State) : (setGrain j v s).buf = s.buf := rfl
@[simp] theorem setGrain_phase (j : Nat) (v : Grain) (s : State) : (setGrain j v s).phase = s.phase := rfl
@[simp] theorem setGrain_dprev (j : Nat) (v : Grain) (s : State) : (setGrain j v s).dprev = s.dprev := rfl
@[simp] theorem setGrain_grains (j : Nat) (v : Grain) (s : State) : (setGrain j v s).grains = s.grains.set j v := rfl
@[simp] theorem setGrain_status (j : Nat) (v : Grain) (s : State) : (setGrain j v s).status = s.status := rfl
@[simp] theorem setGrain_inputs (j : Nat) (v : Grain) (s : State) : (setGrain j v s).inputs = s.inputs := rfl
@[simp] theorem setGrain_response (j : Nat) (v : Grain) (s : State) : (setGrain j v s).response = s.response := rfl

/-! ### dlWrite -/

@[simp] theorem dlWrite_params (v : Word) (s : State) : (dlWrite v s).params = s.params := rfl
@[simp] theorem dlWrite_cfg (v : Word) (s : State) : (dlWrite v s).cfg = s.cfg := rfl
@[simp] theorem dlWrite_sr (v : Word) (s : State) : (dlWrite v s).sr = s.sr := rfl
@[simp] theorem dlWrite_n (v : Word) (s : State) : (dlWrite v s).n = s.n := rfl
@[simp] theorem dlWrite_wptr (v : Word) (s : State) : (dlWrite v s).wptr = BitVec.ofNat 32 ((s.wptr.toNat + 1) % s.n.toNat) := rfl
@[simp] theorem dlWrite_buf (v : Word) (s : State) : (dlWrite v s).buf = memWrite s.buf s.wptr.toNat v := rfl
@[simp] theorem dlWrite_phase (v : Word) (s : State) : (dlWrite v s).phase = s.phase := rfl
@[simp] theorem dlWrite_dprev (v : Word) (s : State) : (dlWrite v s).dprev = s.dprev := rfl
@[simp] theorem dlWrite_grains (v : Word) (s : State) : (dlWrite v s).grains = s.grains := rfl
@[simp] theorem dlWrite_status (v : Word) (s : State) : (dlWrite v s).status = s.status := rfl
@[simp] theorem dlWrite_inputs (v : Word) (s : State) : (dlWrite v s).inputs = s.inputs := rfl
@[simp] theorem dlWrite_response (v : Word) (s : State) : (dlWrite v s).response = s.response := rfl

/-! ### hardwareReset -/

@[simp] theorem hardwareReset_params (s : State) : (hardwareReset s).params = s.params := rfl
@[simp] theorem hardwareReset_cfg (s : State) : (hardwareReset s).cfg = false := rfl
@[simp] theorem hardwareReset_sr (s : State) : (hardwareReset s).sr = 0 := rfl
@[simp] theorem hardwareReset_n (s : State) : (hardwareReset s).n = 0 := rfl
@[simp] theorem hardwareReset_wptr (s : State) : (hardwareReset s).wptr = 0 := rfl
@[simp] theorem hardwareReset_buf (s : State) : (hardwareReset s).buf = [] := rfl
@[simp] theorem hardwareReset_phase (s : State) : (hardwareReset s).phase = 0 := rfl
@[simp] theorem hardwareReset_dprev (s : State) : (hardwareReset s).dprev = 0 := rfl
@[simp] theorem hardwareReset_grains (s : State) : (hardwareReset s).grains = List.replicate s.params.pool Grain.reset := rfl
@[simp] theorem hardwareReset_status (s : State) : (hardwareReset s).status = Status.reset := rfl
@[simp] theorem hardwareReset_inputs (s : State) : (hardwareReset s).inputs = s.inputs := rfl
@[simp] theorem hardwareReset_response (s : State) : (hardwareReset s).response = none := rfl

/-! ### constructed -/

@[simp] theorem constructed_params (v : Word) (s : State) : (constructed v s).params = s.params := rfl
@[simp] theorem constructed_cfg (v : Word) (s : State) : (constructed v s).cfg = true := rfl
@[simp] theorem constructed_sr (v : Word) (s : State) : (constructed v s).sr = v := rfl
@[simp] theorem constructed_n (v : Word) (s : State) : (constructed v s).n = BitVec.ofNat 32 (lineLength s.params v) := rfl
@[simp] theorem constructed_wptr (v : Word) (s : State) : (constructed v s).wptr = 0 := rfl
@[simp] theorem constructed_buf (v : Word) (s : State) : (constructed v s).buf = memClear s.buf (lineLength s.params v) := rfl
@[simp] theorem constructed_phase (v : Word) (s : State) : (constructed v s).phase = posZero := rfl
@[simp] theorem constructed_dprev (v : Word) (s : State) : (constructed v s).dprev = posZero := rfl
@[simp] theorem constructed_grains (v : Word) (s : State) : (constructed v s).grains = List.replicate s.params.pool Grain.reset := rfl
@[simp] theorem constructed_status (v : Word) (s : State) : (constructed v s).status = Status.reset := rfl
@[simp] theorem constructed_inputs (v : Word) (s : State) : (constructed v s).inputs = s.inputs := rfl
@[simp] theorem constructed_response (v : Word) (s : State) : (constructed v s).response = s.response := rfl

end Sys2Proof.Machine
end

