-- ==== Sys2Proof/Laws/Ops.lean ====
section
/-! SUPPORT. What each shared operation can do, said once: the checks, the delay line, the grain registers, a grain
step, the mixer's loop. -/

namespace Sys2Proof.Machine

open Sys2Proof

/-! ### Checks and answers -/

theorem ifConfigured_true {s : State} (h : s.cfg = true) (k : Result) : ifConfigured s k = k := by
  simp [ifConfigured, h]

theorem ifConfigured_false {s : State} (h : s.cfg = false) (k : Result) :
    ifConfigured s k = reject .notConfigured s := by simp [ifConfigured, h]

theorem ifSlot_lt {slot : BitVec 8} {s : State} (h : slot.toNat < s.params.pool) (k : Result) :
    ifSlot slot s k = k := by simp [ifSlot, h]

theorem ifSlot_ge {slot : BitVec 8} {s : State} (h : s.params.pool ≤ slot.toNat) (k : Result) :
    ifSlot slot s k = reject .badIndex s := by simp [ifSlot, Nat.not_lt.2 h]

/-! ### The delay line -/

/-- A slot of the ring, for every integer offset (R48). -/
theorem pastSlot_lt {s : State} (h : 0 < s.n.toNat) (k : Nat) : pastSlot s k < s.n.toNat := by
  unfold pastSlot
  have h1 := Int.emod_nonneg ((s.wptr.toNat : Int) - 1 - k) (b := (s.n.toNat : Int)) (by omega)
  have h2 := Int.emod_lt_of_pos ((s.wptr.toNat : Int) - 1 - k) (b := (s.n.toNat : Int)) (by omega)
  omega

/-- Where a clamped offset came from: the operand itself, in range, or one of the two ends with the clamp noted. -/
theorem clampOffset_cases (s : State) (o : Word) :
    (clampOffset s o = (o, false) ∧ fle posZero o = true ∧ fle o (maxOffset s) = true)
    ∨ clampOffset s o = (posZero, true) ∨ clampOffset s o = (maxOffset s, true) := by
  have hz : isNaN posZero = false := by decide
  have hm : isNaN (maxOffset s) = false := f32Signed_not_nan _ _
  unfold clampOffset
  by_cases h1 : isNaN o = true
  · right; left; rw [if_pos h1]
  · rw [if_neg h1]
    have h1' : isNaN o = false := by simpa using h1
    by_cases h2 : flt o posZero = true
    · right; left; rw [if_pos h2]
    · rw [if_neg h2]
      by_cases h3 : flt (maxOffset s) o = true
      · right; right; rw [if_pos h3]
      · rw [if_neg h3]
        exact .inl ⟨rfl, fle_of_not_flt h1' hz (by simpa using h2), fle_of_not_flt hm h1' (by simpa using h3)⟩

/-- The clamp is noted exactly at the offsets R93 names. -/
theorem clampOffset_snd (s : State) (o : Word) : (clampOffset s o).2 = readClamps s o := by
  unfold clampOffset readClamps maxOffset
  cases isNaN o <;> cases flt o posZero <;> cases flt (f32 (s.n.toNat - 2)) o <;> rfl

theorem clampOffset_in_range {s : State} {o : Word} (h1 : fle posZero o = true) (h2 : fle o (maxOffset s) = true) :
    clampOffset s o = (o, false) := by
  have hn := fle_not_nan h1
  unfold clampOffset
  rw [if_neg (by simp [hn.2]), if_neg, if_neg]
  · intro h; rw [flt_iff (fle_not_nan h2).2 hn.2] at h; rw [fle_iff hn.2 (fle_not_nan h2).2] at h2; omega
  · intro h; rw [flt_iff hn.2 hn.1] at h; rw [fle_iff hn.1 hn.2] at h1; omega

/-- The parts of the state a read depends on. -/
theorem interpolate_congr {s s' : State} (h1 : s'.buf = s.buf) (h2 : s'.wptr = s.wptr) (h3 : s'.n = s.n) (o : Word) :
    interpolate s' o = interpolate s o := by
  unfold interpolate pastSample pastSlot; rw [h1, h2, h3]

theorem clampOffset_congr {s s' : State} (h3 : s'.n = s.n) (o : Word) : clampOffset s' o = clampOffset s o := by
  unfold clampOffset maxOffset; rw [h3]

/-! ### The grain registers -/

theorem grainAt_eq {s : State} {j : Nat} {g : Grain} (h : s.grains[j]? = some g) : grainAt s j = g := by
  simp [grainAt, h]

theorem grainAt_mem {s : State} {j : Nat} (h : j < s.grains.length) : grainAt s j ∈ s.grains := by
  rw [grainAt_eq (List.getElem?_eq_getElem h)]; exact List.getElem_mem h

theorem getElem?_grainAt {s : State} {j : Nat} (h : j < s.grains.length) : s.grains[j]? = some (grainAt s j) := by
  rw [grainAt_eq (List.getElem?_eq_getElem h)]; exact List.getElem?_eq_getElem h

/-! ### A grain step and the mixer's loop -/

theorem grainOutput_congr {s s' : State} (h0 : s'.params = s.params) (h1 : s'.buf = s.buf) (h2 : s'.wptr = s.wptr)
    (h3 : s'.n = s.n) : grainOutput s' = grainOutput s := by
  funext g; unfold grainOutput; rw [h0, interpolate_congr h1 h2 h3, clampOffset_congr h3]

theorem grainClamps_congr {s s' : State} (h3 : s'.n = s.n) : grainClamps s' = grainClamps s := by
  funext g; unfold grainClamps readClamps; rw [h3]

theorem noteRclamp_false (s : State) : noteRclamp false s = s := by simp [noteRclamp]

/-- A grain step, said once: the grain's output, the grain advanced, a clamped read noted, nothing else (R117). -/
theorem grainStep_eq {s : State} {j : Nat} {g : Grain} (sp : Word) (h : s.grains[j]? = some g) :
    grainStep j sp s =
      (grainOutput s g, noteRclamp (grainClamps s g) { s with grains := s.grains.set j (grainAfter sp g) }) := by
  obtain ⟨hj, hg⟩ := List.getElem?_eq_some_iff.1 h
  unfold grainStep grainOutput grainAfter grainClamps
  rw [grainAt_eq h]
  cases ha : g.active
  · have hset : s.grains.set j g = s.grains := by rw [← hg]; exact List.set_getElem_self hj
    simp only [ha, Bool.not_false, if_true, Bool.false_eq_true, if_false, Bool.false_and, noteRclamp_false, hset]
  · simp only [ha, Bool.not_true, if_true, Bool.false_eq_true, if_false, Bool.true_and,
      ← clampOffset_snd]
    rfl

/-- The mixer's loop over the slots from `pre.length` on, the slots before it done: the outputs are added in slot order
and every grain is advanced once, whatever the state's other parts (R134). -/
theorem mixLoop_eq (sp : Word) (post : List Grain) : ∀ (pre : List Grain) (acc : Word) (s : State),
    s.grains = pre ++ post →
    mixLoop sp (List.range' pre.length post.length) acc s =
      ((post.map (grainOutput s)).foldl fadd acc,
        noteRclamp (post.any (grainClamps s)) { s with grains := pre ++ post.map (grainAfter sp) }) := by
  induction post with
  | nil => intro pre acc s h; simp [mixLoop, ← h, noteRclamp]
  | cons g post ih =>
    intro pre acc s h
    have hg : s.grains[pre.length]? = some g := by rw [h]; simp
    have hset : s.grains.set pre.length (grainAfter sp g) = (pre ++ [grainAfter sp g]) ++ post := by
      rw [h]; simp
    rw [List.length_cons, List.range'_succ, mixLoop, grainStep_eq sp hg, hset]
    generalize hs' : noteRclamp (grainClamps s g) { s with grains := pre ++ [grainAfter sp g] ++ post } = s'
    have hl : pre.length + 1 = (pre ++ [grainAfter sp g]).length := by simp
    have e1 : grainOutput s' = grainOutput s := by subst hs'; exact grainOutput_congr rfl rfl rfl rfl
    have e2 : grainClamps s' = grainClamps s := by subst hs'; exact grainClamps_congr rfl
    rw [hl, ih _ _ s' (by subst hs'; rfl), e1, e2]
    subst hs'
    simp [noteRclamp, Bool.or_assoc]

/-- The mixer, said once (R134). -/
theorem mix_eq {s : State} (sp : Word) (h : s.grains.length = s.params.pool) :
    mix sp s = (fmul ((s.grains.map (grainOutput s)).foldl fadd posZero) (gain s.params),
      noteRclamp (s.grains.any (grainClamps s)) { s with grains := s.grains.map (grainAfter sp) }) := by
  unfold mix
  have := mixLoop_eq sp s.grains [] posZero s rfl
  rw [List.length_nil, ← List.range_eq_range', h] at this
  rw [this]; rfl

end Sys2Proof.Machine
end

