-- ==== Sys2Proof/Laws/Exec.lean ====
section
/-! SUPPORT. What a command can do, said once: it is rejected with the code of the cause table and nothing else
happens, or it answers with the result and the state of its own operation. What a step can do follows. -/

namespace Sys2Proof.Machine

open Sys2Proof

/-- The result word and the next state (but for the response) of a command that is not rejected. -/
def effect (i : Instr) (s : State) : Word × State :=
  match i with
  | .nop => (0, s)
  | .init sr => (BitVec.ofNat 32 (lineLength s.params sr), constructed sr s)
  | .processN x p => engineProcess x p none s
  | .processH x p h => engineProcess x p (some h) s
  | .rdreg reg => ((readReg s reg).getD 0, s)
  | .clrstat => (0, { s with status := clearSticky s.status })
  | .dlWrite x => (0, dlWrite x s)
  | .dlRead o => dlRead o s
  | .dlPeek k => (memRead s.buf k.toNat, s)
  | .phStep f => phasorStep f s
  | .dtStep v => deltaStep v s
  | .grSet slot f ws sp => grainSet slot.toNat f ws sp s
  | .grStep slot sp => grainStep slot.toNat sp s
  | .grFree slot => (if (grainAt s slot.toNat).active then 0 else 1, s)
  | .grRd slot field => ((readField (grainAt s slot.toNat) field).getD 0, s)
  | .p2s p => (pitchToSpeed s.params p, s)
  | .gfreq h sp => (grainFreq s.params h sp, s)
  | .wsize gf => (windowSize gf, s)
  | .alloc => (allocWord s, s)
  | .mix sp => mix sp s

theorem readReg_eq_none {s : State} {reg : BitVec 8} : readReg s reg = none ↔ 0x0E < reg.toNat := by
  unfold readReg
  split <;> simp_all
  omega

theorem readField_eq_none {g : Grain} {field : BitVec 4} : readField g field = none ↔ 8 < field.toNat := by
  unfold readField
  split <;> simp_all
  omega

/-- What a command can do, whole. -/
theorem exec_eq (i : Instr) (s : State) :
    exec i s = if expectedRsp i s = .ok then answerOf (effect i s) else reject (expectedRsp i s) s := by
  cases i with
  | rdreg reg =>
    have hn := @readReg_eq_none s reg
    simp only [exec, execRdreg, expectedRsp, needsCfg, Instr.wf, effect, answerOf]
    cases hr : readReg s reg with
    | none => have := hn.1 hr; simp [show ¬ reg.toNat ≤ 0x0E by omega]
    | some v =>
      have : ¬ 0x0E < reg.toNat := fun h => by simp [hn.2 h] at hr
      simp [show reg.toNat ≤ 0x0E by omega]
  | grRd slot field =>
    have hn := @readField_eq_none (grainAt s slot.toNat) field
    simp only [exec, execGrRd, ifSlot, expectedRsp, needsCfg, Instr.wf, effect, answerOf]
    by_cases hs : slot.toNat < s.params.pool
    · cases hr : readField (grainAt s slot.toNat) field with
      | none => have := hn.1 hr; simp [show ¬ field.toNat ≤ 8 by omega, hs]
      | some v =>
        have : ¬ 8 < field.toNat := fun h => by simp [hn.2 h] at hr
        simp [show field.toNat ≤ 8 by omega, hs]
    · simp [hs]
  | init sr =>
    simp only [exec, execInit, expectedRsp, needsCfg, Instr.wf, effect, answerOf]
    by_cases h1 : sampleRateOk sr = true <;> by_cases h2 : fitsCapacity s.params sr = true <;> simp [h1, h2]
  | dlPeek k =>
    simp only [exec, execDlPeek, ifConfigured, expectedRsp, needsCfg, Instr.wf, effect, answerOf, BitVec.le_def]
    cases s.cfg <;> by_cases h : s.n.toNat ≤ k.toNat <;> simp [h]
  | grSet slot f ws sp =>
    simp only [exec, execGrSet, ifConfigured, ifSlot, expectedRsp, needsCfg, Instr.wf, effect, answerOf]
    cases s.cfg <;> by_cases h : slot.toNat < s.params.pool <;> simp [h]
  | grStep slot sp =>
    simp only [exec, execGrStep, ifConfigured, ifSlot, expectedRsp, needsCfg, Instr.wf, effect, answerOf]
    cases s.cfg <;> by_cases h : slot.toNat < s.params.pool <;> simp [h]
  | grFree slot =>
    simp only [exec, execGrFree, ifSlot, expectedRsp, needsCfg, Instr.wf, effect, answerOf]
    by_cases h : slot.toNat < s.params.pool <;> simp [h]
  | nop => rfl
  | clrstat => rfl
  | p2s p => rfl
  | gfreq h sp => rfl
  | wsize gf => rfl
  | alloc => rfl
  | processN x p => simp only [exec, execProcessN, ifConfigured, expectedRsp, needsCfg, Instr.wf, effect]; cases s.cfg <;> simp
  | processH x p h => simp only [exec, execProcessH, ifConfigured, expectedRsp, needsCfg, Instr.wf, effect]; cases s.cfg <;> simp
  | dlWrite x => simp only [exec, execDlWrite, ifConfigured, expectedRsp, needsCfg, Instr.wf, effect]; cases s.cfg <;> simp [answerOf]
  | dlRead o => simp only [exec, execDlRead, ifConfigured, expectedRsp, needsCfg, Instr.wf, effect]; cases s.cfg <;> simp
  | phStep f => simp only [exec, execPhStep, ifConfigured, expectedRsp, needsCfg, Instr.wf, effect]; cases s.cfg <;> simp
  | dtStep v => simp only [exec, execDtStep, ifConfigured, expectedRsp, needsCfg, Instr.wf, effect]; cases s.cfg <;> simp
  | mix sp => simp only [exec, execMix, ifConfigured, expectedRsp, needsCfg, Instr.wf, effect]; cases s.cfg <;> simp

theorem exec_of_ok {i : Instr} {s : State} (h : expectedRsp i s = .ok) :
    exec i s = .next (respond (effect i s).1 (effect i s).2) := by rw [exec_eq, if_pos h]; rfl

theorem exec_of_rejected {i : Instr} {s : State} (h : expectedRsp i s ≠ .ok) :
    exec i s = .next (rejected (expectedRsp i s) s) := by rw [exec_eq, if_neg h]; rfl

/-- The two things a command can do. -/
theorem exec_cases {i : Instr} {s t : State} (h : exec i s = .next t) :
    (expectedRsp i s = .ok ∧ t = respond (effect i s).1 (effect i s).2)
    ∨ (expectedRsp i s ≠ .ok ∧ t = rejected (expectedRsp i s) s) := by
  by_cases hr : expectedRsp i s = .ok
  · rw [exec_of_ok hr] at h; cases h; exact .inl ⟨hr, rfl⟩
  · rw [exec_of_rejected hr] at h; cases h; exact .inr ⟨hr, rfl⟩

/-- The four things a step can do. -/
theorem step_cases {s t : State} (h : step s = .next t) :
    (s.inputs = [] ∧ t = { s with response := none })
    ∨ (∃ e rest, s.inputs = e :: rest ∧ (e = .rst ∨ ∃ k, e = .abandoned k)
        ∧ t = hardwareReset { s with inputs := rest })
    ∨ (∃ k rest d, s.inputs = .transact k :: rest ∧ decode k = .error d
        ∧ t = rejected .illegal { s with inputs := rest })
    ∨ (∃ k rest i, s.inputs = .transact k :: rest ∧ decode k = .ok i ∧ exec i { s with inputs := rest } = .next t) := by
  unfold step at h
  split at h
  · next hi => cases h; exact .inl ⟨hi, rfl⟩
  · next rest hi => cases h; exact .inr (.inl ⟨_, rest, hi, .inl rfl, rfl⟩)
  · next k rest hi => cases h; exact .inr (.inl ⟨_, rest, hi, .inr ⟨k, rfl⟩, rfl⟩)
  · next k rest hi =>
    split at h
    · next d hd => cases h; exact .inr (.inr (.inl ⟨k, rest, d, hi, hd, rfl⟩))
    · next i hd => exact .inr (.inr (.inr ⟨k, rest, i, hi, hd, h⟩))

/-! ### What an accepted command says about the state -/

theorem cfg_of_ok {i : Instr} {s : State} (h : expectedRsp i s = .ok) (hn : needsCfg i = true) : s.cfg = true := by
  unfold expectedRsp at h
  cases hc : s.cfg
  · rw [if_pos ⟨hn, hc⟩] at h; exact absurd h (by simp)
  · rfl

theorem wf_of_ok {i : Instr} {s : State} (h : expectedRsp i s = .ok) : i.wf s.params = true := by
  unfold expectedRsp at h
  split at h
  · exact absurd h (by simp)
  · split at h
    · exact absurd h (by simp)
    · next hw => simpa using hw

theorem init_of_ok {sr : Word} {s : State} (h : expectedRsp (.init sr) s = .ok) :
    sampleRateOk sr = true ∧ fitsCapacity s.params sr = true := by
  by_cases h1 : sampleRateOk sr = true <;> by_cases h2 : fitsCapacity s.params sr = true <;>
    simp [expectedRsp, needsCfg, Instr.wf, h1, h2] at h ⊢

theorem dlPeek_of_ok {k : Word} {s : State} (h : expectedRsp (.dlPeek k) s = .ok) : k.toNat < s.n.toNat := by
  have hc := cfg_of_ok h rfl
  by_cases hk : s.n.toNat ≤ k.toNat
  · simp [expectedRsp, needsCfg, Instr.wf, hc, hk] at h
  · omega

theorem expectedRsp_congr {s s' : State} (h1 : s'.params = s.params) (h2 : s'.cfg = s.cfg) (h3 : s'.n = s.n)
    (i : Instr) : expectedRsp i s' = expectedRsp i s := by unfold expectedRsp; rw [h1, h2, h3]

/-! ### What no command changes -/

/-- The parameters, the host's inputs and the configuration are the same. -/
structure SameBlock (s t : State) : Prop where
  params : t.params = s.params
  inputs : t.inputs = s.inputs
  cfg : t.cfg = s.cfg
  sr : t.sr = s.sr
  n : t.n = s.n

theorem SameBlock.refl (s : State) : SameBlock s s := ⟨rfl, rfl, rfl, rfl, rfl⟩

theorem SameBlock.trans {s t u : State} (h : SameBlock s t) (k : SameBlock t u) : SameBlock s u :=
  ⟨k.params.trans h.params, k.inputs.trans h.inputs, k.cfg.trans h.cfg, k.sr.trans h.sr, k.n.trans h.n⟩

theorem sameBlock_grainStep (j : Nat) (sp : Word) (s : State) : SameBlock s (grainStep j sp s).2 := by
  unfold grainStep; dsimp only; split <;> exact ⟨rfl, rfl, rfl, rfl, rfl⟩

theorem sameBlock_mixLoop (sp : Word) (js : List Nat) : ∀ acc s, SameBlock s (mixLoop sp js acc s).2 := by
  induction js with
  | nil => exact fun _ s => .refl s
  | cons j js ih => exact fun _ s => (sameBlock_grainStep j sp s).trans (ih _ _)

theorem sameBlock_mix (sp : Word) (s : State) : SameBlock s (mix sp s).2 := sameBlock_mixLoop _ _ _ _

theorem sameBlock_trigger (gf sp : Word) (s : State) : SameBlock s (trigger gf sp s) := by
  unfold trigger; split <;> exact ⟨rfl, rfl, rfl, rfl, rfl⟩

theorem sameBlock_hintStep (hint : Option Word) (sp : Word) (s : State) : SameBlock s (hintStep hint sp s) := by
  unfold hintStep generate
  dsimp only
  split
  · exact .refl s
  · split
    · split
      · refine SameBlock.trans ?_ (sameBlock_trigger _ _ _); exact ⟨rfl, rfl, rfl, rfl, rfl⟩
      · exact ⟨rfl, rfl, rfl, rfl, rfl⟩
    · exact ⟨rfl, rfl, rfl, rfl, rfl⟩

theorem sameBlock_engineProcess (x p : Word) (hint : Option Word) (s : State) :
    SameBlock s (engineProcess x p hint s).2 :=
  SameBlock.trans (t := setTrig false (sanitizePitch p s).2) ⟨rfl, rfl, rfl, rfl, rfl⟩
    ((sameBlock_hintStep hint _ _).trans ((sameBlock_mix _ _).trans ⟨rfl, rfl, rfl, rfl, rfl⟩))

/-- No command but INIT changes the configuration. -/
theorem sameBlock_effect {i : Instr} (h : ∀ sr, i ≠ .init sr) (s : State) : SameBlock s (effect i s).2 := by
  cases i with
  | init sr => exact absurd rfl (h sr)
  | processN x p => exact sameBlock_engineProcess _ _ _ _
  | processH x p h => exact sameBlock_engineProcess _ _ _ _
  | mix sp => exact sameBlock_mix _ _
  | grStep slot sp => exact sameBlock_grainStep _ _ _
  | nop | rdreg _ | clrstat | dlWrite _ | dlRead _ | dlPeek _ | phStep _ | dtStep _ | grSet _ _ _ _ | grFree _
  | grRd _ _ | p2s _ | gfreq _ _ | wsize _ | alloc => exact ⟨rfl, rfl, rfl, rfl, rfl⟩

end Sys2Proof.Machine
end

