-- ==== Sys2Proof/Laws/Alike.lean ====
section
/-! SUPPORT. What the operations depend on: two states alike in everything but STATUS' fields and the storage outside
the ring give the same results and states alike again. -/

namespace Sys2Proof.Machine

open Sys2Proof

/-- Alike but for STATUS' fields (which agree where `P`) and for BUF outside the ring (which agrees whole where `Q`). -/
structure Alike (P Q : Prop) (s s' : State) : Prop where
  params : s'.params = s.params
  inputs : s'.inputs = s.inputs
  cfg : s'.cfg = s.cfg
  sr : s'.sr = s.sr
  n : s'.n = s.n
  wptr : s'.wptr = s.wptr
  phase : s'.phase = s.phase
  dprev : s'.dprev = s.dprev
  grains : s'.grains = s.grains
  reads : ∀ k, (0 < s.n.toNat → k < s.n.toNat) → memRead s'.buf k = memRead s.buf k
  status : P → s'.status = s.status
  buf : Q → s'.buf = s.buf

variable {P Q : Prop} {s s' : State}

theorem Alike.pastSample (h : Alike P Q s s') (k : Nat) : pastSample s' k = pastSample s k := by
  unfold Machine.pastSample
  have e : pastSlot s' k = pastSlot s k := by unfold pastSlot; rw [h.n, h.wptr]
  rw [e, h.reads _ (fun hn => pastSlot_lt hn k)]

theorem Alike.interpolate (h : Alike P Q s s') (o : Word) : interpolate s' o = interpolate s o := by
  unfold Machine.interpolate; simp only [h.pastSample]

theorem Alike.clampOffset (h : Alike P Q s s') (o : Word) : clampOffset s' o = clampOffset s o := clampOffset_congr h.n o

theorem Alike.grainAt (h : Alike P Q s s') (j : Nat) : grainAt s' j = grainAt s j := by
  unfold Machine.grainAt; rw [h.grains]

theorem Alike.noteRclamp (h : Alike P Q s s') (b : Bool) : Alike P Q (noteRclamp b s) (noteRclamp b s') :=
  { h with status := fun hp => by simp [h.status hp] }

theorem Alike.notePclamp (h : Alike P Q s s') (b : Bool) : Alike P Q (notePclamp b s) (notePclamp b s') :=
  { h with status := fun hp => by simp [h.status hp] }

theorem Alike.setTrig (h : Alike P Q s s') (b : Bool) : Alike P Q (setTrig b s) (setTrig b s') :=
  { h with status := fun hp => by simp [h.status hp] }

theorem Alike.noteDrop (h : Alike P Q s s') : Alike P Q (noteDrop s) (noteDrop s') :=
  { h with status := fun hp => by simp [h.status hp] }

theorem Alike.noteHinval (h : Alike P Q s s') : Alike P Q (noteHinval s) (noteHinval s') :=
  { h with status := fun hp => by simp [h.status hp] }

theorem Alike.setGrain (h : Alike P Q s s') (j : Nat) (g : Grain) : Alike P Q (setGrain j g s) (setGrain j g s') :=
  { h with grains := by simp [h.grains] }

theorem Alike.dlRead (h : Alike P Q s s') (o : Word) :
    (dlRead o s').1 = (dlRead o s).1 ∧ Alike P Q (dlRead o s).2 (dlRead o s').2 := by
  unfold Machine.dlRead; rw [h.clampOffset, h.interpolate]; exact ⟨rfl, h.noteRclamp _⟩

theorem Alike.grainStep (h : Alike P Q s s') (j : Nat) (sp : Word) :
    (grainStep j sp s').1 = (grainStep j sp s).1 ∧ Alike P Q (grainStep j sp s).2 (grainStep j sp s').2 := by
  unfold Machine.grainStep
  simp only [h.grainAt, h.params, (h.dlRead _).1]
  split
  · exact ⟨rfl, h⟩
  · exact ⟨rfl, (h.dlRead _).2.setGrain _ _⟩

theorem Alike.mixLoop (sp : Word) (js : List Nat) : ∀ {s s' : State} (acc : Word), Alike P Q s s' →
    (mixLoop sp js acc s').1 = (mixLoop sp js acc s).1
      ∧ Alike P Q (mixLoop sp js acc s).2 (mixLoop sp js acc s').2 := by
  induction js with
  | nil => exact fun _ h => ⟨rfl, h⟩
  | cons j js ih =>
    intro s s' acc h
    have hg := h.grainStep j sp
    unfold Machine.mixLoop
    rw [hg.1]
    exact ih _ hg.2

theorem Alike.mix (h : Alike P Q s s') (sp : Word) :
    (mix sp s').1 = (mix sp s).1 ∧ Alike P Q (mix sp s).2 (mix sp s').2 := by
  have hl := Alike.mixLoop sp (List.range s.params.pool) posZero h
  unfold Machine.mix
  dsimp only
  rw [h.params, hl.1]
  exact ⟨rfl, hl.2⟩

theorem Alike.phasorStep (h : Alike P Q s s') (f : Word) :
    (phasorStep f s').1 = (phasorStep f s).1 ∧ Alike P Q (phasorStep f s).2 (phasorStep f s').2 := by
  have e : wrapPhase (fadd s'.phase (fdiv f s'.sr)) = wrapPhase (fadd s.phase (fdiv f s.sr)) := by rw [h.phase, h.sr]
  exact ⟨e, { h with phase := e }⟩

theorem Alike.deltaStep (h : Alike P Q s s') (v : Word) :
    (deltaStep v s').1 = (deltaStep v s).1 ∧ Alike P Q (deltaStep v s).2 (deltaStep v s').2 := by
  have e : fsub v s'.dprev = fsub v s.dprev := by rw [h.dprev]
  exact ⟨e, { h with dprev := rfl }⟩

theorem Alike.grainSet (h : Alike P Q s s') (j : Nat) (f ws sp : Word) :
    (grainSet j f ws sp s').1 = (grainSet j f ws sp s).1
      ∧ Alike P Q (grainSet j f ws sp s).2 (grainSet j f ws sp s').2 := by
  unfold Machine.grainSet
  rw [h.sr]
  exact ⟨rfl, h.setGrain _ _⟩

theorem Alike.allocScan (h : Alike P Q s s') : allocScan s' = allocScan s := by
  unfold Machine.allocScan
  rw [h.params]
  congr 1
  funext j
  rw [h.grainAt]

theorem Alike.trigger (h : Alike P Q s s') (gf sp : Word) : Alike P Q (trigger gf sp s) (trigger gf sp s') := by
  unfold Machine.trigger
  rw [(h.setTrig true).allocScan]
  split
  · exact (h.setTrig true).noteDrop
  · exact ((h.setTrig true).grainSet _ _ _ _).2

theorem Alike.hintStep (h : Alike P Q s s') (hint : Option Word) (sp : Word) :
    Alike P Q (hintStep hint sp s) (hintStep hint sp s') := by
  unfold Machine.hintStep
  split
  · exact h
  · next v =>
    rw [h.sr]
    split
    · unfold generate
      dsimp only
      rw [h.params]
      have hp := h.phasorStep (fmul (grainFreq s.params v sp) (f32 s.params.voices))
      rw [hp.1]
      have hd := hp.2.deltaStep (Machine.phasorStep (fmul (grainFreq s.params v sp) (f32 s.params.voices)) s).1
      rw [hd.1]
      split
      · exact hd.2.trigger _ _
      · exact hd.2
    · exact h.noteHinval

/-- Everything a PROCESS does before its write. -/
def engineBody (p : Word) (hint : Option Word) (s : State) : Word × State :=
  mix (pitchToSpeed s.params (pitchUsed s.params p))
    (hintStep hint (pitchToSpeed s.params (pitchUsed s.params p))
      (setTrig false (notePclamp (pitchClamped s.params p) s)))

theorem engineProcess_eq (x p : Word) (hint : Option Word) (s : State) :
    engineProcess x p hint s = ((engineBody p hint s).1, dlWrite x (engineBody p hint s).2) := rfl

theorem buf_mixLoop (sp : Word) (js : List Nat) : ∀ acc s, (mixLoop sp js acc s).2.buf = s.buf := by
  induction js with
  | nil => exact fun _ _ => rfl
  | cons j js ih =>
    intro acc s
    refine (ih _ _).trans ?_
    unfold Machine.grainStep; dsimp only; split <;> rfl

theorem buf_hintStep (hint : Option Word) (sp : Word) (s : State) : (hintStep hint sp s).buf = s.buf := by
  unfold Machine.hintStep generate Machine.trigger
  dsimp only
  split
  · rfl
  · split
    · split
      · split <;> rfl
      · rfl
    · rfl

/-- No part of a PROCESS but its write touches the storage. -/
theorem buf_engineBody (p : Word) (hint : Option Word) (s : State) : (engineBody p hint s).2.buf = s.buf :=
  (buf_mixLoop _ _ _ _).trans (buf_hintStep _ _ _)

theorem Alike.engineBody (h : Alike P Q s s') (p : Word) (hint : Option Word) :
    (engineBody p hint s').1 = (engineBody p hint s).1
      ∧ Alike P Q (engineBody p hint s).2 (engineBody p hint s').2 := by
  unfold Machine.engineBody
  rw [h.params]
  exact (((h.notePclamp _).setTrig false).hintStep _ _).mix _

/-- A write to states whose storage is the same. -/
theorem Alike.dlWrite_of_buf (h : Alike P Q s s') (hq : Q) (x : Word) : Alike P Q (dlWrite x s) (dlWrite x s') := by
  have hb : (dlWrite x s').buf = (dlWrite x s).buf := by simp [dlWrite, h.buf hq, h.wptr]
  exact { h with wptr := by simp [dlWrite, h.wptr, h.n], reads := fun k _ => by rw [hb], buf := fun _ => hb }

/-- A write to states whose storage is in its canonical form. -/
theorem Alike.dlWrite_of_wf {hi hi' : Nat} (h : Alike P Q s s') (ok : Memory.wf hi s.buf = true)
    (ok' : Memory.wf hi' s'.buf = true) (x : Word) : Alike P Q (dlWrite x s) (dlWrite x s') :=
  { h with
    wptr := by simp [dlWrite, h.wptr, h.n]
    reads := fun k hk => by
      show memRead (memWrite s'.buf s'.wptr.toNat x) k = memRead (memWrite s.buf s.wptr.toNat x) k
      rw [memRead_memWrite ok', memRead_memWrite ok, h.wptr, h.reads k hk]
    buf := fun hq => by simp [dlWrite, h.buf hq, h.wptr] }

end Sys2Proof.Machine
end

