-- ==== Sys2Proof/Laws/Decode.lean ====
section
/-! SUPPORT. The fields of an encoded command word, and a command word from its fields. -/

namespace Sys2Proof

/-- A command word as a number: OPC from bit 0, IDX from bit 8, SEL from bit 16. -/
theorem toNat_cmdWord (opc idx : BitVec 8) (sel : BitVec 4) :
    (cmdWord opc idx sel).toNat = opc.toNat + 2 ^ 8 * (idx.toNat + 2 ^ 8 * sel.toNat) := by
  have h1 := opc.isLt
  have h2 := idx.isLt
  have e : (cmdWord opc idx sel).toNat = ((0#12 ++ sel : BitVec (12 + 4)) ++ idx ++ opc).toNat := rfl
  rw [e, BitVec.toNat_append, BitVec.toNat_append, BitVec.toNat_append, ← Nat.shiftLeft_add_eq_or_of_lt h1,
    ← Nat.shiftLeft_add_eq_or_of_lt h2]
  simp [Nat.shiftLeft_eq]
  ring

@[simp] theorem opcOf_cmdWord (opc idx : BitVec 8) (sel : BitVec 4) : opcOf (cmdWord opc idx sel) = opc := by
  apply BitVec.eq_of_toNat_eq
  have := opc.isLt
  rw [opcOf, BitVec.extractLsb'_toNat, toNat_cmdWord, Nat.shiftRight_eq_div_pow]
  omega

@[simp] theorem idxOf_cmdWord (opc idx : BitVec 8) (sel : BitVec 4) : idxOf (cmdWord opc idx sel) = idx := by
  apply BitVec.eq_of_toNat_eq
  have h1 := opc.isLt
  have h2 := idx.isLt
  rw [idxOf, BitVec.extractLsb'_toNat, toNat_cmdWord, Nat.shiftRight_eq_div_pow]
  omega

@[simp] theorem selOf_cmdWord (opc idx : BitVec 8) (sel : BitVec 4) : selOf (cmdWord opc idx sel) = sel := by
  apply BitVec.eq_of_toNat_eq
  have h1 := opc.isLt
  have h2 := idx.isLt
  have h3 := sel.isLt
  rw [selOf, BitVec.extractLsb'_toNat, toNat_cmdWord, Nat.shiftRight_eq_div_pow]
  omega

@[simp] theorem rsvOf_cmdWord (opc idx : BitVec 8) (sel : BitVec 4) : rsvOf (cmdWord opc idx sel) = 0 := by
  apply BitVec.eq_of_toNat_eq
  have h1 := opc.isLt
  have h2 := idx.isLt
  have h3 := sel.isLt
  have h0 : (0 : BitVec 12).toNat = 0 := rfl
  rw [rsvOf, BitVec.extractLsb'_toNat, toNat_cmdWord, Nat.shiftRight_eq_div_pow, h0]
  omega

/-- A command word whose reserved field is 0 is made of its other fields. -/
theorem cmdWord_fields {cmd : Word} (h : rsvOf cmd = 0) : cmdWord (opcOf cmd) (idxOf cmd) (selOf cmd) = cmd := by
  apply BitVec.eq_of_toNat_eq
  have h0 := congrArg BitVec.toNat h
  have hz : (0 : BitVec 12).toNat = 0 := rfl
  have hw := cmd.isLt
  rw [rsvOf, BitVec.extractLsb'_toNat, Nat.shiftRight_eq_div_pow, hz] at h0
  rw [toNat_cmdWord, opcOf, idxOf, selOf, BitVec.extractLsb'_toNat, BitVec.extractLsb'_toNat, BitVec.extractLsb'_toNat,
    Nat.shiftRight_eq_div_pow, Nat.shiftRight_eq_div_pow, Nat.shiftRight_eq_div_pow]
  omega

end Sys2Proof
end

