-- ==== Sys2Proof/Laws/Engine.lean ====
section
/-! SUPPORT. The parts of the per-sample process, each said once: the allocator's scan, the trigger, the hint step, and
which STATUS fields they and the mixer can change. -/

namespace Sys2Proof.Machine

open Sys2Proof

/-! ### STATUS -/

/-- The mixer's loop changes no STATUS field but RCLAMP, which it only sets. -/
theorem status_mixLoop (sp : Word) (js : List Nat) : ∀ acc s, ∃ b,
    (mixLoop sp js acc s).2.status = { s.status with rclamp := s.status.rclamp || b } := by
  induction js with
  | nil => exact fun _ s => ⟨false, by simp [mixLoop]⟩
  | cons j js ih =>
    intro acc s
    obtain ⟨b, hb⟩ := ih (fadd acc (grainStep j sp s).1) (grainStep j sp s).2
    rw [mixLoop, hb]
    unfold grainStep
    dsimp only
    split
    · exact ⟨b, rfl⟩
    · exact ⟨(clampOffset s (grainAt s j).offset).2 || b, by simp [dlRead, noteRclamp, setGrain, Bool.or_assoc]⟩

theorem status_mix (sp : Word) (s : State) : ∃ b,
    (mix sp s).2.status = { s.status with rclamp := s.status.rclamp || b } := status_mixLoop _ _ _ _

/-- A trigger sets TRIG, and DROP where every slot is active. -/
theorem status_trigger (gf sp : Word) (s : State) :
    (trigger gf sp s).status = { s.status with trig := true, drop := s.status.drop || (allocScan s).isNone } := by
  have e : allocScan (setTrig true s) = allocScan s := rfl
  unfold trigger
  rw [e]
  cases allocScan s <;> simp [noteDrop, setTrig, grainSet, setGrain]

/-- Trigger generation, said once: the phase and DPREV become the wrapped new phase, and a negative difference to the
old DPREV triggers. -/
theorem generate_eq {h sp ph : Word} {s : State}
    (hp : ph = wrapPhase (fadd s.phase (fdiv (fmul (grainFreq s.params h sp) (f32 s.params.voices)) s.sr))) :
    generate h sp s = if isTrigger (fsub ph s.dprev) then
        trigger (grainFreq s.params h sp) sp { s with phase := ph, dprev := ph }
      else { s with phase := ph, dprev := ph } := by subst hp; rfl

/-- The steps of R143 before the mixer set TRIG, DROP and HINVAL only, and those only where a hint is given. -/
theorem status_hintStep (hint : Option Word) (sp : Word) (s : State) : ∃ t d v,
    (hintStep hint sp s).status =
      { s.status with trig := t, drop := s.status.drop || d, hinval := s.status.hinval || v }
    ∧ (hint = none → t = s.status.trig ∧ d = false ∧ v = false) := by
  unfold hintStep
  split
  · exact ⟨s.status.trig, false, false, by simp, fun _ => ⟨rfl, rfl, rfl⟩⟩
  · split
    · rw [generate_eq rfl]
      split
      · rw [status_trigger]
        exact ⟨true, (allocScan s).isNone, false, by simp; rfl, fun h => by simp at h⟩
      · exact ⟨s.status.trig, false, false, by simp, fun h => by simp at h⟩
    · exact ⟨s.status.trig, false, true, by simp [noteHinval], fun h => by simp at h⟩

/-- What a PROCESS does to STATUS: the sticky bits can only be set, and DROP and HINVAL only where a hint is given; TRIG
is cleared where none is. -/
theorem status_engineProcess (x p : Word) (hint : Option Word) (s : State) : ∃ t d v r,
    (engineProcess x p hint s).2.status =
      { s.status with
        pclamp := s.status.pclamp || pitchClamped s.params p
        trig := t
        drop := s.status.drop || d
        hinval := s.status.hinval || v
        rclamp := s.status.rclamp || r }
    ∧ (hint = none → t = false ∧ d = false ∧ v = false) := by
  rw [engineProcess_eq]
  unfold engineBody
  obtain ⟨r, hr⟩ := status_mix (pitchToSpeed s.params (pitchUsed s.params p))
    (hintStep hint (pitchToSpeed s.params (pitchUsed s.params p)) (setTrig false (notePclamp (pitchClamped s.params p) s)))
  obtain ⟨t, d, v, ht, hn⟩ := status_hintStep hint (pitchToSpeed s.params (pitchUsed s.params p))
    (setTrig false (notePclamp (pitchClamped s.params p) s))
  refine ⟨t, d, v, r, ?_, fun h => ⟨by simpa using (hn h).1, (hn h).2⟩⟩
  show (mix _ _).2.status = _
  rw [hr, ht]
  simp

/-! ### The allocator -/

theorem find_range_eq_findIdx (gs : List Grain) (q : Grain → Bool) (d : Grain) :
    (List.range gs.length).find? (fun j => q (gs.getD j d)) = gs.findIdx? q := by
  induction gs with
  | nil => rfl
  | cons g gs ih =>
    rw [List.length_cons, List.range_succ_eq_map, List.find?_cons, List.findIdx?_cons]
    cases hq : q g
    · simp only [List.getD_cons_zero, hq, Bool.false_eq_true, if_false]
      rw [List.find?_map, ← ih]
      rfl
    · simp [hq]

/-- The scan finds the first free slot of the pool (R132). -/
theorem allocScan_eq {s : State} (h : s.grains.length = s.params.pool) :
    allocScan s = s.grains.findIdx? (fun g => !g.active) := by
  unfold allocScan
  rw [← h]
  exact find_range_eq_findIdx s.grains (fun g => !g.active) Grain.reset

/-- The scan fails exactly when every slot is active. -/
theorem allocScan_eq_none {s : State} (h : s.grains.length = s.params.pool) :
    allocScan s = none ↔ ∀ g ∈ s.grains, g.active = true := by
  rw [allocScan_eq h, List.findIdx?_eq_none_iff]; simp

/-- A slot the scan finds is free, in the pool, and every slot before it is active. -/
theorem allocScan_eq_some {s : State} (h : s.grains.length = s.params.pool) {j : Nat} (hj : allocScan s = some j) :
    ∃ g, s.grains[j]? = some g ∧ g.active = false
      ∧ ∀ (l : Nat) (g' : Grain), l < j → s.grains[l]? = some g' → g'.active = true := by
  rw [allocScan_eq h, List.findIdx?_eq_some_iff_getElem] at hj
  obtain ⟨h1, h2, h3⟩ := hj
  refine ⟨_, List.getElem?_eq_getElem h1, by simpa using h2, ?_⟩
  intro l g' hl hg
  obtain ⟨hl', rfl⟩ := List.getElem?_eq_some_iff.1 hg
  simpa using h3 l hl

/-! ### What sets a warning -/

/-- The steps of R143 before the mixer, said once for a given hint: TRIG and DROP follow the trigger, HINVAL the hint's
check, and a trigger sets the slot the scan finds. -/
theorem hintStep_some (h p : Word) (s : State) :
    (hintStep (some h) (pitchToSpeed s.params (pitchUsed s.params p)) s).status = { s.status with
      trig := s.status.trig || detectsTrigger s p h
      drop := s.status.drop || (detectsTrigger s p h && (allocScan s).isNone)
      hinval := s.status.hinval || !(flt posZero h && fle h (fmul s.sr half)) }
    ∧ (hintStep (some h) (pitchToSpeed s.params (pitchUsed s.params p)) s).grains =
      (match (detectsTrigger s p h, allocScan s) with
      | (true, some j) =>
        let sp := pitchToSpeed s.params (pitchUsed s.params p)
        let gf := grainFreq s.params h sp
        s.grains.set j (triggered s.sr gf (windowSize gf) sp)
      | _ => s.grains) := by
  generalize hsp : pitchToSpeed s.params (pitchUsed s.params p) = sp
  generalize hph : wrapPhase (fadd s.phase (fdiv (fmul (grainFreq s.params h sp) (f32 s.params.voices)) s.sr)) = ph
  have hd : detectsTrigger s p h = (hintValid s.sr h && isTrigger (fsub ph s.dprev)) := by subst hsp hph; rfl
  rw [hd, show (flt posZero h && fle h (fmul s.sr half)) = hintValid s.sr h from rfl]
  unfold hintStep
  dsimp only
  cases hv : hintValid s.sr h
  · simp [noteHinval]
  · rw [if_pos rfl, generate_eq hph.symm]
    cases ht : isTrigger (fsub ph s.dprev)
    · simp
    · rw [if_pos rfl, status_trigger]
      refine ⟨by simp; rfl, ?_⟩
      have e : allocScan (setTrig true { s with phase := ph, dprev := ph }) = allocScan s := rfl
      unfold trigger
      rw [e]
      cases allocScan s <;> rfl

theorem allocScan_isNone {s : State} (h : s.grains.length = s.params.pool) :
    (allocScan s).isNone = s.grains.all (fun g => g.active) := by
  rw [Bool.eq_iff_iff, Option.isNone_iff_eq_none, allocScan_eq_none h]; simp

/-- A slot of which `q` is false, set to another grain, adds that grain's `q`. -/
theorem any_set {gs : List Grain} {j : Nat} {g0 g : Grain} (q : Grain → Bool) (h : gs[j]? = some g0)
    (h0 : q g0 = false) : (gs.set j g).any q = (gs.any q || q g) := by
  induction gs generalizing j with
  | nil => simp at h
  | cons a as ih =>
    cases j with
    | zero => simp at h; subst h; simp [h0, Bool.or_comm]
    | succ j => simp at h; simp [ih h, Bool.or_assoc]

/-- The clamped reads of the pool after the hint step: the pool's own, and the one of the grain a trigger set. -/
theorem any_grainClamps_hintStep (x h p : Word) {s : State} (hl : s.grains.length = s.params.pool) :
    (hintStep (some h) (pitchToSpeed s.params (pitchUsed s.params p)) s).grains.any (grainClamps s) =
      (warnings s (.processH x p h)).rclamp := by
  rw [(hintStep_some h p s).2]
  unfold warnings
  dsimp only
  cases detectsTrigger s p h
  · simp
  · cases ha : allocScan s with
    | none =>
      have h3 : s.grains.any (fun g => !g.active) = false := by simpa using (allocScan_eq_none hl).1 ha
      simp [h3]
    | some j =>
      obtain ⟨g0, hg, hf, -⟩ := allocScan_eq_some hl ha
      have h3 : s.grains.any (fun g => !g.active) = true := by
        simp only [List.any_eq_true, Bool.not_eq_true']; exact ⟨g0, List.mem_of_getElem? hg, hf⟩
      dsimp only
      rw [any_set _ hg (by simp [grainClamps, hf]), h3]
      rfl

/-- What a PROCESS_H does to STATUS, exactly: TRIG is the trigger it detects, and each warning is set by its cause. -/
theorem status_processH (x p h : Word) {s : State} (hl : s.grains.length = s.params.pool) :
    (engineProcess x p (some h) s).2.status = { s.status with
      trig := detectsTrigger s p h
      drop := s.status.drop || (warnings s (.processH x p h)).drop
      pclamp := s.status.pclamp || (warnings s (.processH x p h)).pclamp
      hinval := s.status.hinval || (warnings s (.processH x p h)).hinval
      rclamp := s.status.rclamp || (warnings s (.processH x p h)).rclamp } := by
  rw [engineProcess_eq]
  unfold engineBody
  generalize hs0 : setTrig false (notePclamp (pitchClamped s.params p) s) = s0
  have h1 := (hintStep_some h p s0).1
  have h2 := any_grainClamps_hintStep x h p (s := s0) (by subst hs0; exact hl)
  have hb := sameBlock_hintStep (some h) (pitchToSpeed s.params (pitchUsed s.params p)) s0
  have hg := (hintStep_some h p s0).2
  rw [show s0.params = s.params by subst hs0; rfl] at h1 h2 hg
  generalize hintStep (some h) (pitchToSpeed s.params (pitchUsed s.params p)) s0 = s1 at h1 h2 hb hg ⊢
  have hl1 : s1.grains.length = s1.params.pool := by
    rw [hg, hb.params]
    subst hs0
    split <;> simpa [setTrig, notePclamp] using hl
  show (mix _ s1).2.status = _
  rw [mix_eq _ hl1, grainClamps_congr hb.n, h2]
  show ({ s1.status with rclamp := s1.status.rclamp || (warnings s0 (.processH x p h)).rclamp } : Status) = _
  rw [h1, allocScan_isNone (by subst hs0; exact hl)]
  subst hs0
  simp [setTrig, notePclamp, warnings]
  exact ⟨rfl, rfl, rfl, rfl⟩

/-- What a PROCESS_N does to STATUS, exactly. -/
theorem status_processN (x p : Word) {s : State} (hl : s.grains.length = s.params.pool) :
    (engineProcess x p none s).2.status = { s.status with
      trig := false
      pclamp := s.status.pclamp || (warnings s (.processN x p)).pclamp
      rclamp := s.status.rclamp || (warnings s (.processN x p)).rclamp } := by
  rw [engineProcess_eq]
  unfold engineBody
  generalize hs0 : setTrig false (notePclamp (pitchClamped s.params p) s) = s0
  show (mix _ s0).2.status = _
  rw [mix_eq _ (by subst hs0; exact hl)]
  subst hs0
  rfl

/-! ### The write -/

/-- The write stores one word in the slot of WPTR and moves WPTR on in the ring (R91). -/
theorem memRead_dlWrite {hi : Nat} {s : State} (ok : Memory.wf hi s.buf = true) (x : Word) (k : Nat) :
    memRead (dlWrite x s).buf k = if k = s.wptr.toNat then x else memRead s.buf k := memRead_memWrite ok _ _ _

theorem wptr_dlWrite {s : State} (h : s.wptr.toNat < s.n.toNat) (x : Word) :
    (dlWrite x s).wptr.toNat = if s.wptr.toNat + 1 = s.n.toNat then 0 else s.wptr.toNat + 1 := by
  have hn := s.n.isLt
  have e : (dlWrite x s).wptr.toNat = (s.wptr.toNat + 1) % s.n.toNat % 2 ^ 32 := BitVec.toNat_ofNat _ _
  rw [e]
  split
  · next hs => rw [hs, Nat.mod_self]; rfl
  · rw [Nat.mod_eq_of_lt (show s.wptr.toNat + 1 < s.n.toNat by omega), Nat.mod_eq_of_lt (by omega)]

theorem dlWrite_eq (x : Word) (s : State) :
    dlWrite x s = { s with buf := (dlWrite x s).buf, wptr := (dlWrite x s).wptr } := rfl

end Sys2Proof.Machine
end

