-- ==== Sys2Proof/Laws/Voice.lean ====
section
/-! SUPPORT. The values the rules bound: the wrapped phase, a window's lifetime, the counters of a grain, the clamped
read offset. -/

namespace Sys2Proof.Machine

open Sys2Proof

theorem inUnit_zero : InUnit posZero := by unfold InUnit; decide

/-- Every phase the wrap answers lies in [0, 1) (R103). -/
theorem wrapPhase_inUnit (x : Word) : InUnit (wrapPhase x) := by
  unfold wrapPhase
  by_cases h1 : (isNaN x || isInf x) = true
  · rw [if_pos h1]; exact inUnit_zero
  · rw [if_neg h1]
    simp only [Bool.or_eq_true, not_or, Bool.not_eq_true] at h1
    by_cases h2 : (fle posZero x && flt x one) = true
    · rw [if_pos h2]; simpa [InUnit] using h2
    · rw [if_neg h2]
      have hf := isFinite_of_not h1.1 h1.2
      obtain ⟨f1, f2, f3⟩ := ffloor_spec hf
      have hn := fsub_nonneg hf f1 (by rw [f3]; exact floorInt_le x) (by rw [f2]; cases signOf x <;> rfl)
      by_cases h3 : fle one (fsub x (ffloor x)) = true
      · dsimp only; rw [if_pos h3]; exact inUnit_zero
      · dsimp only; rw [if_neg h3]
        exact ⟨fle_zero_of_sign hn.1 hn.2, flt_of_not_fle (by decide) hn.1 (by simpa using h3)⟩

/-- A lifetime lies in 1 to LIFE_MAX (R112). -/
theorem lifetime_bounds (sr ws : Word) : 1 ≤ lifetime sr ws ∧ lifetime sr ws ≤ Config.lifeMax := by
  unfold lifetime
  generalize fdiv (fmul ws sr) thousand = lf
  dsimp only
  by_cases h1 : isNaN lf = true
  · rw [if_pos h1]; decide
  · rw [if_neg h1]
    by_cases h2 : fle (f32 Config.lifeMax) lf = true
    · rw [if_pos h2]; decide
    · rw [if_neg h2]
      split
      · next h3 =>
        have hn : isNaN (f32 Config.lifeMax) = false := f32Signed_not_nan _ _
        have h4 : fix lf < fix (f32 Config.lifeMax) := by
          rw [← flt_iff (by simpa using h1) hn]; exact flt_of_not_fle hn (by simpa using h1) (by simpa using h2)
        rw [fix_f32 (n := Config.lifeMax) (by decide)] at h4
        refine ⟨by omega, ?_⟩
        unfold rneInt at h3 ⊢
        split at h3
        · omega
        · next hs =>
          rw [if_neg hs]
          have hu : unitsOfMag (magOf lf) < Config.lifeMax * unit := by
            unfold fix at h4; rw [if_neg hs] at h4; exact_mod_cast h4
          have := halfEven_le_div_succ (unitsOfMag (magOf lf)) unit
          have : unitsOfMag (magOf lf) / unit < Config.lifeMax := Nat.div_lt_of_lt_mul (by rw [Nat.mul_comm]; exact hu)
          omega
      · decide

theorem grainOk_reset : GrainOk Grain.reset := ⟨by decide, by decide, by decide⟩

theorem toNat_lifetime (sr ws : Word) : (BitVec.ofNat 32 (lifetime sr ws)).toNat = lifetime sr ws := by
  have := (lifetime_bounds sr ws).2
  rw [BitVec.toNat_ofNat, Nat.mod_eq_of_lt]
  unfold Config.lifeMax at this; omega

/-- The grain a trigger leaves meets R39's bounds (R114). -/
theorem grainOk_triggered (sr f ws sp : Word) : GrainOk (triggered sr f ws sp) := by
  have h := lifetime_bounds sr ws
  have e : (triggered sr f ws sp).life.toNat = lifetime sr ws := toNat_lifetime sr ws
  have c : (triggered sr f ws sp).count.toNat = 0 := rfl
  exact ⟨by omega, by omega, by intro; omega⟩

/-- COUNT of an active grain counts on without wrapping (R39, R117). -/
theorem toNat_count_succ {g : Grain} (ok : GrainOk g) (ha : g.active = true) :
    (g.count + 1).toNat = g.count.toNat + 1 := by
  have h1 := ok.count_lt ha
  have h2 := ok.life_le
  unfold Config.lifeMax at h2
  rw [BitVec.toNat_add]
  have : (1 : BitVec 32).toNat = 1 := rfl
  rw [this, Nat.mod_eq_of_lt (by omega)]

/-- A step keeps R39's bounds of a grain (R117). -/
theorem grainOk_after {g : Grain} (sp : Word) (ok : GrainOk g) : GrainOk (grainAfter sp g) := by
  unfold grainAfter
  split
  · next ha =>
    have h1 := ok.count_lt ha
    have h2 := toNat_count_succ ok ha
    refine ⟨?_, ok.life_le, ?_⟩
    · show (g.count + 1).toNat ≤ g.life.toNat; omega
    · intro h
      have : g.count + 1 < g.life := by simpa [advanced] using h
      exact this
  · exact ok

/-- The integer part of a clamped offset lies in 0 to N - 2 (R93, R97). -/
theorem floorInt_clampOffset {s : State} (h2 : 2 ≤ s.n.toNat) (hn : s.n.toNat ≤ 2 ^ 24) (o : Word) :
    isFinite (clampOffset s o).1 = true ∧ 0 ≤ floorInt (clampOffset s o).1
      ∧ floorInt (clampOffset s o).1 ≤ (s.n.toNat : Int) - 2 := by
  have hm : fix (maxOffset s) = ((s.n.toNat - 2 : Nat) : Int) * unit := by
    unfold maxOffset; rw [fix_f32 (by omega)]; push_cast; rfl
  have hmf : isFinite (maxOffset s) = true := f32Signed_finite (by omega)
  have hup : (0 : Int) < unit := by have := unit_pos; omega
  have key : ∀ w : Word, 0 ≤ fix w → fix w ≤ fix (maxOffset s) →
      0 ≤ floorInt w ∧ floorInt w ≤ (s.n.toNat : Int) - 2 := by
    intro w h0 h1
    refine ⟨Int.ediv_nonneg h0 (by omega), ?_⟩
    rw [hm] at h1
    have : floorInt w ≤ ((s.n.toNat - 2 : Nat) : Int) := by
      unfold floorInt
      have := Int.ediv_le_ediv hup h1
      rwa [Int.mul_ediv_cancel _ (by omega)] at this
    omega
  have hz : fix posZero = 0 := by decide
  have hm0 : 0 ≤ fix (maxOffset s) := by rw [hm]; positivity
  rcases clampOffset_cases s o with ⟨hc, ho1, ho2⟩ | hc | hc
  · rw [hc]
    have hn := fle_not_nan ho2
    rw [fle_iff (by decide) (fle_not_nan ho1).2, hz] at ho1
    have ho3 := ho2
    rw [fle_iff hn.1 hn.2] at ho2
    refine ⟨?_, key o ho1 ho2⟩
    refine isFinite_of_not hn.1 ?_
    by_contra hi
    have hi : isInf o = true := by simpa using hi
    have h1 : ordKey o ≤ ordKey (maxOffset s) := ordKey_le_iff_fix.2 ho2
    have h3 : ordKey (maxOffset s) = magOf (maxOffset s) := by
      unfold ordKey maxOffset f32; rw [signOf_f32Signed]; rfl
    have h4 := isFinite_iff.1 hmf
    have h5 : signOf o = false := by
      by_contra hs
      have hs : signOf o = true := by simpa using hs
      have : fix o < 0 := by
        unfold fix; rw [if_pos hs, isInf_iff.1 hi]; decide
      omega
    unfold ordKey at h1
    rw [if_neg (by simp [h5]), isInf_iff.1 hi] at h1
    omega
  · rw [hc]; exact ⟨by decide, key posZero (by rw [hz]) (by rw [hz]; exact hm0)⟩
  · rw [hc]; exact ⟨hmf, key _ hm0 le_rfl⟩

end Sys2Proof.Machine
end

