-- ==== Sys2Proof/Laws/Invariant.lean ====
section
/-! SUPPORT. The operations and the invariant: each keeps `Inv`, said once; reset and construction establish it. -/

namespace Sys2Proof.Machine

open Sys2Proof

/-- ILL and LAST_ERR agree. -/
def ErrorsOk (st : Status) : Prop := st.ill = true ↔ st.lastErr ≠ .ok

theorem errorsOk_noteRejection {code : Rsp} (h : code ≠ .ok) (st : Status) : ErrorsOk (noteRejection code st) := by
  simp [ErrorsOk, noteRejection, h]

theorem errorsOk_clearSticky (st : Status) : ErrorsOk (clearSticky st) := by simp [ErrorsOk, clearSticky]

/-- A state that differs in STATUS, the host's inputs and the response only. -/
theorem Inv.of_status {s t : State} (h : Inv s) (st : Status) (e : List HostInput) (r : Option Response)
    (ht : t = { s with status := st, inputs := e, response := r }) (ok : ErrorsOk st) : Inv t := by
  subst ht; exact { h with errors := ok }

theorem Inv.respond {s : State} (h : Inv s) (v : Word) : Inv (respond v s) := { h with }

theorem Inv.rejected {s : State} (h : Inv s) {code : Rsp} (hc : code ≠ .ok) : Inv (rejected code s) :=
  { h with errors := errorsOk_noteRejection hc s.status }

theorem Inv.noteRclamp {s : State} (h : Inv s) (b : Bool) : Inv (noteRclamp b s) := { h with }
theorem Inv.notePclamp {s : State} (h : Inv s) (b : Bool) : Inv (notePclamp b s) := { h with }
theorem Inv.setTrig {s : State} (h : Inv s) (b : Bool) : Inv (setTrig b s) := { h with }
theorem Inv.noteDrop {s : State} (h : Inv s) : Inv (noteDrop s) := { h with }
theorem Inv.noteHinval {s : State} (h : Inv s) : Inv (noteHinval s) := { h with }
theorem Inv.clearSticky {s : State} (h : Inv s) : Inv { s with status := clearSticky s.status } :=
  { h with errors := errorsOk_clearSticky s.status }

/-! ### While configured -/

variable {s : State}

theorem Inv.setGrain (h : Inv s) (hc : s.cfg = true) (j : Nat) {g : Grain} (hg : GrainOk g) : Inv (setGrain j g s) :=
  { h with
    pool := by simp [h.pool]
    grains := fun g' hg' => by
      rcases List.mem_or_eq_of_mem_set hg' with h1 | h1
      · exact h.grains g' h1
      · rw [h1]; exact hg
    unconfigured := fun hf => by simp [hc] at hf }

theorem Inv.dlWrite (h : Inv s) (hc : s.cfg = true) (x : Word) : Inv (dlWrite x s) := by
  obtain ⟨h1, h2, h3, h4⟩ := h.ring hc
  have hw : (Machine.dlWrite x s).wptr.toNat = (s.wptr.toNat + 1) % s.n.toNat := by
    have := Nat.mod_lt (s.wptr.toNat + 1) (show s.n.toNat > 0 by omega)
    have := s.n.isLt
    simp [Machine.dlWrite]
    omega
  exact { h with
    mem := Memory.wf_memWrite h.mem (by omega) x
    ring := fun _ => ⟨h1, by rw [hw]; exact Nat.mod_lt _ (by show s.n.toNat > 0; omega), h3, h4⟩
    unconfigured := fun hf => by simp [Machine.dlWrite, hc] at hf }

theorem Inv.phasorStep (h : Inv s) (hc : s.cfg = true) (f : Word) : Inv (phasorStep f s).2 :=
  { h with
    phase := wrapPhase_inUnit _
    unconfigured := fun hf => by simp [Machine.phasorStep, hc] at hf }

theorem Inv.deltaStep (h : Inv s) (hc : s.cfg = true) (v : Word) : Inv (deltaStep v s).2 :=
  { h with unconfigured := fun hf => by simp [Machine.deltaStep, hc] at hf }

theorem Inv.grainSet (h : Inv s) (hc : s.cfg = true) (j : Nat) (f ws sp : Word) : Inv (grainSet j f ws sp s).2 :=
  h.setGrain hc j (grainOk_triggered _ _ _ _)

theorem Inv.grainAt (h : Inv s) (j : Nat) : GrainOk (grainAt s j) := by
  rcases Nat.lt_or_ge j s.grains.length with hj | hj
  · exact h.grains _ (grainAt_mem hj)
  · have : Machine.grainAt s j = Grain.reset := by simp [Machine.grainAt, List.getElem?_eq_none hj]
    rw [this]; exact grainOk_reset

theorem Inv.grainStep (h : Inv s) (hc : s.cfg = true) (j : Nat) (sp : Word) : Inv (grainStep j sp s).2 := by
  unfold Machine.grainStep
  dsimp only
  split
  · exact h
  · next ha =>
    have hg := grainOk_after sp (h.grainAt j)
    rw [grainAfter, if_pos (by simpa using ha)] at hg
    exact (h.noteRclamp _).setGrain hc _ hg

theorem Inv.mixLoop (sp : Word) (js : List Nat) : ∀ {s : State} (acc : Word), Inv s → s.cfg = true →
    Inv (mixLoop sp js acc s).2 := by
  induction js with
  | nil => exact fun _ h _ => h
  | cons j js ih =>
    intro s acc h hc
    exact ih _ (h.grainStep hc j sp) ((sameBlock_grainStep j sp s).cfg.trans hc)

theorem Inv.mix (h : Inv s) (hc : s.cfg = true) (sp : Word) : Inv (mix sp s).2 := Inv.mixLoop sp _ _ h hc

theorem Inv.trigger (h : Inv s) (hc : s.cfg = true) (gf sp : Word) : Inv (trigger gf sp s) := by
  unfold Machine.trigger
  split
  · exact (h.setTrig true).noteDrop
  · exact (h.setTrig true).grainSet hc _ _ _ _

theorem Inv.hintStep (h : Inv s) (hc : s.cfg = true) (hint : Option Word) (sp : Word) : Inv (hintStep hint sp s) := by
  unfold Machine.hintStep
  split
  · exact h
  · split
    · unfold generate
      have hd := (h.phasorStep hc (fmul (grainFreq s.params ‹Word› sp) (f32 s.params.voices))).deltaStep hc
        (Machine.phasorStep (fmul (grainFreq s.params ‹Word› sp) (f32 s.params.voices)) s).1
      dsimp only
      split
      · exact hd.trigger hc _ _
      · exact hd
    · exact h.noteHinval

theorem Inv.engineProcess (h : Inv s) (hc : s.cfg = true) (x p : Word) (hint : Option Word) :
    Inv (engineProcess x p hint s).2 := by
  unfold Machine.engineProcess
  have h1 := (((h.notePclamp (pitchClamped s.params p)).setTrig false).hintStep hc hint
    (pitchToSpeed s.params (pitchUsed s.params p)))
  have c1 := (sameBlock_hintStep hint (pitchToSpeed s.params (pitchUsed s.params p))
    (Machine.setTrig false (Machine.notePclamp (pitchClamped s.params p) s))).cfg.trans hc
  exact (h1.mix c1 _).dlWrite ((sameBlock_mix _ _).cfg.trans c1) x

/-! ### Reset -/

theorem inv_resetWith {p : Params} (h : paramsOk p = true) : Inv (State.resetWith p) where
  params := h
  pool := List.length_replicate
  grains := fun g hg => by rw [List.eq_of_mem_replicate hg]; exact grainOk_reset
  phase := inUnit_zero
  mem := rfl
  ring := fun hc => absurd hc Bool.false_ne_true
  unconfigured := fun _ => ⟨rfl, rfl, rfl, rfl, rfl, fun g hg => List.eq_of_mem_replicate hg⟩
  errors := by simp [State.resetWith, Status.reset]

theorem Inv.inputs {s : State} (h : Inv s) (e : List HostInput) (r : Option Response) :
    Inv { s with inputs := e, response := r } := { h with }

end Sys2Proof.Machine
end

