-- ==== Sys2Proof/Laws/PerInstr.lean ====
section
/-! SUPPORT. The family TableRow: every command is encoded on its own row of spec/opcode_table.json. -/

namespace Sys2Proof.Laws

open Sys2Proof

/-- A row's mask and match (spec/opcode_table.json). -/
def tableRow : Instr → Word × Word
  | .nop => (0xFFFFFFFF, 0x00000000)
  | .init _ => (0xFFFFFFFF, 0x00000001)
  | .processN _ _ => (0xFFFFFFFF, 0x00000002)
  | .processH _ _ _ => (0xFFFFFFFF, 0x00000003)
  | .rdreg _ => (0xFFFF00FF, 0x00000004)
  | .clrstat => (0xFFFFFFFF, 0x00000005)
  | .dlWrite _ => (0xFFFFFFFF, 0x00000010)
  | .dlRead _ => (0xFFFFFFFF, 0x00000011)
  | .dlPeek _ => (0xFFFFFFFF, 0x00000012)
  | .phStep _ => (0xFFFFFFFF, 0x00000020)
  | .dtStep _ => (0xFFFFFFFF, 0x00000021)
  | .grSet _ _ _ _ => (0xFFFF00FF, 0x00000030)
  | .grStep _ _ => (0xFFFF00FF, 0x00000031)
  | .grFree _ => (0xFFFF00FF, 0x00000032)
  | .grRd _ _ => (0xFFF000FF, 0x00000033)
  | .p2s _ => (0xFFFFFFFF, 0x00000040)
  | .gfreq _ _ => (0xFFFFFFFF, 0x00000041)
  | .wsize _ => (0xFFFFFFFF, 0x00000042)
  | .alloc => (0xFFFFFFFF, 0x00000043)
  | .mix _ => (0xFFFFFFFF, 0x00000044)

/-- The encoded command word lies on the command's row. -/
def TableRow.Statement (i : Instr) : Prop := (encode i).cmd &&& (tableRow i).1 = (tableRow i).2

/-- Every IDX leaves a masked word as it is. -/
theorem idx_masked (opc idx : BitVec 8) : cmdWord opc idx 0 &&& 0xFFFF00FF = cmdWord opc 0 0 := by
  unfold cmdWord
  ext i hi
  rw [← BitVec.getLsbD_eq_getElem, ← BitVec.getLsbD_eq_getElem]
  simp only [BitVec.getLsbD_and, BitVec.getLsbD_append]
  interval_cases i <;> simp

/-- Every IDX and SEL leaves a masked word as it is. -/
theorem idx_sel_masked (opc idx : BitVec 8) (sel : BitVec 4) : cmdWord opc idx sel &&& 0xFFF000FF = cmdWord opc 0 0 := by
  unfold cmdWord
  ext i hi
  rw [← BitVec.getLsbD_eq_getElem, ← BitVec.getLsbD_eq_getElem]
  simp only [BitVec.getLsbD_and, BitVec.getLsbD_append]
  interval_cases i <;> simp

theorem TableRow.nop : TableRow.Statement .nop := by unfold TableRow.Statement; decide
theorem TableRow.init (sampleRate : Word) : TableRow.Statement (.init sampleRate) := by
  show cmdWord 0x01 0 0 &&& 0xFFFFFFFF = 0x00000001; decide
theorem TableRow.processN (input pitch : Word) : TableRow.Statement (.processN input pitch) := by
  show cmdWord 0x02 0 0 &&& 0xFFFFFFFF = 0x00000002; decide
theorem TableRow.processH (input pitch hint : Word) : TableRow.Statement (.processH input pitch hint) := by
  show cmdWord 0x03 0 0 &&& 0xFFFFFFFF = 0x00000003; decide
theorem TableRow.rdreg (reg : BitVec 8) : TableRow.Statement (.rdreg reg) := (idx_masked 0x04 reg).trans (show cmdWord 0x04 0 0 = 0x00000004 by decide)
theorem TableRow.clrstat : TableRow.Statement .clrstat := by unfold TableRow.Statement; decide
theorem TableRow.dlWrite (sample : Word) : TableRow.Statement (.dlWrite sample) := by
  show cmdWord 0x10 0 0 &&& 0xFFFFFFFF = 0x00000010; decide
theorem TableRow.dlRead (offset : Word) : TableRow.Statement (.dlRead offset) := by
  show cmdWord 0x11 0 0 &&& 0xFFFFFFFF = 0x00000011; decide
theorem TableRow.dlPeek (slotNo : Word) : TableRow.Statement (.dlPeek slotNo) := by
  show cmdWord 0x12 0 0 &&& 0xFFFFFFFF = 0x00000012; decide
theorem TableRow.phStep (frequency : Word) : TableRow.Statement (.phStep frequency) := by
  show cmdWord 0x20 0 0 &&& 0xFFFFFFFF = 0x00000020; decide
theorem TableRow.dtStep (value : Word) : TableRow.Statement (.dtStep value) := by
  show cmdWord 0x21 0 0 &&& 0xFFFFFFFF = 0x00000021; decide
theorem TableRow.grSet (slot : BitVec 8) (frequency windowSize speed : Word) :
    TableRow.Statement (.grSet slot frequency windowSize speed) := (idx_masked 0x30 slot).trans (show cmdWord 0x30 0 0 = 0x00000030 by decide)
theorem TableRow.grStep (slot : BitVec 8) (speed : Word) : TableRow.Statement (.grStep slot speed) :=
  (idx_masked 0x31 slot).trans (show cmdWord 0x31 0 0 = 0x00000031 by decide)
theorem TableRow.grFree (slot : BitVec 8) : TableRow.Statement (.grFree slot) := (idx_masked 0x32 slot).trans (show cmdWord 0x32 0 0 = 0x00000032 by decide)
theorem TableRow.grRd (slot : BitVec 8) (field : BitVec 4) : TableRow.Statement (.grRd slot field) :=
  (idx_sel_masked 0x33 slot field).trans (show cmdWord 0x33 0 0 = 0x00000033 by decide)
theorem TableRow.p2s (pitch : Word) : TableRow.Statement (.p2s pitch) := by
  show cmdWord 0x40 0 0 &&& 0xFFFFFFFF = 0x00000040; decide
theorem TableRow.gfreq (hint speed : Word) : TableRow.Statement (.gfreq hint speed) := by
  show cmdWord 0x41 0 0 &&& 0xFFFFFFFF = 0x00000041; decide
theorem TableRow.wsize (grainFreq : Word) : TableRow.Statement (.wsize grainFreq) := by
  show cmdWord 0x42 0 0 &&& 0xFFFFFFFF = 0x00000042; decide
theorem TableRow.alloc : TableRow.Statement .alloc := by unfold TableRow.Statement; decide
theorem TableRow.mix (speed : Word) : TableRow.Statement (.mix speed) := by
  show cmdWord 0x44 0 0 &&& 0xFFFFFFFF = 0x00000044; decide

end Sys2Proof.Laws
end

