-- ==== Sys2Proof/Laws/Rounding.lean ====
section
/-! SUPPORT. Signs, magnitudes and orders of products, quotients and integral parts of non-negative words. -/

namespace Sys2Proof.Machine

open Sys2Proof

/-- The words that are +0.0, positive or +inf. -/
def NonNeg (w : Word) : Prop := isNaN w = false ∧ signOf w = false

theorem NonNeg.fix_eq {w : Word} (h : NonNeg w) : fix w = (unitsOfMag (magOf w) : Int) := by
  unfold fix; rw [h.2]; simp

theorem NonNeg.fle_iff {a b : Word} (ha : NonNeg a) (hb : NonNeg b) : fle a b = true ↔ magOf a ≤ magOf b := by
  rw [Machine.fle_iff ha.1 hb.1, ha.fix_eq, hb.fix_eq, Nat.cast_le, unitsOfMag_le_iff]

theorem NonNeg.flt_iff {a b : Word} (ha : NonNeg a) (hb : NonNeg b) : flt a b = true ↔ magOf a < magOf b := by
  rw [Machine.flt_iff ha.1 hb.1, ha.fix_eq, hb.fix_eq, Nat.cast_lt, unitsOfMag_lt_iff]

theorem nonNeg_pack {m : Nat} (h : m ≤ infMag) : NonNeg (pack false m) ∧ magOf (pack false m) = m := by
  have h31 : m < 2 ^ 31 := by unfold infMag at h; omega
  refine ⟨⟨?_, signOf_pack h31⟩, magOf_pack h31⟩
  unfold isNaN; rw [magOf_pack h31]; simp; omega

theorem flt_zero_iff {w : Word} : flt posZero w = true ↔ NonNeg w ∧ 0 < magOf w := by
  have hz : ordKey posZero = 0 := by decide
  have hzn : isNaN posZero = false := by decide
  unfold NonNeg flt
  rw [hzn, hz]
  unfold ordKey
  cases isNaN w <;> cases signOf w <;> simp

theorem fle_zero_iff {w : Word} : fle posZero w = true ↔ isNaN w = false ∧ (signOf w = false ∨ magOf w = 0) := by
  have hz : ordKey posZero = 0 := by decide
  have hzn : isNaN posZero = false := by decide
  unfold fle
  rw [hzn, hz]
  unfold ordKey
  cases isNaN w <;> cases signOf w <;> simp

theorem isFinite_of_nonNeg {w : Word} (h : NonNeg w) (hi : isInf w = false) : isFinite w = true := isFinite_of_not h.1 hi

/-- The quotient of a non-negative and a positive finite word. -/
theorem fdiv_pos {a b : Word} (ha : NonNeg a) (hfa : isFinite a = true) (hb : NonNeg b) (hfb : isFinite b = true)
    (h0 : 0 < magOf b) : NonNeg (fdiv a b)
      ∧ magOf (fdiv a b) = roundMag (unitsOfMag (magOf a) * unit) (unitsOfMag (magOf b)) := by
  have e : fdiv a b = pack false (roundMag (unitsOfMag (magOf a) * unit) (unitsOfMag (magOf b))) := by
    unfold fdiv
    simp [ha.1, hb.1, not_inf_of_finite hfa, not_inf_of_finite hfb, Nat.ne_of_gt h0, ha.2, hb.2]
  rw [e]
  exact nonNeg_pack (roundMag_le_infMag _ _)

/-- The product of non-negative finite words. -/
theorem fmul_pos {a b : Word} (ha : NonNeg a) (hfa : isFinite a = true) (hb : NonNeg b) (hfb : isFinite b = true) :
    NonNeg (fmul a b) ∧ magOf (fmul a b) = roundMag (unitsOfMag (magOf a) * unitsOfMag (magOf b)) unit := by
  have e : fmul a b = pack false (roundMag (unitsOfMag (magOf a) * unitsOfMag (magOf b)) unit) := by
    unfold fmul
    simp [ha.1, hb.1, not_inf_of_finite hfa, not_inf_of_finite hfb, ha.2, hb.2]
  rw [e]
  exact nonNeg_pack (roundMag_le_infMag _ _)

/-- The sum of non-negative finite words. -/
theorem fadd_pos {a b : Word} (ha : NonNeg a) (hfa : isFinite a = true) (hb : NonNeg b) (hfb : isFinite b = true) :
    NonNeg (fadd a b) ∧ magOf (fadd a b) = roundMag (unitsOfMag (magOf a) + unitsOfMag (magOf b)) 1 := by
  rw [fadd_finite hfa hfb, ha.fix_eq, hb.fix_eq]
  refine ⟨⟨roundInt_not_nan _ _, ?_⟩, ?_⟩
  · rw [signOf_roundInt, ha.2]
    split
    · rfl
    · simp; omega
  · rw [magOf_roundInt, ← Nat.cast_add, Int.natAbs_natCast]

theorem fneg_fneg (w : Word) : fneg (fneg w) = w :=
  word_ext (by rw [signOf_fneg, signOf_fneg, Bool.not_not]) (by rw [magOf_fneg, magOf_fneg])

theorem fneg_f32Signed (neg : Bool) (n : Nat) : fneg (f32Signed neg n) = f32Signed (!neg) n :=
  word_ext (by rw [signOf_fneg, signOf_f32Signed, signOf_f32Signed])
    (by rw [magOf_fneg, f32Signed, f32Signed, magOf_pack (roundMag_lt _ _), magOf_pack (roundMag_lt _ _)])

/-- Ceil is the negated floor of the negation, so it is exact too. -/
theorem fceil_eq {w : Word} (h : isFinite w = true) : fceil w = fneg (ffloor (fneg w)) := by
  have hf : isFinite (fneg w) = true := by rw [isFinite_fneg]; exact h
  unfold fceil ffloor
  simp only [not_nan_of_finite h, not_inf_of_finite h, not_nan_of_finite hf, not_inf_of_finite hf, Bool.false_eq_true,
    if_false]
  rw [fneg_f32Signed, signOf_fneg, Bool.not_not]
  congr 1
  unfold ceilInt floorInt
  rw [fix_fneg, Int.natAbs_neg]

theorem fceil_spec {w : Word} (h : isFinite w = true) :
    isFinite (fceil w) = true ∧ signOf (fceil w) = signOf w ∧ fix (fceil w) = ceilInt w * unit := by
  have hf : isFinite (fneg w) = true := by rw [isFinite_fneg]; exact h
  obtain ⟨h1, h2, h3⟩ := ffloor_spec hf
  rw [fceil_eq h]
  refine ⟨by rw [isFinite_fneg]; exact h1, by rw [signOf_fneg, h2, signOf_fneg, Bool.not_not], ?_⟩
  rw [fix_fneg, h3]
  unfold ceilInt floorInt
  rw [fix_fneg, Int.neg_mul]

/-- Ceil of a positive word: +inf, or a finite integral word of at least 1. -/
theorem fceil_pos {w : Word} (h : NonNeg w) (h0 : 0 < magOf w) :
    NonNeg (fceil w) ∧ magOf one ≤ magOf (fceil w) := by
  by_cases hi : isInf w = true
  · have e : fceil w = w := by unfold fceil; simp [h.1, hi]
    rw [e]
    exact ⟨h, by rw [isInf_iff.1 hi]; decide⟩
  · have hf := isFinite_of_nonNeg h (by simpa using hi)
    obtain ⟨h1, h2, h3⟩ := fceil_spec hf
    have hn : NonNeg (fceil w) := ⟨not_nan_of_finite h1, by rw [h2]; exact h.2⟩
    refine ⟨hn, ?_⟩
    have hu := unit_pos
    have hw : 0 < fix w := by
      rw [h.fix_eq]
      have := unitsOfMag_lt_iff.2 h0
      rw [unitsOfMag_zero] at this
      omega
    have hc : 1 ≤ ceilInt w := by
      unfold ceilInt
      have : -fix w / (unit : Int) < 0 := Int.ediv_neg_of_neg_of_pos (by omega) (by omega)
      omega
    rw [← unitsOfMag_le_iff, unitsOfMag_one]
    have : (unit : Int) ≤ (unitsOfMag (magOf (fceil w)) : Int) := by
      rw [← hn.fix_eq, h3]
      nlinarith
    omega

/-- The reciprocal of a positive finite word is positive. -/
theorem recip_pos {b : Word} (hb : NonNeg b) (hfb : isFinite b = true) (h0 : 0 < magOf b) :
    NonNeg (fdiv one b) ∧ 0 < magOf (fdiv one b) := by
  have h := fdiv_pos (a := one) ⟨by decide, by decide⟩ (by decide) hb hfb h0
  refine ⟨h.1, ?_⟩
  rw [h.2, unitsOfMag_one]
  have hlt : unitsOfMag (magOf b) < unitsOfMag infMag := unitsOfMag_lt_iff.2 (isFinite_iff.1 hfb)
  have hmax : unitsOfMag infMag ≤ unit * unit := by decide +kernel
  have hpos : 0 < unitsOfMag (magOf b) := by
    have := unitsOfMag_lt_iff.2 h0
    rwa [unitsOfMag_zero] at this
  have h1 : roundMag (unitsOfMag 1) 1 = 1 := roundMag_unitsOfMag (by decide)
  have h2 := roundMag_mono (a := unitsOfMag 1) (b := 1) (c := unit * unit) (d := unitsOfMag (magOf b)) (by decide) hpos
    (by have : unitsOfMag 1 = 1 := rfl
        rw [this]; omega)
  omega

/-- A positive finite word times a word of at least 1 is at least itself. -/
theorem le_fmul {a b : Word} (ha : NonNeg a) (hfa : isFinite a = true) (h0 : 0 < magOf a) (hb : NonNeg b)
    (h1 : magOf one ≤ magOf b) : NonNeg (fmul a b) ∧ magOf a ≤ magOf (fmul a b) := by
  by_cases hi : isInf b = true
  · have hne : magOf b ≠ 0 := by rw [isInf_iff.1 hi]; decide
    have e : fmul a b = pack false infMag := by
      unfold fmul
      simp [ha.1, hb.1, hi, Nat.ne_of_gt h0, hne, ha.2, hb.2]
    rw [e]
    have := nonNeg_pack (m := infMag) le_rfl
    exact ⟨this.1, by rw [this.2]; exact (isFinite_iff.1 hfa).le⟩
  · have hfb := isFinite_of_nonNeg hb (by simpa using hi)
    have h := fmul_pos ha hfa hb hfb
    refine ⟨h.1, ?_⟩
    rw [h.2]
    have hu : unit ≤ unitsOfMag (magOf b) := by
      have := unitsOfMag_le_iff.2 h1
      rwa [unitsOfMag_one] at this
    have h2 := roundMag_mono (a := unitsOfMag (magOf a)) (b := 1) (c := unitsOfMag (magOf a) * unitsOfMag (magOf b))
      (d := unit) (by decide) unit_pos (by rw [Nat.mul_one]; exact Nat.mul_le_mul_left _ hu)
    rwa [roundMag_unitsOfMag (isFinite_iff.1 hfa)] at h2

/-- The delay line of every accepted rate needs at least one slot beside the two of R83. -/
theorem one_le_requiredSlots {p : Params} {sr : Word} (hp : paramsOk p = true) (hs : sampleRateOk sr = true) :
    NonNeg (requiredSlots p sr) ∧ magOf one ≤ magOf (requiredSlots p sr) := by
  have hm : isFinite p.minGrainFreq = true ∧ flt posZero p.minGrainFreq = true := by
    simp only [paramsOk, Bool.and_eq_true] at hp; exact hp.1.1.2
  have hs' : flt posZero sr = true ∧ isInf sr = false := by
    simp only [sampleRateOk, Bool.and_eq_true, Bool.not_eq_true'] at hs; exact hs
  obtain ⟨m1, m2⟩ := flt_zero_iff.1 hm.2
  obtain ⟨s1, s2⟩ := flt_zero_iff.1 hs'.1
  obtain ⟨r1, r2⟩ := recip_pos m1 hm.1 m2
  obtain ⟨c1, c2⟩ := fceil_pos r1 r2
  obtain ⟨q1, q2⟩ := le_fmul s1 (isFinite_of_nonNeg s1 hs'.2) s2 c1 c2
  exact fceil_pos q1 (by omega)

end Sys2Proof.Machine
end

