-- ==== Sys2Proof/Tests/Slice0.lean ====
section
/-! SUPPORT. The model's own tests: words written out from spec/30_encoding.md, vectors of spec/95_test_vectors.md (named
in each comment), terms the WellFormed check refuses, and for every obligation with hypotheses a state and operands
that meet them. -/

namespace Sys2Proof.Tests

open Sys2Proof Sys2Proof.Machine

set_option Elab.async false

/-! ### Small states -/

/-- "fresh TC-B": RST, then `init 16.0`. -/
def freshB : State := constructed 0x41800000 (State.resetWith Config.tcB)

/-- "fresh TC-A": RST, then `init 1024.0`. -/
def freshA : State := constructed 0x44800000 (State.resetWith Config.tcA)

/-- fresh TC-B after `dl.write` 1.0, 2.0, 3.0. -/
def line3B : State := dlWrite 0x40400000 (dlWrite 0x40000000 (dlWrite 0x3F800000 freshB))

/-- `line3B` with grain 0 as `gr.set 0, 1.0, 250.0, sp` leaves it, played `count` times at offset `o`. -/
def playing (sp o : Word) (count : BitVec 32) : State :=
  setGrain 0 ⟨true, o, sp, 0x3F800000, 0x437A0000, count, 4⟩ line3B

/-- fresh TC-B with every grain set to a life of 16 samples. -/
def fullB : State :=
  let g : Grain := ⟨true, 0, 0x3F000000, 0x3F800000, 0x447A0000, 0, 16⟩
  setGrain 3 g (setGrain 2 g (setGrain 1 g (setGrain 0 g freshB)))

/-- A state whose next PROCESS_H with hint 2.0 at pitch -12.0 wraps the phase. -/
def atWrap (s : State) : State := { s with phase := 0x3F700000, dprev := 0x3F700000 }

/-- A state with WPTR in the ring's last slot. -/
def lastSlotB : State := { line3B with wptr := 17 }

/-- The response to a command. -/
def responseOf (r : Result) : Option Response :=
  match r with
  | .next t => t.response
  | .fault _ => none
  | .refused _ => none

/-- A value read from the state a command leaves. -/
def after {α : Type} (r : Result) (f : State → α) : Option α :=
  match r with
  | .next t => some (f t)
  | .fault _ => none
  | .refused _ => none

/-! ### Decoding: one word per row, from the spec's tables R63 and R66 -/

theorem test_decode_control :
    decode ⟨0x00000000, 9, 9, 9⟩ = .ok .nop ∧ decode ⟨0x00000001, 0x41800000, 9, 9⟩ = .ok (.init 0x41800000)
    ∧ decode ⟨0x00000E04, 9, 9, 9⟩ = .ok (.rdreg 0x0E) ∧ decode ⟨0x00000005, 9, 9, 9⟩ = .ok .clrstat := by decide

theorem test_decode_process :
    decode ⟨0x00000002, 1, 2, 9⟩ = .ok (.processN 1 2) ∧ decode ⟨0x00000003, 1, 2, 3⟩ = .ok (.processH 1 2 3) := by decide

theorem test_decode_delay_line :
    decode ⟨0x00000010, 1, 9, 9⟩ = .ok (.dlWrite 1) ∧ decode ⟨0x00000011, 1, 9, 9⟩ = .ok (.dlRead 1)
    ∧ decode ⟨0x00000012, 17, 9, 9⟩ = .ok (.dlPeek 17) := by decide

theorem test_decode_phasor_edge :
    decode ⟨0x00000020, 1, 9, 9⟩ = .ok (.phStep 1) ∧ decode ⟨0x00000021, 1, 9, 9⟩ = .ok (.dtStep 1) := by decide

theorem test_decode_grain :
    decode ⟨0x00000130, 1, 2, 3⟩ = .ok (.grSet 1 1 2 3) ∧ decode ⟨0x00000731, 1, 9, 9⟩ = .ok (.grStep 7 1)
    ∧ decode ⟨0x0000FF32, 9, 9, 9⟩ = .ok (.grFree 0xFF) ∧ decode ⟨0x00050333, 9, 9, 9⟩ = .ok (.grRd 3 5) := by decide

theorem test_decode_mapping_pool_mixer :
    decode ⟨0x00000040, 1, 9, 9⟩ = .ok (.p2s 1) ∧ decode ⟨0x00000041, 1, 2, 9⟩ = .ok (.gfreq 1 2)
    ∧ decode ⟨0x00000042, 1, 9, 9⟩ = .ok (.wsize 1) ∧ decode ⟨0x00000043, 9, 9, 9⟩ = .ok .alloc
    ∧ decode ⟨0x00000044, 1, 9, 9⟩ = .ok (.mix 1) := by decide

/-- V-RJ-1 to V-RJ-4 and V-RJ-15, with the check of R67 that fails. -/
theorem test_decode_reserved :
    decode ⟨0x00000006, 0, 0, 0⟩ = .error .undefinedOpcode ∧ decode ⟨0x00000100, 0, 0, 0⟩ = .error .idxNotZero
    ∧ decode ⟨0x00010004, 0, 0, 0⟩ = .error .selNotZero ∧ decode ⟨0x00100031, 0, 0, 0⟩ = .error .reservedField
    ∧ decode ⟨0xFFF00000, 0, 0, 0⟩ = .error .reservedField ∧ decode ⟨0x00000045, 0, 0, 0⟩ = .error .undefinedOpcode := by
  decide

/-- The opcode table numbers CMD as bits 31:0 and the operand words from bit 32 on. -/
theorem test_decode_table_word :
    decodeTableWord 128 (0x00000031 + 0x3F000000 * 2 ^ 32) = some (.grStep 0 0x3F000000)
    ∧ decodeTableWord 32 0x00050333 = some (.grRd 3 5) ∧ decodeTableWord 32 0x00000100 = none := by decide

/-- The host's way in: the very next step runs the word. -/
theorem test_with_fetch_word : after (step (State.reset.withFetchWord 32 0x00000104)) (·.response) =
    some (some ⟨.ok, 0x47534531⟩) := by decide

/-- The examples of R73 and R74. -/
theorem test_assemble :
    (assemble "gr.rd 3, count").map encode = some ⟨0x00050333, 0, 0, 0⟩
    ∧ (assemble "rdreg dl_wptr").map encode = some ⟨0x00000404, 0, 0, 0⟩
    ∧ (assemble "gr.set 1, 1.0, 1000.0, 0.5").map encode = some ⟨0x00000130, 0x3F800000, 0x447A0000, 0x3F000000⟩
    ∧ (assemble "gfreq 31.99, -1.0").map encode = some ⟨0x00000041, 0x41FFEB85, 0xBF800000, 0⟩
    ∧ assemble "mix nan" = some (.mix 0x7FC00000) ∧ assemble "gr.free 256" = none := by decide

/-! ### WellFormed: for each of its checks a term it refuses and the one next to it that it accepts -/

theorem test_wf_register : Instr.wf Config.tcB (.rdreg 0x0F) = false ∧ Instr.wf Config.tcB (.rdreg 0x0E) = true := by
  decide
theorem test_wf_set_slot : Instr.wf Config.tcB (.grSet 4 0 0 0) = false ∧ Instr.wf Config.tcB (.grSet 3 0 0 0) = true := by
  decide
theorem test_wf_step_slot : Instr.wf Config.tcB (.grStep 4 0) = false ∧ Instr.wf Config.tcB (.grStep 3 0) = true := by
  decide
theorem test_wf_free_slot : Instr.wf Config.tcA (.grFree 8) = false ∧ Instr.wf Config.tcA (.grFree 7) = true := by decide
theorem test_wf_read_slot : Instr.wf Config.tcB (.grRd 4 0) = false ∧ Instr.wf Config.tcB (.grRd 3 0) = true := by decide
theorem test_wf_read_field : Instr.wf Config.tcB (.grRd 0 9) = false ∧ Instr.wf Config.tcB (.grRd 0 8) = true := by decide

/-! ### One step of each command, from the vectors of section 2 -/

/-- V-CT-1. -/
theorem test_nop : responseOf (exec .nop (State.resetWith Config.tcB)) = some ⟨.ok, 0⟩ := by decide

/-- V-IN-2: N is DL_MAX. -/
theorem test_init_fits : responseOf (exec (.init 0x42780000) (State.resetWith Config.tcB)) = some ⟨.ok, 64⟩ := by decide

/-- V-IN-3 and V-IN-19: a rejected INIT. -/
theorem test_init_rejected :
    after (exec (.init 0x427A0000) (State.resetWith Config.tcB)) (fun t => (t.response, statusWord t)) =
      some (some ⟨.capacity, 0⟩, 0x00000520)
    ∧ after (exec (.init 0x00000000) line3B) (fun t => (t.response, statusWord t, t.n, t.wptr)) =
      some (some ⟨.badSampleRate, 0⟩, 0x00000421, 18, 3) := by decide

/-- V-CT-12, V-CT-16. -/
theorem test_rdreg_gain : responseOf (exec (.rdreg 0x0A) freshA) = some ⟨.ok, 0x3F000000⟩
    ∧ responseOf (exec (.rdreg 0x0A) freshB) = some ⟨.ok, 0x3F800000⟩ := by decide

/-- V-CT-17: STATUS 0x00000363 becomes 0x00000041. -/
theorem test_clrstat : statusWord { freshB with status := ⟨true, false, false, false, true, true, .notConfigured⟩ } =
      0x00000363
    ∧ after (exec .clrstat { freshB with status := ⟨true, false, false, false, true, true, .notConfigured⟩ }) statusWord =
      some 0x00000041 := by decide

/-- V-RJ-5 and V-RJ-17: an illegal word before RST's INIT, and one over another error. -/
theorem test_illegal_word :
    after (step { State.resetWith Config.tcB with inputs := [.transact ⟨0x00100031, 0, 0, 0⟩] }) statusWord =
      some 0x00000120
    ∧ after (step { freshB with
        status := ⟨false, false, false, false, true, false, .badIndex⟩
        inputs := [.transact ⟨0x00000006, 0, 0, 0⟩] }) statusWord = some 0x00000121 := by decide

/-- V-RJ-6: NOT_CONFIGURED comes before BAD_INDEX. -/
theorem test_gr_step_unconfigured :
    after (exec (.grStep 9 0) (State.resetWith Config.tcB)) statusWord = some 0x00000320 := by decide

/-- V-DL-20: the eighteenth write wraps WPTR. -/
theorem test_dl_write : after (exec (.dlWrite 0x41900000) lastSlotB) (fun t => (t.wptr, memRead t.buf 17)) =
    some (0, 0x41900000) := by decide

/-- V-DL-5, V-DL-6. -/
theorem test_dl_read_between : responseOf (exec (.dlRead 0x40100000) line3B) = some ⟨.ok, 0x3F400000⟩
    ∧ responseOf (exec (.dlRead 0x40400000) line3B) = some ⟨.ok, 0⟩ := by decide

/-- V-DL-8, V-DL-10. -/
theorem test_dl_read_clamped :
    after (exec (.dlRead 0xBF800000) line3B) (fun t => (t.response, t.status.rclamp)) =
      some (some ⟨.ok, 0x40400000⟩, true)
    ∧ responseOf (exec (.dlRead 0x7F800000) line3B) = some ⟨.ok, 0⟩ := by decide

/-- V-DL-13, V-DL-14. -/
theorem test_dl_peek : responseOf (exec (.dlPeek 2) line3B) = some ⟨.ok, 0x40400000⟩
    ∧ responseOf (exec (.dlPeek 18) line3B) = some ⟨.badIndex, 0⟩ := by decide

/-- V-PH-4, V-PH-6. -/
theorem test_ph_step_wraps :
    responseOf (exec (.phStep 0x44C00000) { freshA with phase := 0x3F400000 }) = some ⟨.ok, 0x3E800000⟩
    ∧ responseOf (exec (.phStep 0xC2800000) freshA) = some ⟨.ok, 0x3F700000⟩ := by decide

/-- V-PH-7, V-PH-8: the sum just below 0, and a NaN. -/
theorem test_ph_step_corners : responseOf (exec (.phStep 0xB5800000) freshA) = some ⟨.ok, 0⟩
    ∧ responseOf (exec (.phStep 0x7FC00000) { freshA with phase := 0x3E99999A }) = some ⟨.ok, 0⟩ := by decide

/-- V-DT-2, V-DT-5. -/
theorem test_dt_step :
    after (exec (.dtStep 0) { freshA with dprev := 0x3F700000 }) (fun t => (t.response, t.dprev)) =
      some (some ⟨.ok, 0xBF700000⟩, 0)
    ∧ after (exec (.dtStep 0x7F800000) { freshA with dprev := 0x7F800000 }) (fun t => (t.response, t.dprev)) =
      some (some ⟨.ok, 0x7FC00000⟩, 0x7F800000) := by decide

/-- Lifetimes of section 2.7: 156.25 ms is 2 (tie to even), 218.75 ms is 4. -/
theorem test_gr_set_lifetime : responseOf (exec (.grSet 0 0x3F800000 0x431C4000 0) freshB) = some ⟨.ok, 2⟩
    ∧ responseOf (exec (.grSet 0 0x3F800000 0x435AC000 0) freshB) = some ⟨.ok, 4⟩ := by decide

/-- Start offsets of section 2.7: speed -1.0 starts at 3.0. -/
theorem test_gr_set_offset :
    after (exec (.grSet 0 0x3F800000 0x437A0000 0xBF800000) freshB) (fun t => t.grains[0]?.map (·.offset)) =
      some (some 0x40400000) := by decide

/-- V-GR-1's second step. -/
theorem test_gr_step : responseOf (exec (.grStep 0 0x3F000000) (playing 0x3F000000 0x3F000000 1)) =
    some ⟨.ok, 0x3FA00000⟩ := by decide

/-- V-GR-3's last step: the live speed moves the offset, the read clamps, the grain becomes free. -/
theorem test_gr_step_last :
    after (exec (.grStep 0 0xC0000000) (playing 0xBF800000 0xC0400000 3))
        (fun t => (t.response, t.grains[0]?.map (fun g => (g.active, g.offset)), statusWord t)) =
      some (some ⟨.ok, 0x3FC00000⟩, some (false, 0xC0A00000), 0x00000011) := by decide

/-- Section 2.7's readback after two steps. -/
theorem test_gr_free : responseOf (exec (.grFree 0) (playing 0x3F000000 0x3F800000 2)) = some ⟨.ok, 0⟩
    ∧ responseOf (exec (.grFree 1) (playing 0x3F000000 0x3F800000 2)) = some ⟨.ok, 1⟩ := by decide

theorem test_gr_rd : responseOf (exec (.grRd 0 7) (playing 0x3F000000 0x3F800000 2)) = some ⟨.ok, 0x3F000000⟩
    ∧ responseOf (exec (.grRd 0 8) (playing 0x3F000000 0x3F800000 2)) = some ⟨.ok, 2⟩
    ∧ responseOf (exec (.grRd 0 4) (playing 0x3F000000 0x3F800000 2)) = some ⟨.ok, 0x437A0000⟩ := by decide

/-- Section 2.8's P2S rows, one exact and one correctly rounded. -/
theorem test_p2s : responseOf (exec (.p2s 0x41C00000) freshB) = some ⟨.ok, 0xC0400000⟩ := by decide
theorem test_p2s_rounded : responseOf (exec (.p2s 0x40C00000) freshB) = some ⟨.ok, 0xBED413CC⟩ := by decide +kernel

/-- Section 2.8's GFREQ rows. -/
theorem test_gfreq : responseOf (exec (.gfreq 0x43DC0000 0x3F400000) freshA) = some ⟨.ok, 0x41438E39⟩
    ∧ responseOf (exec (.gfreq 0x41700000 0xBF800000) freshA) = some ⟨.ok, 0x41700000⟩ := by decide

/-- Section 2.8's WSIZE rows. -/
theorem test_wsize : responseOf (exec (.wsize 0x40400000) freshA) = some ⟨.ok, 0x43A6AAAB⟩
    ∧ responseOf (exec (.wsize 0x80000000) freshA) = some ⟨.ok, 0xFF800000⟩ := by decide

/-- V-AL-2, V-AL-3. -/
theorem test_alloc : responseOf (exec .alloc fullB) = some ⟨.ok, 0xFFFFFFFF⟩
    ∧ responseOf (exec .alloc (setGrain 1 Grain.reset fullB)) = some ⟨.ok, 1⟩ := by decide

/-- By hand from R134: two grains at COUNT 2 of 4, ENV(0.5) = 1.0 (section 2.7), s(0) = 3.0 and s(1) = 2.0, GAIN 1.0. -/
theorem test_mix : responseOf (exec (.mix 0) (setGrain 2 ⟨true, 0x3F800000, 0, 0, 0, 2, 4⟩ (playing 0 0 2))) =
    some ⟨.ok, 0x40A00000⟩ := by decide +kernel

/-- V-PR-6. -/
theorem test_process_n :
    after (exec (.processN 0x40A00000 0) freshB) (fun t => (t.response, memRead t.buf 0, t.wptr, t.phase, statusWord t)) =
      some (some ⟨.ok, 0⟩, 0x40A00000, 1, 0, 0x00000001) := by decide

/-- V-PR-2 from fresh TC-B: the pitch clamped to 24, PHASE 0.375. -/
theorem test_process_h :
    after (exec (.processH 0x3F800000 0x42C80000 0x40000000) freshB) (fun t => (t.response, t.phase, statusWord t)) =
      some (some ⟨.ok, 0⟩, 0x3EC00000, 0x00000005) := by decide +kernel

/-- A wrap triggers grain 0 with the lifetime of 1000 / 0.5 ms (program P2's first trigger); a full pool drops it. -/
theorem test_process_h_trigger :
    after (exec (.processH 0x3F800000 0xC1400000 0x40000000) (atWrap freshB))
        (fun t => (t.phase, t.grains[0]?.map (fun g => (g.active, g.life, g.freq)), statusWord t)) =
      some (0, some (true, 32, 0x3F000000), 0x00000041)
    ∧ after (exec (.processH 0x3F800000 0xC1400000 0x40000000) (atWrap fullB)) statusWord = some 0x00000043 := by decide +kernel


/-! ### Witnesses: for every obligation with hypotheses, a state and operands that meet them all together -/

theorem freshB_inv : Inv freshB where
  params := by decide
  pool := by decide
  grains := fun g hg => by rw [List.eq_of_mem_replicate (n := 4) hg]; exact grainOk_reset
  phase := inUnit_zero
  mem := rfl
  ring := fun _ => by decide
  unconfigured := fun h => absurd h (by decide)
  errors := by decide

theorem line3B_inv : Inv line3B := ((freshB_inv.dlWrite rfl _).dlWrite rfl _).dlWrite rfl _

theorem grainOk_16 : GrainOk ⟨true, 0, 0x3F000000, 0x3F800000, 0x447A0000, 0, 16⟩ := ⟨by decide, by decide, by decide⟩

theorem fullB_inv : Inv fullB :=
  (((freshB_inv.setGrain rfl 0 grainOk_16).setGrain rfl 1 grainOk_16).setGrain rfl 2 grainOk_16).setGrain rfl 3 grainOk_16

theorem fullB_active : ∀ g ∈ fullB.grains, g.active = true := by decide

theorem grainOk_playing (count : BitVec 32) (h : count.toNat < 4) (sp o : Word) :
    GrainOk ⟨true, o, sp, 0x3F800000, 0x437A0000, count, 4⟩ :=
  ⟨by show count.toNat ≤ 4; omega, by show (4 : BitVec 32).toNat ≤ Config.lifeMax; decide, fun _ => h⟩

theorem playing_inv (sp o : Word) (count : BitVec 32) (h : count.toNat < 4) : Inv (playing sp o count) :=
  line3B_inv.setGrain rfl 0 (grainOk_playing count h sp o)

theorem atWrap_inv {s : State} (h : Inv s) (hc : s.cfg = true) : Inv (atWrap s) :=
  { h with
    phase := show InUnit 0x3F700000 by unfold InUnit; decide
    unconfigured := fun hf => by simp [atWrap, hc] at hf }

theorem lastSlotB_inv : Inv lastSlotB :=
  { line3B_inv with ring := fun _ => by decide, unconfigured := fun h => absurd h (by decide) }

/-- EncodeOfDecodeIsIdentity: the highest IDX and SEL that decode. -/
theorem witness_encode_of_decode : decode ⟨0x000FFF33, 1, 2, 3⟩ = .ok (.grRd 0xFF 0xF) := by decide

/-- DecodesExactlyTheTable: both sides, at the highest field values and one beyond. -/
theorem witness_decodes_exactly :
    decode ⟨0x0000FF04, 0, 0, 0⟩ = .ok (.rdreg 0xFF) ∧ decode ⟨0x000F0033, 0, 0, 0⟩ = .ok (.grRd 0 0xF)
    ∧ decode ⟨0x00100033, 0, 0, 0⟩ = .error .reservedField ∧ decode ⟨0x0000FF05, 0, 0, 0⟩ = .error .idxNotZero
    ∧ decode ⟨0x000F0032, 0, 0, 0⟩ = .error .selNotZero := by decide

/-- UnreadOperandWordsHaveNoEffect: one word read and kept, two unread and different. -/
theorem witness_unread_operands :
    decode ⟨0x00000010, 1, 0, 0⟩ = .ok (.dlWrite 1)
    ∧ (⟨0x00000010, 1, 5, 6⟩ : Command).cmd = (⟨0x00000010, 1, 0, 0⟩ : Command).cmd
    ∧ (Instr.dlWrite 1).readsA = true ∧ (Instr.dlWrite 1).readsB = false ∧ (Instr.dlWrite 1).readsC = false := by decide

/-- StepRunsTheDecodedCommand. -/
theorem witness_step_runs :
    ({ freshB with inputs := [.transact ⟨0x00000044, 0, 0, 0⟩, .rst] } : State).inputs =
      HostInput.transact ⟨0x00000044, 0, 0, 0⟩ :: [.rst]
    ∧ decode ⟨0x00000044, 0, 0, 0⟩ = .ok (.mix 0) := by decide

/-- UndecodableWordIsIllegal. -/
theorem witness_undecodable :
    ({ freshB with inputs := [.transact ⟨0x00000045, 0, 0, 0⟩] } : State).inputs =
      HostInput.transact ⟨0x00000045, 0, 0, 0⟩ :: []
    ∧ ∀ i, decode ⟨0x00000045, 0, 0, 0⟩ ≠ .ok i := by
  refine ⟨rfl, fun i h => ?_⟩
  rw [show decode ⟨0x00000045, 0, 0, 0⟩ = .error .undefinedOpcode by decide] at h
  cases h

/-- HardwareResetState: both ends of a command in flight. -/
theorem witness_reset_input :
    ({ freshB with inputs := [.rst] } : State).inputs = HostInput.rst :: []
    ∧ ({ freshB with inputs := [.abandoned ⟨0x00000044, 0, 0, 0⟩, .rst] } : State).inputs =
      HostInput.abandoned ⟨0x00000044, 0, 0, 0⟩ :: [.rst] := by decide

/-- RejectionIsPrecise: each code of a decoded command. -/
theorem witness_rejections :
    expectedRsp (.mix 0) State.reset = .notConfigured ∧ expectedRsp (.grStep 4 0) freshB = .badIndex
    ∧ expectedRsp (.dlPeek 18) freshB = .badIndex ∧ expectedRsp (.init 0) freshB = .badSampleRate
    ∧ expectedRsp (.init 0x427A0000) freshB = .capacity := by decide

/-- UnconfiguredCommandsAreRejected. -/
theorem witness_unconfigured : State.reset.cfg = false := by decide

/-- InitRejections: each way a rate is bad, and a good rate one slot too high. -/
theorem witness_init_rejections :
    magOf 0x80000000 = 0 ∧ isNaN 0x7F800001 = true ∧ signOf 0x80000001 = true ∧ isInf 0x7F800000 = true
    ∧ magOf 0x427A0000 ≠ 0 ∧ isNaN 0x427A0000 = false ∧ signOf 0x427A0000 = false ∧ isInf 0x427A0000 = false
    ∧ fle (fceil (fmul 0x427A0000 (fceil (fdiv one freshB.params.minGrainFreq)))) (f32 (freshB.params.dlMax - 2)) =
      false := by decide

/-- FlagsNeverChangeResults. -/
theorem witness_not_status_read : Instr.rdreg 1 ≠ .rdreg 0 := by decide

/-- TrigIsWrittenByProcessAndInit: a command that leaves TRIG set, a rejected PROCESS, an INIT that succeeds, a configured
state, and a PROCESS_H that detects a trigger and one that does not. -/
theorem witness_trig_kept :
    after (exec .clrstat { freshB with status := { freshB.status with trig := true } }) (·.status.trig) = some true
    ∧ isProcess .clrstat = false ∧ (∀ sr, Instr.clrstat ≠ .init sr)
    ∧ expectedRsp (.processN 0 0) State.reset ≠ .ok ∧ expectedRsp (.init 0x41800000) freshB = .ok ∧ freshB.cfg = true
    ∧ detectsTrigger (atWrap freshB) 0xC1400000 0x40000000 = true
    ∧ detectsTrigger freshB 0xC1400000 0x40000000 = false :=
  ⟨by decide, rfl, by simp, by decide, by decide, rfl, by decide +kernel, by decide +kernel⟩

/-- StickyBitsHaveTheirCauses: the commands that clear; for each warning a state and a command that cause it, with the
bit set by the command (pitch 100.0, hint 0, offset -1.0, a full pool at a wrap), and a command without it. -/
theorem witness_sticky :
    (Inv freshB ∧ Inv (atWrap fullB) ∧ Inv (atWrap freshB))
    ∧ (expectedRsp (.init 0x41800000) freshB = .ok ∧ expectedRsp (.init 0) freshB ≠ .ok)
    ∧ ((warnings (atWrap fullB) (.processH 0 0xC1400000 0x40000000)).drop = true
      ∧ (warnings (atWrap freshB) (.processH 0 0xC1400000 0x40000000)).drop = false
      ∧ after (exec (.processH 0 0xC1400000 0x40000000) (atWrap fullB)) (·.status.drop) = some true)
    ∧ ((warnings freshB (.processN 0 0x42C80000)).pclamp = true ∧ (warnings freshB (.processN 0 0x41C00000)).pclamp = false
      ∧ after (exec (.processN 0 0x42C80000) freshB) (·.status.pclamp) = some true)
    ∧ ((warnings freshB (.processH 0 0 0)).hinval = true ∧ (warnings freshB (.processH 0 0 0x41000000)).hinval = false
      ∧ after (exec (.processH 0 0 0) freshB) (·.status.hinval) = some true)
    ∧ ((warnings freshB (.dlRead 0xBF800000)).rclamp = true ∧ (warnings freshB (.dlRead 0x80000000)).rclamp = false
      ∧ after (exec (.dlRead 0xBF800000) freshB) (·.status.rclamp) = some true)
    ∧ (Instr.nop ≠ .clrstat ∧ ∀ sr, Instr.nop ≠ .init sr)
    ∧ after (exec .nop { freshB with status := ⟨true, true, true, true, true, false, .illegal⟩ })
        (fun t => (t.status.drop, t.status.pclamp, t.status.hinval, t.status.rclamp, t.status.ill)) =
      some (true, true, true, true, true) :=
  ⟨⟨freshB_inv, atWrap_inv fullB_inv rfl, atWrap_inv freshB_inv rfl⟩, by decide, by decide +kernel, by decide,
    by decide +kernel, by decide, by simp, by decide⟩

/-- StickyBitsHaveTheirCauses at a trigger: upward at speed -1.0 with a life of 32 samples and N = 18, the grain set
starts at offset 31.0, above N - 2, so its first read is clamped (R113, R143). -/
theorem witness_trigger_clamps :
    (warnings (atWrap freshB) (.processH 0 0x41400000 0x3F000000)).rclamp = true
    ∧ (atWrap freshB).grains.any (grainClamps (atWrap freshB)) = false
    ∧ after (exec (.processH 0 0x41400000 0x3F000000) (atWrap freshB)) (·.status.rclamp) = some true := by decide +kernel

/-- NopAndClrstat's last clause. -/
theorem witness_status_0363 :
    statusWord { freshB with status := ⟨true, false, false, false, true, true, .notConfigured⟩ } = 0x00000363 := by decide

/-- RdregReadsTheRegisterMap: the first number above the map, and the last. -/
theorem witness_register_numbers : 0x0E < (0x0F : BitVec 8).toNat ∧ 0x0E < (0xFF : BitVec 8).toNat := by decide

/-- InitConstructsTheBlock, DelayLineLengthIsInBounds: the least and the greatest N of TC-B. -/
theorem witness_init_bounds :
    paramsOk Config.tcB = true
    ∧ (flt posZero 0x00000001 = true ∧ isInf 0x00000001 = false ∧ sampleRateOk 0x00000001 = true
      ∧ fitsCapacity Config.tcB 0x00000001 = true ∧ lineLength Config.tcB 0x00000001 = 3)
    ∧ flt posZero 0x42780000 = true ∧ isInf 0x42780000 = false ∧ sampleRateOk 0x42780000 = true
    ∧ fitsCapacity Config.tcB 0x42780000 = true ∧ lineLength Config.tcB 0x42780000 = 64 := by decide

/-- ResponseCodeFollowsCauses, OnlyInitConfigures, StepKeepsTheInvariant: commands and steps answer. -/
theorem witness_answers : (∃ t, exec (.mix 0) freshB = .next t) ∧ Inv freshB ∧ ∃ t, step freshB = .next t :=
  ⟨⟨_, rfl⟩, freshB_inv, ⟨_, rfl⟩⟩

/-- DlWriteAppendsOneSample, WriteMovesHistoryOneDeeper: a write within the ring and one at its end. -/
theorem witness_writes :
    (Inv line3B ∧ line3B.cfg = true ∧ line3B.wptr.toNat + 1 ≠ line3B.n.toNat ∧ 16 + 1 < line3B.n.toNat)
    ∧ Inv lastSlotB ∧ lastSlotB.cfg = true ∧ lastSlotB.wptr.toNat + 1 = lastSlotB.n.toNat
    ∧ ∃ t, exec (.dlWrite 7) lastSlotB = .next t :=
  ⟨⟨line3B_inv, by decide, by decide, by decide⟩, lastSlotB_inv, by decide, by decide, ⟨_, rfl⟩⟩

/-- DlReadInterpolates, ReadsStayInTheRing: the two ends of the unclamped range. -/
theorem witness_read_range :
    Inv line3B ∧ line3B.cfg = true ∧ fle posZero 0x80000000 = true ∧ fle 0x80000000 (f32 (line3B.n.toNat - 2)) = true
    ∧ fle posZero 0x41800000 = true ∧ fle 0x41800000 (f32 (line3B.n.toNat - 2)) = true :=
  ⟨line3B_inv, by decide⟩

/-- DlReadClampsAndRecords: NaN, the largest negative value, and the least word above N - 2. -/
theorem witness_read_clamps :
    line3B.cfg = true ∧ isNaN 0x7FC00000 = true ∧ flt 0x80000001 posZero = true
    ∧ flt 0x41800001 posZero = false ∧ flt (f32 (line3B.n.toNat - 2)) 0x41800001 = true := by decide

/-- IntegralOffsetReadsTheSample: offset 0 in `line3B`, and the deepest offset where the ring's oldest sample is read. -/
theorem witness_integral_offsets :
    (Inv line3B ∧ line3B.cfg = true ∧ 0 + 2 ≤ line3B.n.toNat ∧ isFinite (pastSample line3B 0) = true
      ∧ magOf (pastSample line3B 0) ≠ 0 ∧ isFinite (fsub (pastSample line3B 1) (pastSample line3B 0)) = true)
    ∧ Inv lastSlotB ∧ lastSlotB.cfg = true ∧ 16 + 2 ≤ lastSlotB.n.toNat ∧ isFinite (pastSample lastSlotB 16) = true
    ∧ magOf (pastSample lastSlotB 16) ≠ 0
    ∧ isFinite (fsub (pastSample lastSlotB 17) (pastSample lastSlotB 16)) = true :=
  ⟨⟨line3B_inv, by decide⟩, lastSlotB_inv, by decide⟩

/-- DlPeekReadsTheRawSlot: the last slot and the first one past it. -/
theorem witness_peeks : freshB.cfg = true ∧ (17 : Word).toNat < freshB.n.toNat ∧ freshB.n.toNat ≤ (18 : Word).toNat := by
  decide

/-- PhStepAdvancesThePhase, PhaseStaysInUnitInterval: sums that are NaN, in [0, 1), 1.0, and just below 0. -/
theorem witness_phase_sums :
    freshB.cfg = true ∧ isFinite (fadd freshB.phase (fdiv 0x7FC00000 freshB.sr)) = false
    ∧ fadd freshB.phase (fdiv 0x41000000 freshB.sr) = 0x3F000000
    ∧ fadd (atWrap freshB).phase (fdiv 0x3F800000 freshB.sr) = 0x3F800000
    ∧ fle one (fsub 0xB3800000 (ffloor 0xB3800000)) = false ∧ fle one (fsub 0xB2800000 (ffloor 0xB2800000)) = true
    ∧ freshB.phase ≠ negZero ∧ after (exec (.phStep 0) freshB) (·.phase) = some 0 := by decide

/-- WrapSubtractsOne: the sum at 1.0 and at the greatest word below 2.0. -/
theorem witness_wraps :
    fle one (fadd (atWrap freshB).phase (fdiv 0x3F800000 freshB.sr)) = true
    ∧ flt (fadd (atWrap freshB).phase (fdiv 0x3F800000 freshB.sr)) two = true
    ∧ fadd freshB.phase (fdiv 0x41FFFFFF freshB.sr) = 0x3FFFFFFF ∧ fle one 0x3FFFFFFF = true
    ∧ flt 0x3FFFFFFF two = true := by decide

/-- NegativeDeltaExactlyOnWrap: the greatest increment with the greatest phase (it wraps), and the least with phase 0. -/
theorem witness_deltas :
    (InUnit 0x3F7FFFFF ∧ fdiv 0x417FFFFE freshB.sr = 0x3F7FFFFE ∧ flt posZero 0x3F7FFFFE = true
      ∧ fle 0x3F7FFFFE 0x3F7FFFFE#32 = true ∧ fle one (fadd 0x3F7FFFFF 0x3F7FFFFE) = true)
    ∧ InUnit freshB.phase ∧ freshB.dprev = freshB.phase ∧ freshB.cfg = true
    ∧ flt posZero (fdiv 0x00000010 freshB.sr) = true ∧ fle (fdiv 0x00000010 freshB.sr) 0x3F7FFFFE#32 = true
    ∧ fle one (fadd freshB.phase (fdiv 0x00000010 freshB.sr)) = false := by unfold InUnit; decide

/-- DtStepDifferences, GrSetArmsTheSlot, GrStepPlaysOneSample, GrainReadback: a configured state, the last slot, an
active grain and a free one. -/
theorem witness_slots :
    (playing 0 0 3).cfg = true ∧ (3 : BitVec 8).toNat < (playing 0 0 3).params.pool
    ∧ (playing 0 0 3).grains[(0 : BitVec 8).toNat]? = some ⟨true, 0, 0, 0x3F800000, 0x437A0000, 3, 4⟩
    ∧ (playing 0 0 3).grains[(3 : BitVec 8).toNat]? = some ⟨false, 0, 0, 0, 0, 0, 0⟩ := by decide

/-- LifetimeOfAWindow at sample rate 16: lf NaN, the greatest word below 1.0, 2^24, 1.0, and the tie 2.5. -/
theorem witness_lifetimes :
    isNaN (fdiv (fmul 0x7FC00000 0x41800000) thousand) = true
    ∧ flt (fdiv (fmul 0x4279FFFF 0x41800000) thousand) one = true
    ∧ fdiv (fmul 0x4E7A0000 0x41800000) thousand = f32 (2 ^ 24)
    ∧ fdiv (fmul 0x427A0000 0x41800000) thousand = one
    ∧ fdiv (fmul 0x431C4000 0x41800000) thousand = 0x40200000
    ∧ 2 * |(2 : Int) * unit - fix 0x40200000| = unit := by decide +kernel

/-- EnvelopeStaysInUnitRange: a block with the default envelope, the ends of [0, 1), and a grain at its last sample. -/
theorem witness_envelope : Config.tcB.env = .hann ∧ InUnit 0x80000000 ∧ InUnit 0x3F7FFFFF
    ∧ GrainOk ⟨true, 0, 0, 0x3F800000, 0x437A0000, 3, 4⟩ :=
  ⟨rfl, by unfold InUnit; decide, by unfold InUnit; decide, grainOk_playing 3 (by decide) 0 0⟩

/-- GrainPlaysExactlyItsLifetime: as many steps as the lifetime of 250 ms. -/
theorem witness_whole_life : Inv freshB ∧ freshB.cfg = true ∧ (3 : BitVec 8).toNat < freshB.params.pool
    ∧ [(0 : Word), 1, 2, 3].length ≤ lifetime freshB.sr 0x437A0000 := ⟨freshB_inv, by decide⟩

/-- MappingFormulas: a hint whose divisor is 27, and one whose floor is under 1.0. -/
theorem witness_divisors :
    fle one (ffloor (fdiv 0x43DC0000 freshA.params.grainFreqMult)) = true
    ∧ fle one (ffloor (fdiv 0x41700000 freshA.params.grainFreqMult)) = false := by decide

/-- SpeedAtTheExactPitches: 12 x -126 and 12 x 127, the greatest pitch whose quotient by 12 rounds to 0, the least pitch
of the -inf clause, and a NaN. -/
theorem witness_exact_pitches :
    (isFinite 0xC4BD0000 = true ∧ fix 0xC4BD0000 = 12 * (-126) * unit)
    ∧ (isFinite 0x44BE8000 = true ∧ fix 0x44BE8000 = 12 * 127 * unit)
    ∧ (isFinite (fdiv 0x00000006 twelve) = true ∧ fix (fdiv 0x00000006 twelve) = 0 * unit)
    ∧ fle 0x44C00000 0x44C00000 = true ∧ isNaN 0xFF800001 = true := by decide

/-- Exp2MeetsItsRule: the ends of the integers, the least word of the +inf rule, and both kinds of NaN premise. -/
theorem witness_exp2 :
    (isFinite 0xC2FC0000 = true ∧ fix 0xC2FC0000 = (-126 : Int) * unit)
    ∧ (isFinite 0x42FE0000 = true ∧ fix 0x42FE0000 = (127 : Int) * unit)
    ∧ fle f128 f128 = true ∧ isNaN negInf = false ∧ isNaN 0xFFFFFFFF = true := by decide

/-- CospiMeetsItsRule: the four exact points, a point between, and a word that is not finite. -/
theorem witness_cospi :
    (isFinite 0x80000000 = true ∧ fix 0x80000000 % (2 ^ 150) = 0) ∧ fix 0x3F000000 % (2 ^ 150) = 2 ^ 148
    ∧ fix 0xBF800000 % (2 ^ 150) = 2 ^ 149 ∧ fix 0xBF000000 % (2 ^ 150) = 3 * 2 ^ 148 ∧ isFinite 0x3E800000 = true
    ∧ isFinite 0x7F800000 = false := by decide

/-- ZeroSpeedHasNoGrainFrequency: the greatest finite hint and +0.0, at speed -0.0. -/
theorem witness_zero_speed : isFinite 0x7F7FFFFF = true ∧ signOf 0x7F7FFFFF = false ∧ isFinite 0 = true
    ∧ signOf 0 = false ∧ magOf 0x80000000 = 0 := by decide

/-- AllocFindsTheLowestFreeSlot: a full pool, and one whose last slot is the lowest free one. -/
theorem witness_alloc :
    (Inv fullB ∧ ∀ g ∈ fullB.grains, g.active = true)
    ∧ Inv (setGrain 3 Grain.reset fullB) ∧ (setGrain 3 Grain.reset fullB).grains[3]? = some Grain.reset
    ∧ Grain.reset.active = false
    ∧ ∀ (l : Nat) (g' : Grain), l < 3 → (setGrain 3 Grain.reset fullB).grains[l]? = some g' → g'.active = true := by
  refine ⟨⟨fullB_inv, fullB_active⟩, fullB_inv.setGrain rfl 3 grainOk_reset, by decide, rfl, ?_⟩
  intro l g' hl h
  interval_cases l <;> (cases h; rfl)

/-- MixStepsEveryGrainOnce, MixOfASilentPool, ProcessWithoutHint, WriteComesLast, DecayWithoutHints. -/
theorem witness_pools : (Inv fullB ∧ fullB.cfg = true) ∧ Inv freshB ∧ freshB.cfg = true
    ∧ (∀ g ∈ freshB.grains, g.active = false)
    ∧ (fullB.grains[3]? = some ⟨true, 0, 0x3F000000, 0x3F800000, 0x447A0000, 0, 16⟩)
    ∧ freshB.grains[3]? = some ⟨false, 0, 0, 0, 0, 0, 0⟩ :=
  ⟨⟨fullB_inv, rfl⟩, freshB_inv, rfl, by decide, rfl, rfl⟩

/-- DecayWithoutHints: a run of both kinds of command, from a full pool and from a free one. -/
theorem witness_hintless_run : ∀ i ∈ [Instr.processN 1 2, .processH 1 2 0], (∃ x p, i = .processN x p)
    ∨ ∃ x p h, i = .processH x p h ∧ (flt posZero h = false ∨ fle h (fmul freshB.sr half) = false) := by
  intro i hi
  simp only [List.mem_cons, List.not_mem_nil, or_false] at hi
  rcases hi with rfl | rfl
  · exact .inl ⟨_, _, rfl⟩
  · exact .inr ⟨_, _, _, rfl, .inl (by decide)⟩

/-- PitchUsedIsInRange: the ends of the range, one word past each, and NaN. -/
theorem witness_pitches :
    paramsOk Config.tcB = true ∧ fle Config.tcB.minPitch 0xC1C00000 = true ∧ fle 0xC1C00000 Config.tcB.maxPitch = true
    ∧ fle Config.tcB.minPitch 0x41C00000 = true ∧ fle 0x41C00000 Config.tcB.maxPitch = true
    ∧ flt 0xC1C00001 Config.tcB.minPitch = true ∧ flt Config.tcB.maxPitch 0x41C00001 = true
    ∧ isNaN 0x7FC00000 = true := by decide

/-- ProcessWithInvalidHint: +0.0, NaN, and the least word above SR x 0.5. -/
theorem witness_invalid_hints : freshB.cfg = true ∧ flt posZero 0 = false ∧ flt posZero 0x7FC00000 = false
    ∧ fle 0x41000001 (fmul freshB.sr half) = false := by decide

/-- ProcessWithValidHint: the greatest valid hint; a wrap with a free slot, a wrap with none, and no wrap. -/
theorem witness_valid_hints :
    (Inv (atWrap freshB) ∧ Inv (atWrap fullB) ∧ (atWrap freshB).cfg = true ∧ (atWrap fullB).cfg = true)
    ∧ flt posZero 0x41000000 = true ∧ fle 0x41000000 (fmul freshB.sr half) = true
    ∧ flt posZero 0x40000000 = true ∧ fle 0x40000000 (fmul freshB.sr half) = true
    ∧ fsub one (exp2 freshB.params.prims (fdiv (pitchUsed freshB.params 0xC1400000) twelve)) = 0x3F000000
    ∧ grainFreq freshB.params 0x40000000 0x3F000000 = 0x3F000000
    ∧ wrapPhase (fadd (atWrap freshB).phase (fdiv (fmul 0x3F000000 (f32 freshB.params.voices)) freshB.sr)) = 0
    ∧ flt (fsub 0 (atWrap freshB).dprev) posZero = true
    ∧ wrapPhase (fadd freshB.phase (fdiv (fmul 0x3F000000 (f32 freshB.params.voices)) freshB.sr)) = 0x3D800000
    ∧ flt (fsub 0x3D800000 freshB.dprev) posZero = false :=
  ⟨⟨atWrap_inv freshB_inv rfl, atWrap_inv fullB_inv rfl, rfl, rfl⟩, by decide⟩

/-- ResetMeetsTheInvariant. -/
theorem witness_params : paramsOk Config.tcA = true ∧ paramsOk Config.tcB = true := by decide

/-- UnreachableSlotsAreUnobservable: two states that differ in slot 18, the first one past the ring, and a step. -/
theorem witness_unreachable :
    Inv freshB ∧ Inv { freshB with buf := [(18, 7)] } ∧ SameReachable freshB { freshB with buf := [(18, 7)] }
    ∧ ∃ t, step freshB = .next t := by
  refine ⟨freshB_inv, { freshB_inv with mem := by decide }, ⟨rfl, ?_⟩, ⟨_, rfl⟩⟩
  intro _ k hk
  have : k < 18 := hk
  show memRead [(18, 7)] k = 0
  rw [memRead, if_neg (by omega)]; rfl

/-- ReadbackHasNoSideEffect: the last slot, the last field, the last register. -/
theorem witness_readback :
    isPure (.dlPeek 17) = true ∧ expectedRsp (.dlPeek 17) freshB = .ok
    ∧ isPure (.grRd 3 8) = true ∧ expectedRsp (.grRd 3 8) freshB = .ok
    ∧ isPure (.rdreg 0x0E) = true ∧ expectedRsp (.rdreg 0x0E) freshB = .ok
    ∧ responseOf (exec (.grRd 3 8) freshB) = some ⟨.ok, 0⟩ := by decide

end Sys2Proof.Tests
end

section
/-! SUPPORT. Products and quotients of finite words, comparisons, and rounding at a tie. -/

namespace Sys2Proof.Machine

open Sys2Proof

/-- A quotient at most a finite magnitude's value rounds to at most that magnitude. -/
theorem roundMag_le_of_le_mul {num den m : Nat} (hd : 0 < den) (hm : m < infMag) (h : num ≤ unitsOfMag m * den) :
    roundMag num den ≤ m := by
  have := roundMag_mono (a := num) (b := den) (c := unitsOfMag m) (d := 1) hd Nat.one_pos (by rwa [Nat.mul_one])
  rwa [roundMag_unitsOfMag hm] at this

/-- A quotient at least a finite magnitude's value rounds to at least that magnitude. -/
theorem le_roundMag_of_mul_le {num den m : Nat} (hd : 0 < den) (hm : m < infMag) (h : unitsOfMag m * den ≤ num) :
    m ≤ roundMag num den := by
  have := roundMag_mono (a := unitsOfMag m) (b := 1) (c := num) (d := den) Nat.one_pos hd (by rwa [Nat.mul_one])
  rwa [roundMag_unitsOfMag hm] at this

theorem pack_false (m : Nat) : pack false m = BitVec.ofNat 32 m := rfl

theorem fix_pack {neg : Bool} {m : Nat} (h : m < 2 ^ 31) :
    fix (pack neg m) = if neg then -(unitsOfMag m : Int) else (unitsOfMag m : Int) := by
  unfold fix; rw [signOf_pack h, magOf_pack h]

theorem fmul_finite {a b : Word} (ha : isFinite a = true) (hb : isFinite b = true) :
    fmul a b = pack (signOf a != signOf b) (roundMag (unitsOfMag (magOf a) * unitsOfMag (magOf b)) unit) := by
  simp [fmul, not_nan_of_finite ha, not_nan_of_finite hb, not_inf_of_finite ha, not_inf_of_finite hb]

theorem fdiv_finite {a b : Word} (ha : isFinite a = true) (hb : isFinite b = true) (h0 : magOf b ≠ 0) :
    fdiv a b = pack (signOf a != signOf b) (roundMag (unitsOfMag (magOf a) * unit) (unitsOfMag (magOf b))) := by
  simp [fdiv, not_nan_of_finite ha, not_nan_of_finite hb, not_inf_of_finite ha, not_inf_of_finite hb, h0]

theorem fdiv_nan {a : Word} (h : isNaN a = true) (b : Word) : fdiv a b = canonNaN := by simp [fdiv, h]

theorem nonNeg_f32 (n : Nat) : NonNeg (f32 n) := ⟨f32Signed_not_nan _ _, signOf_f32Signed _ _⟩

theorem unitsOfMag_f32 {n : Nat} (h : n ≤ 2 ^ 24) : unitsOfMag (magOf (f32 n)) = n * unit := by
  rw [← natAbs_fix, fix_f32 h, Int.natAbs_natCast]

/-- Twice a word between -1.0 and 1.0 is at most 2.0 in magnitude, so it is finite. -/
theorem isFinite_two_mul {w : Word} (h : magOf w ≤ magOf one) : isFinite (fmul two w) = true := by
  have hf : isFinite w = true := isFinite_iff.2 (h.trans_lt (by decide))
  have hu : unitsOfMag (magOf w) ≤ unit := unitsOfMag_one ▸ unitsOfMag_le_iff.2 h
  have hr : roundMag (unitsOfMag (magOf two) * unitsOfMag (magOf w)) unit ≤ magOf two :=
    roundMag_le_of_le_mul unit_pos (by decide) (Nat.mul_le_mul_left _ hu)
  rw [fmul_finite (by decide) hf, isFinite_iff, magOf_pack (roundMag_lt _ _)]
  exact hr.trans_lt (by decide)

theorem flt_eq_false_of_fle {a b : Word} (h : fle a b = true) : flt b a = false := by
  obtain ⟨na, nb⟩ := fle_not_nan h
  rw [Bool.eq_false_iff, Ne, flt_iff nb na, not_lt]
  exact (fle_iff na nb).1 h

theorem fle_of_fle_of_flt {a b c : Word} (h1 : fle a b = true) (h2 : flt b c = true) : fle a c = true := by
  obtain ⟨na, nb⟩ := fle_not_nan h1
  have nc := (flt_not_nan h2).2
  exact (fle_iff na nc).2 (((fle_iff na nb).1 h1).trans ((flt_iff nb nc).1 h2).le)

/-- The words between -1.0 and 1.0 are those whose magnitude is at most 1.0's. -/
theorem magOf_le_one {w : Word} (h1 : fle minusOne w = true) (h2 : fle w one = true) : magOf w ≤ magOf one := by
  have k1 : ordKey minusOne = -(magOf one : Int) := by decide
  have k2 : ordKey one = (magOf one : Int) := by decide
  simp only [fle, Bool.and_eq_true, decide_eq_true_eq] at h1 h2
  have l1 := h1.2
  have l2 := h2.2
  rw [k1, ordKey] at l1
  rw [k2, ordKey] at l2
  cases hs : signOf w <;> simp only [hs, if_true, Bool.false_eq_true, if_false] at l1 l2 <;> omega

/-- A rounding is off by at most half a denominator. -/
theorem halfEven_dist {num den : Nat} (hd : 0 < den) : 2 * |(halfEven num den : Int) * den - num| ≤ den := by
  have hup := halfEven_le (num := num) hd
  have hlo := le_halfEven (num := num) hd
  zify at hup hlo
  rcases abs_cases ((halfEven num den : Int) * den - num) with ⟨ha, -⟩ | ⟨ha, -⟩
  · rw [ha]; linarith
  · rw [ha]; linarith

/-- A rounding half a denominator off was a tie, so it is even. -/
theorem halfEven_even_of_tie {num den : Nat} (h : 2 * |(halfEven num den : Int) * den - num| = den) (hd : 0 < den) :
    halfEven num den % 2 = 0 := by
  have e : (num : Int) = den * (num / den : Nat) + (num % den : Nat) := by exact_mod_cast (Nat.div_add_mod num den).symm
  have hlt := Nat.mod_lt num hd
  have htie : 2 * (num % den) = den := by
    have hq : halfEven num den = num / den ∨ halfEven num den = num / den + 1 := by
      have := halfEven_ge_div num den
      have := halfEven_le_div_succ num den
      omega
    rcases hq with hq | hq
    · have hd : ((num / den : Nat) : Int) * den - num = -(num % den : Nat) := by rw [e]; ring
      rw [hq, hd, abs_neg, Nat.abs_cast] at h
      exact_mod_cast h
    · have hd : ((num / den + 1 : Nat) : Int) * den - num = (den : Int) - (num % den : Nat) := by
        rw [e]; push_cast; ring
      rw [hq, hd, abs_of_nonneg (by omega)] at h
      omega
  unfold halfEven
  rw [if_neg (by omega), if_neg (by omega)]
  split <;> omega

end Sys2Proof.Machine
end

section
/-! PROOFS. EXP2 (R17) and the speed of a pitch (R126, R127). -/

namespace Sys2Proof.Machine

open Sys2Proof

theorem exp2_nan (k : PrimKind) {q : Word} (h : isNaN q = true) : exp2 k q = canonNaN := by simp [exp2, h]

theorem exp2_of_128_le (k : PrimKind) {q : Word} (h : fle f128 q = true) : exp2 k q = posInf := by
  simp [exp2, h, (fle_not_nan h).2]

theorem exp2_negInf (k : PrimKind) : exp2 k negInf = posZero := by
  have h1 : isNaN negInf = false := by decide
  have h2 : fle f128 negInf = false := by decide
  simp [exp2, h1, h2]

/-- EXP2 of an integer whose power is normal is that power's word: exponent field n + 127, fraction 0. -/
theorem exp2_integer (k : PrimKind) {q : Word} {n : Int} (h1 : -126 ≤ n) (h2 : n ≤ 127) (hf : isFinite q = true)
    (hq : fix q = n * unit) : exp2 k q = pack false ((n + 127).toNat * 2 ^ 23) := by
  have hu : (0 : Int) < unit := by exact_mod_cast unit_pos
  have hlt : fle f128 q = false := by
    rw [Bool.eq_false_iff, Ne, fle_iff (by decide) (not_nan_of_finite hf), hq,
      show fix f128 = 128 * unit by decide, not_le]
    exact Int.mul_lt_mul_of_pos_right (by omega) hu
  have hne : q ≠ negInf := by rintro rfl; exact absurd hf (by decide)
  have hi : intOf q = n := by unfold intOf floorInt; rw [hq, Int.mul_ediv_cancel _ hu.ne']
  have hint : isIntegral q = true := by
    have : unitsOfMag (magOf q) = n.natAbs * unit := by rw [← natAbs_fix, hq, Int.natAbs_mul, Int.natAbs_natCast]
    simp [isIntegral, hf, this]
  simp [exp2, not_nan_of_finite hf, hlt, hne, hint, hi, h1]

theorem fle_zero_boundNonneg (w : Word) : fle posZero (boundNonneg w) = true := by
  unfold boundNonneg
  split
  · assumption
  · decide

/-- EXP2 of a word that is no NaN is at least +0.0. -/
theorem fle_zero_exp2 (k : PrimKind) {q : Word} (hn : isNaN q = false) : fle posZero (exp2 k q) = true := by
  by_cases h128 : fle f128 q = true
  · rw [exp2_of_128_le k h128]; decide
  by_cases hinf : q = negInf
  · rw [hinf, exp2_negInf]; decide
  by_cases hint : isIntegral q = true ∧ -126 ≤ intOf q
  · have hi : intOf q < 128 := by
      have hlt := (flt_iff (b := f128) hn (by decide)).1 (flt_of_not_fle (by decide) hn (by simpa using h128))
      rw [show fix f128 = 128 * unit by decide] at hlt
      exact Int.ediv_lt_of_lt_mul (by exact_mod_cast unit_pos) hlt
    have e : exp2 k q = pack false ((intOf q + 127).toNat * 2 ^ 23) := by simp [exp2, hn, h128, hinf, hint]
    obtain ⟨⟨hnan, hsign⟩, -⟩ := nonNeg_pack (m := (intOf q + 127).toNat * 2 ^ 23) (by unfold infMag; omega)
    rw [e]
    exact fle_zero_of_sign hnan hsign
  · unfold exp2
    rw [if_neg (by simp [hn]), if_neg h128, if_neg hinf, if_neg hint]
    exact fle_zero_boundNonneg _

/-- The word of exponent field n + 127 and fraction 0 is 2^n. -/
theorem fix_power_of_two {n : Int} (h1 : -126 ≤ n) (h2 : n ≤ 127) :
    isFinite (pack false ((n + 127).toNat * 2 ^ 23)) = true
      ∧ fix (pack false ((n + 127).toNat * 2 ^ 23)) = 2 ^ (n + 149).toNat := by
  obtain ⟨e, he⟩ : ∃ e : Nat, (n + 127).toNat = e + 1 := ⟨(n + 126).toNat, by omega⟩
  have hm : (n + 127).toNat * 2 ^ 23 < infMag := by unfold infMag; omega
  have h31 : (n + 127).toNat * 2 ^ 23 < 2 ^ 31 := hm.trans (by decide)
  refine ⟨by rw [isFinite_iff, magOf_pack h31]; exact hm, ?_⟩
  rw [fix_pack h31, if_neg Bool.false_ne_true, he, Nat.succ_mul, Nat.add_comm,
    unitsOfMag_shift (by decide) (by decide), ← pow_add, show (n + 149).toNat = 23 + e by omega]
  push_cast; rfl

theorem unitsOfMag_twelve : unitsOfMag (magOf twelve) = 12 * unit := by decide

/-- A pitch of 12 n, divided by 12, is n exactly. -/
theorem fdiv_twelve_exact {p : Word} {n : Int} (h1 : -126 ≤ n) (h2 : n ≤ 127) (hf : isFinite p = true)
    (hp : fix p = 12 * n * unit) : isFinite (fdiv p twelve) = true ∧ fix (fdiv p twelve) = n * unit := by
  have hu : (0 : Int) < unit := by exact_mod_cast unit_pos
  have hm : unitsOfMag (magOf p) = n.natAbs * (12 * unit) := by
    rw [← natAbs_fix, hp, Int.natAbs_mul, Int.natAbs_mul, Int.natAbs_natCast, show (12 : Int).natAbs = 12 from rfl]
    ring
  have e : fdiv p twelve = f32Signed (signOf p) n.natAbs := by
    rw [fdiv_finite hf (by decide) (by decide), unitsOfMag_twelve, hm, f32Signed,
      show n.natAbs * (12 * unit) * unit = n.natAbs * unit * (12 * unit) by ring, roundMag_mul_den (by omega)]
    cases signOf p <;> rfl
  rw [e]
  refine ⟨f32Signed_finite (by omega), ?_⟩
  rw [fix_f32Signed (by omega), Nat.cast_mul]
  cases hs : signOf p with
  | false =>
    have : 0 ≤ n := by have := fix_nonneg hs; rw [hp] at this; nlinarith
    rw [if_neg Bool.false_ne_true, Int.natAbs_of_nonneg this]
  | true =>
    have : n ≤ 0 := by have := fix_neg_iff hs; rw [hp] at this; nlinarith
    rw [if_pos rfl, Int.ofNat_natAbs_of_nonpos this, Int.neg_mul, Int.neg_neg]

/-- The quotient by 12 of a pitch of 1536.0 or more is at least 128.0. -/
theorem fle_f128_fdiv_twelve {p : Word} (h : fle 0x44C00000 p = true) : fle f128 (fdiv p twelve) = true := by
  have hn := (fle_not_nan h).2
  have hs : signOf p = false := by
    by_contra hs
    have h1 := (fle_iff (by decide) hn).1 h
    have h2 := fix_neg_iff (by simpa using hs)
    have h3 : 0 < fix 0x44C00000 := by decide
    omega
  have hp : NonNeg p := ⟨hn, hs⟩
  have hmag : magOf 0x44C00000 ≤ magOf p := (NonNeg.fle_iff ⟨by decide, by decide⟩ hp).1 h
  by_cases hi : isInf p = true
  · have : p = posInf := word_ext (hs.trans (by decide)) ((isInf_iff.1 hi).trans (by decide))
    subst this; decide
  · obtain ⟨d1, d2⟩ := fdiv_pos hp (isFinite_of_nonNeg hp (by simpa using hi)) (b := twelve)
      ⟨by decide, by decide⟩ (by decide) (by decide)
    rw [NonNeg.fle_iff ⟨by decide, by decide⟩ d1, d2, unitsOfMag_twelve]
    refine le_roundMag_of_mul_le (Nat.mul_pos (by decide) unit_pos) (by decide) ?_
    calc unitsOfMag (magOf f128) * (12 * unit) = unitsOfMag (magOf 0x44C00000) * unit := by decide
      _ ≤ unitsOfMag (magOf p) * unit := Nat.mul_le_mul_right _ (unitsOfMag_le_iff.2 hmag)

/-- P2S answers the speed of the pitch and changes nothing else. -/
theorem exec_p2s (p : Word) (s : State) :
    exec (.p2s p) s = .next { s with response := some ⟨.ok, fsub one (exp2 s.params.prims (fdiv p twelve))⟩ } := rfl

theorem exec_p2s_integer (s : State) {p : Word} {n : Int} (h1 : -126 ≤ n) (h2 : n ≤ 127)
    (h : (isFinite p = true ∧ fix p = 12 * n * unit)
      ∨ (isFinite (fdiv p twelve) = true ∧ fix (fdiv p twelve) = n * unit)) :
    exec (.p2s p) s = .next { s with
      response := some ⟨.ok, fsub one (BitVec.ofNat 32 ((n + 127).toNat * 2 ^ 23))⟩ } := by
  have hq : isFinite (fdiv p twelve) = true ∧ fix (fdiv p twelve) = n * unit :=
    h.elim (fun hp => fdiv_twelve_exact h1 h2 hp.1 hp.2) id
  rw [exec_p2s, exp2_integer _ h1 h2 hq.1 hq.2, pack_false]

theorem exec_p2s_of_1536_le (s : State) {p : Word} (h : fle 0x44C00000 p = true) :
    exec (.p2s p) s = .next { s with response := some ⟨.ok, negInf⟩ } := by
  rw [exec_p2s, exp2_of_128_le _ (fle_f128_fdiv_twelve h), show fsub one posInf = negInf by decide]

theorem exec_p2s_nan (s : State) {p : Word} (h : isNaN p = true) :
    exec (.p2s p) s = .next { s with response := some ⟨.ok, canonNaN⟩ } := by
  rw [exec_p2s, fdiv_nan h, exp2_nan _ (by decide), show fsub one canonNaN = canonNaN by decide]

theorem exec_p2s_negInf (s : State) : exec (.p2s negInf) s = .next { s with response := some ⟨.ok, one⟩ } := by
  rw [exec_p2s, show fdiv negInf twelve = negInf by decide, exp2_negInf, show fsub one posZero = one by decide]

/-- P2S of the finite pitch 12 n answers the word r that 1 - 2^n is. -/
theorem exec_p2s_eq (s : State) {p r : Word} (n : Int)
    (h : (-126 ≤ n ∧ n ≤ 127) ∧ (isFinite p = true ∧ fix p = 12 * n * unit)
      ∧ fsub one (BitVec.ofNat 32 ((n + 127).toNat * 2 ^ 23)) = r) :
    exec (.p2s p) s = .next { s with response := some ⟨.ok, r⟩ } := by
  obtain ⟨⟨h1, h2⟩, hp, rfl⟩ := h
  exact exec_p2s_integer s h1 h2 (.inl hp)

/-- Settles O45: one lemma on `exp2` for each clause. -/
theorem exp2MeetsItsRule : Obligations.Exp2MeetsItsRule := by
  intro k q
  refine ⟨fun n h1 h2 hf hq => ?_, exp2_of_128_le k, exp2_negInf k, fle_zero_exp2 k, exp2_nan k⟩
  rw [exp2_integer k h1 h2 hf hq]
  exact fix_power_of_two h1 h2

/-- Settles O44: `p / 12` is the integer exactly, and EXP2 is fixed there; the ten pitches are cases of the clauses. -/
theorem speedAtTheExactPitches : Obligations.SpeedAtTheExactPitches := by
  intro s
  refine ⟨fun p n h1 h2 h => exec_p2s_integer s h1 h2 h, fun p h => exec_p2s_of_1536_le s h,
    fun p h => exec_p2s_nan s h, ?_⟩
  simp only [List.forall_mem_cons, List.not_mem_nil, false_imp_iff, implies_true, and_true]
  exact ⟨exec_p2s_eq s 0 (by decide), exec_p2s_eq s 0 (by decide), exec_p2s_eq s 1 (by decide),
    exec_p2s_eq s (-1) (by decide), exec_p2s_eq s 2 (by decide), exec_p2s_eq s (-2) (by decide),
    exec_p2s_nan s (by decide), exec_p2s_of_1536_le s (by decide), exec_p2s_of_1536_le s (by decide),
    exec_p2s_negInf s⟩

end Sys2Proof.Machine
end

section
/-! PROOFS. COSPI (R18) and the envelope (R12, R116). -/

namespace Sys2Proof.Machine

open Sys2Proof

theorem cospi_not_finite (k : PrimKind) {t : Word} (h : isFinite t = false) : cospi k t = canonNaN := by
  simp [cospi, h]

/-- `mod2Units` is t mod 2 in units, as an integer. -/
theorem mod2Units_cast (t : Word) : (mod2Units t : Int) = fix t % 2 ^ 150 := by
  have e : ((2 * unit : Nat) : Int) = 2 ^ 150 := by decide
  unfold mod2Units
  rw [e, Int.toNat_of_nonneg (Int.emod_nonneg _ (by positivity))]

theorem unit_eq : unit = 2 ^ 149 := rfl

theorem cospi_even (k : PrimKind) {t : Word} (hf : isFinite t = true) (h : fix t % 2 ^ 150 = 0) : cospi k t = one := by
  have := mod2Units_cast t
  unfold cospi
  rw [if_neg (by simp [hf]), if_pos (by omega)]

theorem cospi_half (k : PrimKind) {t : Word} (hf : isFinite t = true) (h : fix t % 2 ^ 150 = 2 ^ 148) :
    cospi k t = posZero := by
  have := mod2Units_cast t
  have := unit_eq
  unfold cospi
  rw [if_neg (by simp [hf]), if_neg (by omega), if_pos (by omega)]

theorem cospi_odd (k : PrimKind) {t : Word} (hf : isFinite t = true) (h : fix t % 2 ^ 150 = 2 ^ 149) :
    cospi k t = minusOne := by
  have := mod2Units_cast t
  have := unit_eq
  unfold cospi
  rw [if_neg (by simp [hf]), if_neg (by omega), if_neg (by omega), if_pos (by omega)]

theorem cospi_three_halves (k : PrimKind) {t : Word} (hf : isFinite t = true) (h : fix t % 2 ^ 150 = 3 * 2 ^ 148) :
    cospi k t = posZero := by
  have := mod2Units_cast t
  have := unit_eq
  unfold cospi
  rw [if_neg (by simp [hf]), if_neg (by omega), if_neg (by omega), if_neg (by omega), if_pos (by omega)]

theorem boundUnit_range (w : Word) : fle minusOne (boundUnit w) = true ∧ fle (boundUnit w) one = true := by
  unfold boundUnit
  split
  · next h => simpa using h
  · decide

/-- COSPI of a finite word lies in [-1, 1]. -/
theorem cospi_range (k : PrimKind) {t : Word} (hf : isFinite t = true) :
    fle minusOne (cospi k t) = true ∧ fle (cospi k t) one = true := by
  unfold cospi
  rw [if_neg (by simp [hf])]
  split_ifs
  · decide
  · decide
  · decide
  · decide
  · exact boundUnit_range _

/-- Settles O46: one lemma on `cospi` for each exact point, and its range. -/
theorem cospiMeetsItsRule : Obligations.CospiMeetsItsRule := by
  intro k t
  exact ⟨fun hf => ⟨cospi_even k hf, cospi_half k hf, cospi_odd k hf, cospi_three_halves k hf, cospi_range k hf⟩,
    cospi_not_finite k⟩

theorem env_of_hann {p : Params} (h : p.env = .hann) (phi : Word) : env p phi = hann p.prims phi := by
  unfold env; rw [h]

theorem env_of_other {p : Params} (h : p.env = .other) (phi : Word) :
    env p phi = if magOf phi = 0 then posZero else boundEnv (Config.envFree phi) := by
  unfold env; rw [h]

theorem boundEnv_range (w : Word) : fle posZero (boundEnv w) = true ∧ fle (boundEnv w) one = true := by
  unfold boundEnv
  split
  · next h => simpa using h
  · decide

/-- The Hann window at a phase whose cosine is known. -/
theorem hann_eq {k : PrimKind} {phi c r : Word} (hc : cospi k (fmul two phi) = c) (hr : fmul half (fsub one c) = r) :
    hann k phi = r := by
  unfold hann; rw [hc, hr]

theorem hann_zero (k : PrimKind) : hann k posZero = posZero :=
  hann_eq (cospi_even k (by decide) (by decide)) (by decide)

theorem hann_quarter (k : PrimKind) : hann k 0x3E800000 = half :=
  hann_eq (cospi_half k (by decide) (by decide)) (by decide)

theorem hann_half (k : PrimKind) : hann k half = one := hann_eq (cospi_odd k (by decide) (by decide)) (by decide)

theorem hann_three_quarters (k : PrimKind) : hann k 0x3F400000 = half :=
  hann_eq (cospi_three_halves k (by decide) (by decide)) (by decide)

/-- 1 - c lies in [0, 2] for c in [-1, 1]. -/
theorem one_fsub_range {c : Word} (h1 : fle minusOne c = true) (h2 : fle c one = true) :
    NonNeg (fsub one c) ∧ magOf (fsub one c) ≤ magOf two := by
  have hn := (fle_not_nan h2).1
  have hf : isFinite c = true := isFinite_iff.2 ((magOf_le_one h1 h2).trans_lt (by decide))
  have l1 := (fle_iff (by decide) hn).1 h1
  have l2 := (fle_iff hn (by decide)).1 h2
  refine ⟨fsub_nonneg (by decide) hf l2 (by rw [show signOf one = false by decide]; rfl), ?_⟩
  rw [fsub_finite (by decide) hf, magOf_roundInt]
  refine roundMag_le_of_le (by decide) ?_
  have e1 : fix minusOne = -fix one := by decide
  have e2 : (unitsOfMag (magOf two) : Int) = 2 * fix one := by decide
  omega

/-- Half of a word in [0, 2] lies in [0, 1]. -/
theorem half_fmul_range {w : Word} (h : NonNeg w) (hle : magOf w ≤ magOf two) :
    fle posZero (fmul half w) = true ∧ fle (fmul half w) one = true := by
  have hf : isFinite w = true := isFinite_iff.2 (hle.trans_lt (by decide))
  obtain ⟨p1, p2⟩ := fmul_pos (a := half) ⟨by decide, by decide⟩ (by decide) h hf
  refine ⟨fle_zero_of_sign p1.1 p1.2, (NonNeg.fle_iff p1 ⟨by decide, by decide⟩).2 ?_⟩
  rw [p2]
  refine roundMag_le_of_le_mul unit_pos (by decide) ?_
  calc unitsOfMag (magOf half) * unitsOfMag (magOf w)
    _ ≤ unitsOfMag (magOf half) * unitsOfMag (magOf two) := Nat.mul_le_mul_left _ (unitsOfMag_le_iff.2 hle)
    _ = unitsOfMag (magOf one) * unit := by decide

theorem magOf_le_one_of_inUnit {phi : Word} (h : InUnit phi) : magOf phi ≤ magOf one := by
  obtain ⟨h0, h1⟩ := h
  have hn := fle_not_nan h0
  have l0 := (fle_iff hn.1 hn.2).1 h0
  have l1 := (flt_iff hn.2 (by decide)).1 h1
  refine magOf_le_one ((fle_iff (by decide) hn.2).2 ?_) ((fle_iff hn.2 (by decide)).2 l1.le)
  exact le_trans (by decide) l0

/-- The envelope of every block lies in [0, 1] on [0, 1). -/
theorem env_range (p : Params) {phi : Word} (h : InUnit phi) :
    fle posZero (env p phi) = true ∧ fle (env p phi) one = true := by
  cases he : p.env with
  | hann =>
    obtain ⟨c1, c2⟩ := cospi_range p.prims (isFinite_two_mul (magOf_le_one_of_inUnit h))
    obtain ⟨d1, d2⟩ := one_fsub_range c1 c2
    rw [env_of_hann he]
    exact half_fmul_range d1 d2
  | other =>
    rw [env_of_other he]
    split
    · decide
    · exact boundEnv_range _

theorem env_zero (p : Params) : env p posZero = posZero := by
  cases he : p.env with
  | hann => rw [env_of_hann he, hann_zero]
  | other => rw [env_of_other he, if_pos (by decide)]

/-- A quotient of two integers c < l up to 2^24 rounds below 1.0: it is at most 1 - 2^-24, which binary32 holds. -/
theorem fdiv_f32_inUnit {c l : Nat} (h : c < l) (hl : l ≤ 2 ^ 24) : InUnit (fdiv (f32 c) (f32 l)) := by
  have hu := unit_pos
  have hl0 : 0 < magOf (f32 l) := by
    rw [← unitsOfMag_lt_iff, unitsOfMag_zero, unitsOfMag_f32 hl]
    exact Nat.mul_pos (by omega) hu
  obtain ⟨d1, d2⟩ := fdiv_pos (nonNeg_f32 c) (f32Signed_finite (by omega)) (nonNeg_f32 l) (f32Signed_finite hl) hl0
  refine ⟨fle_zero_of_sign d1.1 d1.2, (NonNeg.flt_iff d1 ⟨by decide, by decide⟩).2 ?_⟩
  rw [d2, unitsOfMag_f32 (by omega), unitsOfMag_f32 hl]
  have hcl : c * 2 ^ 24 ≤ (2 ^ 24 - 1) * l := by omega
  have hle : roundMag (c * unit * unit) (l * unit) ≤ 0x3F7FFFFF := by
    refine roundMag_le_of_le_mul (Nat.mul_pos (by omega) hu) (by decide) ?_
    calc c * unit * unit = c * 2 ^ 24 * (2 ^ 125 * unit) := by unfold unit; ring
      _ ≤ (2 ^ 24 - 1) * l * (2 ^ 125 * unit) := Nat.mul_le_mul_right _ hcl
      _ = (2 ^ 24 - 1) * 2 ^ 125 * (l * unit) := by ring
      _ = unitsOfMag 0x3F7FFFFF * (l * unit) := by
        rw [show unitsOfMag 0x3F7FFFFF = (2 ^ 24 - 1) * 2 ^ 125 by decide]
  exact hle.trans_lt (by decide)

/-- Settles O41: the Hann window's exact points, the envelope's range, and COUNT / LIFE below 1. -/
theorem envelopeStaysInUnitRange : Obligations.EnvelopeStaysInUnitRange := by
  refine ⟨fun p hp => ⟨fun phi => env_of_hann hp phi, ?_, ?_, ?_⟩,
    fun p => ⟨env_zero p, fun phi h => env_range p h⟩, fun g ok ha => fdiv_f32_inUnit (ok.count_lt ha) ok.life_le⟩
  · rw [env_of_hann hp]; exact hann_quarter _
  · rw [env_of_hann hp]; exact hann_three_quarters _
  · rw [env_of_hann hp]; exact hann_half _

end Sys2Proof.Machine
end

section
/-! PROOFS. The lifetime of a window (R112, R115) and the pitch used (R9, R141). -/

namespace Sys2Proof.Machine

open Sys2Proof

theorem fix_one : fix one = unit := by decide

/-- A value below 1.0 rounds to an integer of at most 1. -/
theorem rneInt_le_one {w : Word} (h : fix w < unit) : rneInt w ≤ 1 := by
  unfold rneInt
  split
  · omega
  · next hs =>
    have hu : unitsOfMag (magOf w) < unit := by unfold fix at h; rw [if_neg hs] at h; exact_mod_cast h
    have := halfEven_le_div_succ (unitsOfMag (magOf w)) unit
    rw [Nat.div_eq_of_lt hu] at this
    omega

/-- A value of at least 1.0 rounds to the nearest integer, at least 1. -/
theorem rneInt_of_one_le {w : Word} (h : fix one ≤ fix w) :
    fix w = (unitsOfMag (magOf w) : Int) ∧ rneInt w = halfEven (unitsOfMag (magOf w)) unit
      ∧ 1 ≤ halfEven (unitsOfMag (magOf w)) unit := by
  have hu := unit_pos
  have hs : ¬ signOf w = true := fun hs => by have := fix_neg_iff hs; rw [fix_one] at h; omega
  have hw : fix w = (unitsOfMag (magOf w) : Int) := by unfold fix; rw [if_neg hs]
  refine ⟨hw, by unfold rneInt; rw [if_neg hs], ?_⟩
  have hle : unit ≤ unitsOfMag (magOf w) := by rw [fix_one, hw] at h; exact_mod_cast h
  exact ((Nat.le_div_iff_mul_le hu).2 (by rwa [Nat.one_mul])).trans (halfEven_ge_div _ _)

theorem lifetime_nan {sr ws : Word} (h : isNaN (fdiv (fmul ws sr) thousand) = true) : lifetime sr ws = 1 := by
  simp [lifetime, h]

theorem lifetime_max {sr ws : Word} (h : fle (f32 (2 ^ 24)) (fdiv (fmul ws sr) thousand) = true) :
    lifetime sr ws = 2 ^ 24 := by
  unfold lifetime Config.lifeMax
  rw [if_neg (by simp [(fle_not_nan h).2]), if_pos h]

/-- Below 2^24 a lifetime is the rounded number of samples, and at least 1. -/
theorem lifetime_of_lt_max {sr ws : Word} (h : flt (fdiv (fmul ws sr) thousand) (f32 (2 ^ 24)) = true) :
    lifetime sr ws = if 1 ≤ rneInt (fdiv (fmul ws sr) thousand) then (rneInt (fdiv (fmul ws sr) thousand)).toNat
      else 1 := by
  obtain ⟨n1, n2⟩ := flt_not_nan h
  have hle : ¬ fle (f32 (2 ^ 24)) (fdiv (fmul ws sr) thousand) = true := by
    rw [fle_iff n2 n1, not_le]; exact (flt_iff n1 n2).1 h
  unfold lifetime Config.lifeMax
  rw [if_neg (by simp [n1]), if_neg hle]

theorem lifetime_of_lt_one {sr ws : Word} (h : flt (fdiv (fmul ws sr) thousand) one = true) : lifetime sr ws = 1 := by
  obtain ⟨n1, n2⟩ := flt_not_nan h
  have hlt := (flt_iff n1 n2).1 h
  have hmax : flt (fdiv (fmul ws sr) thousand) (f32 (2 ^ 24)) = true :=
    (flt_iff n1 (f32Signed_not_nan _ _)).2 (hlt.trans (by decide))
  have := rneInt_le_one (fix_one ▸ hlt)
  rw [lifetime_of_lt_max hmax]
  split <;> omega

/-- From 1.0 up to 2^24 a lifetime is the number of samples rounded to the nearest integer, ties to even. -/
theorem lifetime_nearest {sr ws lf : Word} (hlf : lf = fdiv (fmul ws sr) thousand) (h1 : fle one lf = true)
    (h2 : flt lf (f32 (2 ^ 24)) = true) :
    2 * |(lifetime sr ws : Int) * unit - fix lf| ≤ unit
      ∧ (2 * |(lifetime sr ws : Int) * unit - fix lf| = unit → lifetime sr ws % 2 = 0) := by
  obtain ⟨hw, hr, hpos⟩ := rneInt_of_one_le ((fle_iff (by decide) (fle_not_nan h1).2).1 h1)
  have e : lifetime sr ws = halfEven (unitsOfMag (magOf lf)) unit := by
    subst hlf
    rw [lifetime_of_lt_max h2, hr, if_pos (by exact_mod_cast hpos), Int.toNat_natCast]
  rw [e, hw]
  exact ⟨halfEven_dist unit_pos, fun h => halfEven_even_of_tie h unit_pos⟩

/-- Settles O38: the three ranges of the number of samples, and the bounds of every lifetime. -/
theorem lifetimeOfAWindow : Obligations.LifetimeOfAWindow := by
  rintro sr ws lf rfl
  exact ⟨fun h => h.elim lifetime_nan lifetime_of_lt_one, lifetime_max, lifetime_nearest rfl, lifetime_bounds sr ws⟩

/-- The range of the pitches is not empty (R9). -/
theorem pitchRange_of_paramsOk {p : Params} (h : paramsOk p = true) : fle p.minPitch p.maxPitch = true := by
  simp only [paramsOk, Bool.and_eq_true] at h
  obtain ⟨⟨⟨⟨-, -, hr⟩, -⟩, -⟩, -⟩ := h
  exact hr

theorem pitchUsed_nan (p : Params) {w : Word} (h : isNaN w = true) : pitchUsed p w = pitchUsed p posZero := by
  have hz : isNaN posZero = false := by decide
  simp [pitchUsed, h, hz]

theorem pitchUsed_inside {p : Params} {w : Word} (h1 : fle p.minPitch w = true) (h2 : fle w p.maxPitch = true) :
    pitchUsed p w = w ∧ pitchClamped p w = false := by
  have hn := (fle_not_nan h1).2
  simp [pitchUsed, pitchClamped, hn, flt_eq_false_of_fle h1, flt_eq_false_of_fle h2]

theorem pitchUsed_below {p : Params} {w : Word} (h : flt w p.minPitch = true) :
    pitchUsed p w = p.minPitch ∧ pitchClamped p w = true := by
  have hn := (flt_not_nan h).1
  simp [pitchUsed, pitchClamped, hn, h]

theorem pitchUsed_above {p : Params} (hr : fle p.minPitch p.maxPitch = true) {w : Word}
    (h : flt p.maxPitch w = true) : pitchUsed p w = p.maxPitch ∧ pitchClamped p w = true := by
  have hn := (flt_not_nan h).2
  have hlo : flt w p.minPitch = false := flt_eq_false_of_fle (fle_of_fle_of_flt hr h)
  simp [pitchUsed, pitchClamped, hn, h, hlo]

/-- A pitch that is no NaN is below, above or inside the range. -/
theorem pitchUsed_range_of_not_nan {p : Params} (hr : fle p.minPitch p.maxPitch = true) {w : Word}
    (hn : isNaN w = false) : fle p.minPitch (pitchUsed p w) = true ∧ fle (pitchUsed p w) p.maxPitch = true := by
  obtain ⟨n0, n1⟩ := fle_not_nan hr
  by_cases hlo : flt w p.minPitch = true
  · rw [(pitchUsed_below hlo).1]; exact ⟨(fle_iff n0 n0).2 le_rfl, hr⟩
  by_cases hhi : flt p.maxPitch w = true
  · rw [(pitchUsed_above hr hhi).1]; exact ⟨hr, (fle_iff n1 n1).2 le_rfl⟩
  have h1 := fle_of_not_flt hn n0 (by simpa using hlo)
  have h2 := fle_of_not_flt n1 hn (by simpa using hhi)
  rw [(pitchUsed_inside h1 h2).1]
  exact ⟨h1, h2⟩

theorem pitchUsed_range {p : Params} (hr : fle p.minPitch p.maxPitch = true) (w : Word) :
    fle p.minPitch (pitchUsed p w) = true ∧ fle (pitchUsed p w) p.maxPitch = true := by
  cases hn : isNaN w with
  | true => rw [pitchUsed_nan p hn]; exact pitchUsed_range_of_not_nan hr (by decide)
  | false => exact pitchUsed_range_of_not_nan hr hn

/-- Settles O51: the pitch below, inside and above the range, and NaN. -/
theorem pitchUsedIsInRange : Obligations.PitchUsedIsInRange := by
  intro p w hp
  have hr := pitchRange_of_paramsOk hp
  obtain ⟨lo, hi⟩ := pitchUsed_range hr w
  exact ⟨lo, hi, pitchUsed_inside, pitchUsed_below, pitchUsed_above hr,
    fun hn => ⟨pitchUsed_nan p hn, by simp [pitchClamped, hn]⟩⟩

end Sys2Proof.Machine
end

section
/-! PROOFS. The length of the delay line, a step of each kind, reset and the invariant (R27, R39, R40, R56, R83). -/

namespace Sys2Proof.Machine

open Sys2Proof

/-! ### The length of the delay line -/

theorem dlMax_bounds {p : Params} (h : paramsOk p = true) : 3 ≤ p.dlMax ∧ p.dlMax ≤ 2 ^ 24 := by
  simp only [paramsOk, Bool.and_eq_true, decide_eq_true_eq] at h
  exact ⟨h.1.2, h.2⟩

/-- The slots a rate requires, as an integer: at least one, and at most those the capacity check allows (R83, R84). -/
theorem intOf_requiredSlots {p : Params} {sr : Word} (hp : paramsOk p = true) (hs : sampleRateOk sr = true)
    (hf : fitsCapacity p sr = true) :
    1 ≤ intOf (requiredSlots p sr) ∧ intOf (requiredSlots p sr) ≤ (p.dlMax - 2 : Nat) := by
  obtain ⟨hn, hone⟩ := one_le_requiredSlots hp hs
  have hmax : p.dlMax - 2 ≤ 2 ^ 24 := (Nat.sub_le _ _).trans (dlMax_bounds hp).2
  have hu : (0 : Int) < unit := by exact_mod_cast unit_pos
  have hlo : (unit : Int) ≤ fix (requiredSlots p sr) := by
    rw [hn.fix_eq, ← unitsOfMag_one]
    exact_mod_cast unitsOfMag_le_iff.2 hone
  have hhi : fix (requiredSlots p sr) ≤ ((p.dlMax - 2 : Nat) : Int) * unit := by
    have := (fle_iff hn.1 (nonNeg_f32 _).1).1 hf
    rwa [fix_f32 hmax, Nat.cast_mul] at this
  refine ⟨(Int.le_ediv_iff_mul_le hu).2 (by rwa [one_mul]), ?_⟩
  exact (Int.ediv_le_ediv hu hhi).trans_eq (Int.mul_ediv_cancel _ hu.ne')

/-- Settles O23: the slots required lie in 1 to DL_MAX - 2. -/
theorem delayLineLengthIsInBounds : Obligations.DelayLineLengthIsInBounds := by
  intro p sr hp hs hf
  obtain ⟨hlo, hhi⟩ := intOf_requiredSlots hp hs hf
  have hmax := (dlMax_bounds hp).1
  unfold lineLength
  omega

/-! ### The kinds of step -/

theorem step_of_idle {s : State} (h : s.inputs = []) : step s = .next { s with response := none } := by
  unfold step; rw [h]

theorem step_of_reset {s : State} {e : HostInput} {rest : List HostInput} (h : s.inputs = e :: rest)
    (he : e = .rst ∨ ∃ k, e = .abandoned k) : step s = .next (hardwareReset { s with inputs := rest }) := by
  unfold step
  rcases he with rfl | ⟨k, rfl⟩
  · rw [h]
  · rw [h]

theorem step_of_undecoded {s : State} {k : Command} {rest : List HostInput} {d : DecodeError}
    (h : s.inputs = .transact k :: rest) (hd : decode k = .error d) :
    step s = .next (rejected .illegal { s with inputs := rest }) := by
  simp only [step, h, hd, reject]

theorem step_of_decoded {s : State} {k : Command} {rest : List HostInput} {i : Instr}
    (h : s.inputs = .transact k :: rest) (hd : decode k = .ok i) : step s = exec i { s with inputs := rest } := by
  simp only [step, h, hd]

/-- Settles O8: `step_of_decoded`. -/
theorem stepRunsTheDecodedCommand : Obligations.StepRunsTheDecodedCommand :=
  fun _ _ _ _ h hd => step_of_decoded h hd

/-- Settles O10: the state `State.resetWith` writes out, of the block TC-A and after `rst`. -/
theorem hardwareResetState : Obligations.HardwareResetState :=
  ⟨⟨[], rfl⟩, fun _ _ _ h he => ⟨[], step_of_reset h he⟩⟩

/-! ### The invariant -/

/-- Settles O57: `inv_resetWith`, and TC-A is a block within the constraints. -/
theorem resetMeetsTheInvariant : Obligations.ResetMeetsTheInvariant :=
  ⟨fun _ hp => inv_resetWith hp, inv_resetWith (by decide)⟩

/-- An INIT that succeeds establishes the invariant (R85). -/
theorem Inv.constructed {s : State} (h : Inv s) {sr : Word} (hs : sampleRateOk sr = true)
    (hf : fitsCapacity s.params sr = true) : Inv (constructed sr s) where
  params := h.params
  pool := List.length_replicate
  grains := fun g hg => by rw [List.eq_of_mem_replicate hg]; exact grainOk_reset
  phase := inUnit_zero
  mem := Memory.wf_memClear h.mem _
  ring := fun _ => by
    obtain ⟨hlo, hhi⟩ := delayLineLengthIsInBounds s.params sr h.params hs hf
    have hmax := (dlMax_bounds h.params).2
    have hn : (Machine.constructed sr s).n.toNat = lineLength s.params sr := by
      rw [constructed_n, BitVec.toNat_ofNat, Nat.mod_eq_of_lt (by omega)]
    have hw : (Machine.constructed sr s).wptr.toNat = 0 := rfl
    rw [hn, hw]
    exact ⟨hs, by omega, hlo, hhi⟩
  unconfigured := fun hc => absurd hc (by simp)
  errors := by simp [Status.reset]

/-- Every command that is not rejected keeps the invariant. -/
theorem Inv.effect {i : Instr} {s : State} (h : Inv s) (hok : expectedRsp i s = .ok) : Inv (effect i s).2 := by
  have hc : needsCfg i = true → s.cfg = true := cfg_of_ok hok
  cases i with
  | init sr => exact h.constructed (init_of_ok hok).1 (init_of_ok hok).2
  | clrstat => exact h.clearSticky
  | processN x p => exact h.engineProcess (hc rfl) x p none
  | processH x p hint => exact h.engineProcess (hc rfl) x p (some hint)
  | dlWrite x => exact h.dlWrite (hc rfl) x
  | dlRead o => exact h.noteRclamp _
  | phStep f => exact h.phasorStep (hc rfl) f
  | dtStep v => exact h.deltaStep (hc rfl) v
  | grSet slot f ws sp => exact h.grainSet (hc rfl) _ f ws sp
  | grStep slot sp => exact h.grainStep (hc rfl) _ sp
  | mix sp => exact h.mix (hc rfl) sp
  | nop | rdreg _ | dlPeek _ | grFree _ | grRd _ _ | p2s _ | gfreq _ _ | wsize _ | alloc => exact h

theorem Inv.exec {i : Instr} {s t : State} (h : Inv s) (ht : exec i s = .next t) : Inv t := by
  rcases exec_cases ht with ⟨hok, rfl⟩ | ⟨hne, rfl⟩
  · exact (h.effect hok).respond _
  · exact h.rejected hne

/-- Settles O58: each kind of step keeps the invariant. -/
theorem stepKeepsTheInvariant : Obligations.StepKeepsTheInvariant := by
  intro s t h ht
  have hin : ∀ rest, Inv { s with inputs := rest } := fun rest => h.inputs rest s.response
  rcases step_cases ht with ⟨-, rfl⟩ | ⟨e, rest, -, -, rfl⟩ | ⟨k, rest, d, -, -, rfl⟩ | ⟨k, rest, i, -, -, he⟩
  · exact h.inputs s.inputs none
  · exact (inv_resetWith h.params).inputs rest none
  · exact (hin rest).rejected (by decide)
  · exact (hin rest).exec he

end Sys2Proof.Machine
end

section
/-! PROOFS. What no command tells apart: STATUS' stored fields (R33), and the slots of BUF out of reach (R27, R172). -/

namespace Sys2Proof.Machine

open Sys2Proof

variable {P Q : Prop} {s s' : State}

/-! ### Every command on states alike -/

/-- Two storages of which writes of the same word keep what `Alike` asks: the same, or both in canonical form. -/
def SameWrites (Q : Prop) (s s' : State) : Prop :=
  Q ∨ ∃ hi hi', Memory.wf hi s.buf = true ∧ Memory.wf hi' s'.buf = true

theorem Alike.dlWrite {t t' : State} (h : Alike P Q t t') (hw : SameWrites Q t t') (x : Word) :
    Alike P Q (dlWrite x t) (dlWrite x t') := by
  rcases hw with hq | ⟨hi, hi', ok, ok'⟩
  · exact h.dlWrite_of_buf hq x
  · exact h.dlWrite_of_wf ok ok' x

theorem Alike.engineProcess (h : Alike P Q s s') (hw : SameWrites Q s s') (x p : Word) (hint : Option Word) :
    (engineProcess x p hint s').1 = (engineProcess x p hint s).1
      ∧ Alike P Q (engineProcess x p hint s).2 (engineProcess x p hint s').2 := by
  obtain ⟨he, hb⟩ := h.engineBody p hint
  have hw' : SameWrites Q (Machine.engineBody p hint s).2 (Machine.engineBody p hint s').2 := by
    unfold SameWrites; rwa [buf_engineBody, buf_engineBody]
  rw [engineProcess_eq, engineProcess_eq]
  exact ⟨he, hb.dlWrite hw' x⟩

/-- Only register 0 reads STATUS. -/
theorem Alike.readReg (h : Alike P Q s s') {reg : BitVec 8} (hr : P ∨ reg ≠ 0) : readReg s' reg = readReg s reg := by
  unfold Machine.readReg
  split
  · next h0 =>
    have hp : P := hr.resolve_right (fun hne => hne (BitVec.eq_of_toNat_eq h0))
    unfold statusWord; rw [h.status hp, h.cfg]
  all_goals simp only [h.sr, h.n, h.wptr, h.phase, h.dprev, h.params]

/-- Every command but INIT that is not rejected answers the same on states alike and leaves states alike; only the
readback of STATUS needs the STATUS fields to agree. -/
theorem Alike.effect (h : Alike P Q s s') (hw : SameWrites Q s s') {i : Instr} (hok : expectedRsp i s = .ok)
    (hi : ∀ sr, i ≠ .init sr) (hr : P ∨ i ≠ .rdreg 0) :
    (effect i s').1 = (effect i s).1 ∧ Alike P Q (effect i s).2 (effect i s').2 := by
  cases i with
  | init sr => exact absurd rfl (hi sr)
  | processN x p => exact h.engineProcess hw x p none
  | processH x p hint => exact h.engineProcess hw x p (some hint)
  | rdreg reg =>
    have hreg : P ∨ reg ≠ 0 := hr.imp_right (fun hne he => hne (he ▸ rfl))
    exact ⟨by simp only [Machine.effect, h.readReg hreg], h⟩
  | clrstat => exact ⟨rfl, { h with status := fun hp => by simp only [Machine.effect, h.status hp] }⟩
  | dlWrite x => exact ⟨rfl, h.dlWrite hw x⟩
  | dlRead o => exact h.dlRead o
  | dlPeek k => exact ⟨h.reads _ (fun _ => dlPeek_of_ok hok), h⟩
  | phStep f => exact h.phasorStep f
  | dtStep v => exact h.deltaStep v
  | grSet slot f ws sp => exact h.grainSet _ f ws sp
  | grStep slot sp => exact h.grainStep _ sp
  | grFree slot => exact ⟨by simp only [Machine.effect, h.grainAt], h⟩
  | grRd slot field => exact ⟨by simp only [Machine.effect, h.grainAt], h⟩
  | p2s p => exact ⟨by simp only [Machine.effect, h.params], h⟩
  | gfreq f sp => exact ⟨by simp only [Machine.effect, h.params], h⟩
  | alloc => exact ⟨by simp only [Machine.effect, allocWord, h.allocScan], h⟩
  | mix sp => exact h.mix sp
  | nop | wsize _ => exact ⟨rfl, h⟩

/-! ### STATUS -/

/-- States alike with the same storage give, after the same answer, states that differ in STATUS only. -/
theorem Alike.respond_eq {t t' : State} (h : Alike P True t t') (v : Word) :
    respond v t' = { respond v t with status := t'.status } := by
  cases t
  cases t'
  obtain ⟨rfl, rfl, rfl, rfl, rfl, rfl, rfl, rfl, rfl, -, -, hb⟩ := h
  cases hb trivial
  rfl

/-- Settles O17: a rejection is the same but for STATUS, INIT overwrites STATUS, every other command keeps
states alike. -/
theorem flagsNeverChangeResults : Obligations.FlagsNeverChangeResults := by
  intro i s st hne
  have ha : Alike False True s { s with status := st } :=
    ⟨rfl, rfl, rfl, rfl, rfl, rfl, rfl, rfl, rfl, fun _ _ => rfl, False.elim, fun _ => rfl⟩
  have hrsp : expectedRsp i { s with status := st } = expectedRsp i s := expectedRsp_congr rfl rfl rfl i
  by_cases hok : expectedRsp i s = .ok
  · rw [exec_of_ok hok, exec_of_ok (hrsp.trans hok)]
    refine ⟨_, (effect i { s with status := st }).2.status, rfl, ?_⟩
    by_cases hi : ∃ sr, i = .init sr
    · obtain ⟨sr, rfl⟩ := hi; rfl
    · obtain ⟨hv, he⟩ := ha.effect (.inl trivial) hok (fun sr h => hi ⟨sr, h⟩) (.inr hne)
      rw [hv, he.respond_eq]
  · rw [exec_of_rejected hok, exec_of_rejected (by rwa [hrsp]), hrsp]
    exact ⟨_, noteRejection (expectedRsp i s) st, rfl, rfl⟩

/-! ### Slots out of reach -/

/-- What `SameReachable` asks, with the other storage named. -/
theorem sameReachable_iff : SameReachable s s' ↔ ∃ b, s' = { s with buf := b }
    ∧ (s.cfg = true → ∀ k, k < s.n.toNat → memRead b k = memRead s.buf k) := by
  constructor
  · exact fun ⟨h, hr⟩ => ⟨s'.buf, h, hr⟩
  · rintro ⟨b, rfl, hr⟩
    exact ⟨rfl, hr⟩

/-- While configured, states that agree in reach are alike: the ring is not empty, so every slot read lies in it. -/
theorem SameReachable.alike (h : SameReachable s s') (hinv : Inv s) (hc : s.cfg = true) : Alike True False s s' := by
  obtain ⟨b, rfl, hr⟩ := sameReachable_iff.1 h
  obtain ⟨-, -, hn, -⟩ := hinv.ring hc
  exact ⟨rfl, rfl, rfl, rfl, rfl, rfl, rfl, rfl, rfl, fun k hk => hr hc k (hk (by omega)), fun _ => rfl, False.elim⟩

theorem Alike.sameReachable_respond {t t' : State} (h : Alike True Q t t') (v : Word) :
    SameReachable (respond v t) (respond v t') := by
  refine sameReachable_iff.2 ⟨t'.buf, ?_, fun _ k hk => h.reads k (fun _ => hk)⟩
  cases t
  cases t'
  obtain ⟨rfl, rfl, rfl, rfl, rfl, rfl, rfl, rfl, rfl, -, hst, -⟩ := h
  cases hst trivial
  rfl

/-- A command that is accepted with CFG = 0 and is not INIT neither reads nor changes the storage (R71). -/
theorem SameReachable.effect_of_not_needsCfg (h : SameReachable s s') {i : Instr} (hn : needsCfg i = false)
    (hi : ∀ sr, i ≠ .init sr) : (effect i s').1 = (effect i s).1 ∧ SameReachable (effect i s).2 (effect i s').2 := by
  obtain ⟨b, rfl, hr⟩ := sameReachable_iff.1 h
  cases i with
  | init sr => exact absurd rfl (hi sr)
  | nop | rdreg _ | clrstat | grFree _ | grRd _ _ | p2s _ | gfreq _ _ | wsize _ | alloc =>
    exact ⟨rfl, sameReachable_iff.2 ⟨b, rfl, hr⟩⟩
  | processN _ _ | processH _ _ _ | dlWrite _ | dlRead _ | dlPeek _ | phStep _ | dtStep _ | grSet _ _ _ _ | grStep _ _
  | mix _ => exact absurd hn (by simp [needsCfg])

/-- INIT clears every slot that comes into reach. -/
theorem SameReachable.constructed (h : SameReachable s s') (sr : Word) :
    SameReachable (Machine.constructed sr s) (Machine.constructed sr s') := by
  obtain ⟨b, rfl, -⟩ := sameReachable_iff.1 h
  refine sameReachable_iff.2 ⟨memClear b (lineLength s.params sr), rfl, fun _ k hk => ?_⟩
  have hlt : k < lineLength s.params sr := hk.trans_le (by rw [constructed_n, BitVec.toNat_ofNat]; exact Nat.mod_le _ _)
  rw [constructed_buf, memRead_memClear, memRead_memClear, if_pos hlt, if_pos hlt]

theorem SameReachable.respond (h : SameReachable s s') (v : Word) : SameReachable (respond v s) (respond v s') := by
  obtain ⟨b, rfl, hr⟩ := sameReachable_iff.1 h
  exact sameReachable_iff.2 ⟨b, rfl, hr⟩

theorem SameReachable.rejected (h : SameReachable s s') (code : Rsp) :
    SameReachable (rejected code s) (rejected code s') := by
  obtain ⟨b, rfl, hr⟩ := sameReachable_iff.1 h
  exact sameReachable_iff.2 ⟨b, rfl, hr⟩

theorem SameReachable.inputs (h : SameReachable s s') (e : List HostInput) :
    SameReachable { s with inputs := e } { s' with inputs := e } := by
  obtain ⟨b, rfl, hr⟩ := sameReachable_iff.1 h
  exact sameReachable_iff.2 ⟨b, rfl, hr⟩

/-- Every command that is not rejected answers states that agree in reach the same and leaves them so. -/
theorem SameReachable.respond_effect (h : SameReachable s s') (hinv : Inv s) (hinv' : Inv s') {i : Instr}
    (hok : expectedRsp i s = .ok) :
    SameReachable (Machine.respond (effect i s).1 (effect i s).2)
      (Machine.respond (effect i s').1 (effect i s').2) := by
  by_cases hi : ∃ sr, i = .init sr
  · obtain ⟨sr, rfl⟩ := hi
    have hp : s'.params = s.params := by rw [h.1]
    simp only [Machine.effect, hp]
    exact (h.constructed sr).respond _
  have hi : ∀ sr, i ≠ .init sr := fun sr he => hi ⟨sr, he⟩
  cases hn : needsCfg i with
  | true =>
    have hw : SameWrites False s s' := .inr ⟨_, _, hinv.mem, hinv'.mem⟩
    obtain ⟨hv, he⟩ := (h.alike hinv (cfg_of_ok hok hn)).effect hw hok hi (.inl trivial)
    rw [hv]
    exact he.sameReachable_respond _
  | false =>
    obtain ⟨hv, he⟩ := h.effect_of_not_needsCfg hn hi
    rw [hv]
    exact he.respond _

/-- Every command answers states that agree in reach the same and leaves states that agree in reach. -/
theorem SameReachable.exec (h : SameReachable s s') (hinv : Inv s) (hinv' : Inv s') (i : Instr) {t : State}
    (ht : exec i s = .next t) : ∃ t', Machine.exec i s' = .next t' ∧ SameReachable t t' := by
  have hrsp : expectedRsp i s' = expectedRsp i s := expectedRsp_congr (by rw [h.1]) (by rw [h.1]) (by rw [h.1]) i
  rcases exec_cases ht with ⟨hok, rfl⟩ | ⟨hne, rfl⟩
  · exact ⟨_, exec_of_ok (hrsp.trans hok), h.respond_effect hinv hinv' hok⟩
  · exact ⟨_, exec_of_rejected (by rwa [hrsp]), by rw [hrsp]; exact h.rejected _⟩

/-- Settles O59: each kind of step keeps states that agree in reach so. -/
theorem unreachableSlotsAreUnobservable : Obligations.UnreachableSlotsAreUnobservable := by
  intro s s' t hinv hinv' h ht
  have hin : s'.inputs = s.inputs := by rw [h.1]
  rcases step_cases ht with ⟨hi, rfl⟩ | ⟨e, rest, hi, he, rfl⟩ | ⟨k, rest, d, hi, hd, rfl⟩ | ⟨k, rest, i, hi, hd, hx⟩
  · obtain ⟨b, rfl, hr⟩ := sameReachable_iff.1 h
    exact ⟨_, step_of_idle hi, sameReachable_iff.2 ⟨b, rfl, hr⟩⟩
  · obtain ⟨b, rfl, -⟩ := sameReachable_iff.1 h
    exact ⟨_, step_of_reset hi he, sameReachable_iff.2 ⟨[], rfl, fun hc => absurd hc Bool.false_ne_true⟩⟩
  · exact ⟨_, step_of_undecoded (hin.trans hi) hd, (h.inputs rest).rejected _⟩
  · obtain ⟨t', ht', hs⟩ := (h.inputs rest).exec (hinv.inputs rest s.response) (hinv'.inputs rest s'.response) i hx
    exact ⟨t', (step_of_decoded (hin.trans hi) hd).trans ht', hs⟩

end Sys2Proof.Machine
end

section
/-! PROOFS. The bits of STATUS and what writes each of them (R32, R147, R151, R155). -/

namespace Sys2Proof.Machine

open Sys2Proof

/-! ### The word -/

theorem toNat_bit (b : Bool) : (bit b).toNat = b.toNat := by cases b <;> rfl

/-- A field put below another. -/
theorem toNat_append_add {m n : Nat} (x : BitVec m) (y : BitVec n) : (x ++ y).toNat = x.toNat * 2 ^ n + y.toNat := by
  rw [BitVec.toNat_append, ← Nat.shiftLeft_add_eq_or_of_lt y.isLt, Nat.shiftLeft_eq]

/-- The STATUS word as a number: each field at its place. -/
theorem toNat_statusWord (s : State) : (statusWord s).toNat =
    s.cfg.toNat + 2 * s.status.drop.toNat + 4 * s.status.pclamp.toNat + 8 * s.status.hinval.toNat
    + 16 * s.status.rclamp.toNat + 32 * s.status.ill.toNat + 64 * s.status.trig.toNat
    + 256 * (rspCode s.status.lastErr).toNat := by
  simp only [statusWord, toNat_append_add, toNat_bit, BitVec.toNat_ofNat]
  ring

/-- Settles O16: `toNat_statusWord`, and the number of each code. -/
theorem statusWordBits : Obligations.StatusWordBits := by
  intro s
  rw [toNat_statusWord]
  cases s.status.lastErr <;> rfl

/-! ### TRIG -/

theorem trig_mix (sp : Word) (s : State) : (mix sp s).2.status.trig = s.status.trig := by
  obtain ⟨b, hb⟩ := status_mix sp s
  rw [hb]

theorem trig_grainStep (j : Nat) (sp : Word) (s : State) : (grainStep j sp s).2.status.trig = s.status.trig := by
  unfold grainStep
  dsimp only
  split <;> rfl

/-- No command but PROCESS and INIT writes TRIG. -/
theorem trig_effect {i : Instr} (hp : isProcess i = false) (hi : ∀ sr, i ≠ .init sr) (s : State) :
    (effect i s).2.status.trig = s.status.trig := by
  cases i with
  | init sr => exact absurd rfl (hi sr)
  | processN _ _ | processH _ _ _ => exact absurd hp (by simp [isProcess])
  | mix sp => exact trig_mix sp s
  | grStep slot sp => exact trig_grainStep _ sp s
  | nop | rdreg _ | clrstat | dlWrite _ | dlRead _ | dlPeek _ | phStep _ | dtStep _ | grSet _ _ _ _ | grFree _
  | grRd _ _ | p2s _ | gfreq _ _ | wsize _ | alloc => rfl

theorem trig_processN (x p : Word) (s : State) : (engineProcess x p none s).2.status.trig = false := by
  obtain ⟨t, d, v, r, hst, hnone⟩ := status_engineProcess x p none s
  rw [hst]
  exact (hnone rfl).1

/-- TRIG after a PROCESS_H: cleared first, set by the trigger, kept by the mixer and the write (R147). -/
theorem trig_processH (x p h : Word) (s : State) :
    (engineProcess x p (some h) s).2.status.trig = detectsTrigger s p h := by
  rw [engineProcess_eq, dlWrite_status, engineBody, trig_mix]
  have hst := (hintStep_some h p (setTrig false (notePclamp (pitchClamped s.params p) s))).1
  exact (congrArg Status.trig hst).trans (Bool.false_or _)

theorem expectedRsp_processN {s : State} (hc : s.cfg = true) (x p : Word) : expectedRsp (.processN x p) s = .ok := by
  simp [expectedRsp, Instr.wf, hc]

theorem expectedRsp_processH {s : State} (hc : s.cfg = true) (x p h : Word) :
    expectedRsp (.processH x p h) s = .ok := by simp [expectedRsp, Instr.wf, hc]

/-- Settles O18: `trig_effect` and a rejection keep TRIG; INIT, PROCESS_N and PROCESS_H write it. -/
theorem trigIsWrittenByProcessAndInit : Obligations.TrigIsWrittenByProcessAndInit := by
  refine ⟨fun i s t ht hcase => ?_, fun s sr hok => ⟨_, exec_of_ok hok, rfl⟩, fun s x p h hc => ⟨?_, ?_⟩⟩
  · rcases exec_cases ht with ⟨hok, rfl⟩ | ⟨-, rfl⟩
    · obtain ⟨hp, hi⟩ := hcase.resolve_right (not_not_intro hok)
      exact trig_effect hp hi s
    · rfl
  · exact ⟨_, exec_of_ok (expectedRsp_processN hc x p), trig_processN x p s⟩
  · exact ⟨_, exec_of_ok (expectedRsp_processH hc x p h), trig_processH x p h s⟩

/-! ### The sticky bits -/

/-- STATUS with a command's warnings added to DROP, PCLAMP, HINVAL and RCLAMP, and TRIG as given. -/
def Status.warned (st w : Status) (trig : Bool) : Status where
  drop := st.drop || w.drop
  pclamp := st.pclamp || w.pclamp
  hinval := st.hinval || w.hinval
  rclamp := st.rclamp || w.rclamp
  ill := st.ill
  trig := trig
  lastErr := st.lastErr

theorem Status.warned_reset (st : Status) : st.warned Status.reset st.trig = st := by simp [Status.warned, Status.reset]

/-- STATUS with RCLAMP added, as a clamped read leaves it. -/
theorem Status.warned_rclamp (st : Status) (b : Bool) :
    st.warned { Status.reset with rclamp := b } st.trig = { st with rclamp := st.rclamp || b } := by
  simp [Status.warned, Status.reset]

/-- Where a command other than CLRSTAT and INIT runs, it adds exactly the warnings of its causes. -/
theorem status_effect {i : Instr} {s : State} (hl : s.grains.length = s.params.pool) (hok : expectedRsp i s = .ok)
    (hclr : i ≠ .clrstat) (hi : ∀ sr, i ≠ .init sr) :
    ∃ trig, (effect i s).2.status = s.status.warned (warnings s i) trig := by
  cases i with
  | clrstat => exact absurd rfl hclr
  | init sr => exact absurd rfl (hi sr)
  | processN x p => exact ⟨false, (status_processN x p hl).trans (by simp [Status.warned, warnings, Status.reset])⟩
  | processH x p h => exact ⟨detectsTrigger s p h, status_processH x p h hl⟩
  | dlRead o =>
    refine ⟨s.status.trig, ?_⟩
    rw [warnings, Status.warned_rclamp, ← clampOffset_snd]
    rfl
  | grStep slot sp =>
    have hslot : slot.toNat < s.grains.length := by
      have := wf_of_ok hok
      rw [hl]; simpa [Instr.wf] using this
    have hg := getElem?_grainAt hslot
    refine ⟨s.status.trig, ?_⟩
    rw [warnings, Status.warned_rclamp, hg, effect, grainStep_eq sp hg]
    rfl
  | mix sp =>
    refine ⟨s.status.trig, ?_⟩
    rw [warnings, Status.warned_rclamp, effect, mix_eq sp hl]
    rfl
  | nop | rdreg _ | dlWrite _ | dlPeek _ | phStep _ | dtStep _ | grSet _ _ _ _ | grFree _ | grRd _ _ | p2s _ | gfreq _ _
  | wsize _ | alloc => exact ⟨s.status.trig, (Status.warned_reset s.status).symm⟩

/-- Settles O19: a rejection sets ILL alone, CLRSTAT and INIT clear, and `status_effect` has the rest. -/
theorem stickyBitsHaveTheirCauses : Obligations.StickyBitsHaveTheirCauses := by
  intro i s t hinv ht
  rcases exec_cases ht with ⟨hok, rfl⟩ | ⟨hne, rfl⟩
  · refine ⟨?_, fun hclr hinit => ?_⟩
    · rintro (rfl | ⟨sr, rfl, -⟩)
      · exact ⟨rfl, rfl, rfl, rfl, rfl⟩
      · exact ⟨rfl, rfl, rfl, rfl, rfl⟩
    · obtain ⟨trig, hst⟩ := status_effect hinv.pool hok hclr (fun sr he => hinit sr he hok)
      rw [respond_status, hst]
      simp [Status.warned, hok]
  · refine ⟨?_, fun _ _ => by simp [noteRejection, hne]⟩
    rintro (rfl | ⟨sr, -, hok⟩)
    · exact absurd rfl hne
    · exact absurd hok hne

end Sys2Proof.Machine
end

section
/-! PROOFS. INIT and the readback of registers and grains (R34, R35, R82, R85, R86, R119, R120). -/

namespace Sys2Proof.Machine

open Sys2Proof

/-! ### INIT -/

/-- Settles O22: the state `constructed` writes out, with N and the cleared slots. -/
theorem initConstructsTheBlock : Obligations.InitConstructsTheBlock := by
  intro s sr hpos hinf hcap
  have hok : expectedRsp (.init sr) s = .ok := by
    have hrate : sampleRateOk sr = true := by simp [sampleRateOk, hpos, hinf]
    have hfits : fitsCapacity s.params sr = true := hcap
    simp [expectedRsp, needsCfg, Instr.wf, hrate, hfits]
  refine ⟨lineLength s.params sr, memClear s.buf (lineLength s.params sr), ?_, exec_of_ok hok, fun k hk => ?_,
    fun k hk => ?_⟩
  · rw [lineLength, Nat.cast_add, Int.ofNat_toNat, max_comm]
    rfl
  · rw [memRead_memClear, if_pos hk]
  · rw [memRead_memClear, if_neg (Nat.not_lt.2 hk)]

/-- Settles O24: `sameBlock_effect`, and INIT sets CFG. -/
theorem onlyInitConfigures : Obligations.OnlyInitConfigures := by
  intro i s t ht
  rcases exec_cases ht with ⟨-, rfl⟩ | ⟨-, rfl⟩
  · by_cases hi : ∃ sr, i = .init sr
    · obtain ⟨sr, rfl⟩ := hi
      exact ⟨rfl, rfl, fun _ => rfl, fun hne => absurd rfl (hne sr)⟩
    · obtain ⟨hparams, hinputs, hcfg, hsr, hn⟩ := sameBlock_effect (fun sr he => hi ⟨sr, he⟩) s
      exact ⟨hparams, hinputs, hcfg.trans, fun _ => ⟨hcfg, hsr, hn⟩⟩
  · exact ⟨rfl, rfl, id, fun _ => ⟨rfl, rfl, rfl⟩⟩

/-! ### Readback -/

theorem exec_rdreg_of_some {s : State} {reg : BitVec 8} {v : Word} (h : readReg s reg = some v) :
    exec (.rdreg reg) s = .next (respond v s) := by simp only [exec, execRdreg, h, answer]

theorem exec_rdreg_of_none {s : State} {reg : BitVec 8} (h : readReg s reg = none) :
    exec (.rdreg reg) s = .next (rejected .badIndex s) := by simp only [exec, execRdreg, h, reject]

/-- Settles O21: the register map row by row. -/
theorem rdregReadsTheRegisterMap : Obligations.RdregReadsTheRegisterMap := by
  intro s
  refine ⟨?_, fun reg hreg => exec_rdreg_of_none (readReg_eq_none.2 hreg)⟩
  simp only [List.forall_mem_cons, List.not_mem_nil, false_imp_iff, implies_true, and_true]
  exact ⟨exec_rdreg_of_some rfl, exec_rdreg_of_some rfl, exec_rdreg_of_some rfl, exec_rdreg_of_some rfl,
    exec_rdreg_of_some rfl, exec_rdreg_of_some rfl, exec_rdreg_of_some rfl, exec_rdreg_of_some rfl,
    exec_rdreg_of_some rfl, exec_rdreg_of_some rfl, exec_rdreg_of_some rfl, exec_rdreg_of_some rfl,
    exec_rdreg_of_some rfl, exec_rdreg_of_some rfl, exec_rdreg_of_some rfl⟩

theorem exec_grRd_of_some {s : State} {slot : BitVec 8} {field : BitVec 4} {g : Grain} {v : Word}
    (hs : slot.toNat < s.params.pool) (hg : s.grains[slot.toNat]? = some g) (h : readField g field = some v) :
    exec (.grRd slot field) s = .next (respond v s) := by
  simp only [exec, execGrRd, ifSlot_lt hs, grainAt_eq hg, h, answer]

theorem exec_grFree_of_lt {s : State} {slot : BitVec 8} {g : Grain} (hs : slot.toNat < s.params.pool)
    (hg : s.grains[slot.toNat]? = some g) :
    exec (.grFree slot) s = .next (respond (if g.active then 0 else 1) s) := by
  simp only [exec, execGrFree, ifSlot_lt hs, grainAt_eq hg, answer]

theorem readField_active (g : Grain) : readField g 0 = some (if g.active then 1 else 0) := by
  unfold readField
  cases g.active <;> rfl

/-- LIFE is 0 as a word exactly where it is 0 as a number. -/
theorem readField_envPhase (g : Grain) :
    readField g 7 = some (if g.life.toNat = 0 then posZero else fdiv (f32 g.count.toNat) (f32 g.life.toNat)) := by
  have hz : g.life.toNat = 0 ↔ g.life = 0 := BitVec.toNat_inj (y := 0)
  simp only [hz]
  rfl

/-- Settles O40: the field map row by row. -/
theorem grainReadback : Obligations.GrainReadback := by
  intro s slot g hs hg
  refine ⟨exec_grFree_of_lt hs hg, ?_⟩
  have field {f : BitVec 4} {v : Word} (h : readField g f = some v) := exec_grRd_of_some hs hg h
  simp only [List.forall_mem_cons, List.not_mem_nil, false_imp_iff, implies_true, and_true]
  exact ⟨field (readField_active g), field rfl, field rfl, field rfl, field rfl, field rfl, field rfl,
    field (readField_envPhase g), field rfl⟩

end Sys2Proof.Machine
end

section
/-! PROOFS. The bytes of a command and the answer to every step (R50, R52, R61, R165, R166). -/

namespace Sys2Proof.Machine

open Sys2Proof

/-! ### Bytes -/

theorem map_toNat_bytesOfWord (w : Word) : (bytesOfWord w).map BitVec.toNat =
    [w.toNat % 2 ^ 8, w.toNat / 2 ^ 8 % 2 ^ 8, w.toNat / 2 ^ 16 % 2 ^ 8, w.toNat / 2 ^ 24] := by
  simp only [bytesOfWord, List.map_cons, List.map_nil, BitVec.extractLsb'_toNat, Nat.shiftRight_eq_div_pow, pow_zero,
    Nat.div_one, Nat.mod_eq_of_lt (show w.toNat / 2 ^ 24 < 2 ^ 8 by omega)]

/-- A word is put together again from its four byte lanes. -/
theorem wordOfBytes_lanes (w : Word) :
    wordOfBytes (w.extractLsb' 0 8) (w.extractLsb' 8 8) (w.extractLsb' 16 8) (w.extractLsb' 24 8) = w := by
  apply BitVec.eq_of_toNat_eq
  simp only [wordOfBytes, toNat_append_add, BitVec.extractLsb'_toNat, Nat.shiftRight_eq_div_pow]
  omega

theorem commandOfBytes_bytes (k : Command) (rest : List Byte) : commandOfBytes (k.bytes ++ rest) = some (k, rest) := by
  simp [Command.bytes, bytesOfWord, commandOfBytes, wordOfBytes_lanes]

/-- Settles O6: `map_toNat_bytesOfWord` and `commandOfBytes_bytes`. -/
theorem bytesAreLittleEndian : Obligations.BytesAreLittleEndian :=
  ⟨map_toNat_bytesOfWord, fun k => ⟨by simp [Command.bytes], commandOfBytes_bytes k⟩⟩

/-! ### Every step answers -/

/-- Every command has one next state, and it carries a response. -/
theorem exec_responds (i : Instr) (s : State) : ∃ t, exec i s = .next t ∧ t.response.isSome = true := by
  by_cases hok : expectedRsp i s = .ok
  · exact ⟨_, exec_of_ok hok, rfl⟩
  · exact ⟨_, exec_of_rejected hok, rfl⟩

/-- Settles O11: the host does nothing, asserts `rst`, or gives a command that decodes or does not. -/
theorem everyStepAnswers : Obligations.EveryStepAnswers := by
  intro s
  match hin : s.inputs with
  | [] => exact ⟨_, step_of_idle hin, by simp [hin]⟩
  | .rst :: rest => exact ⟨_, step_of_reset hin (.inl rfl), by simp⟩
  | .abandoned k :: rest => exact ⟨_, step_of_reset hin (.inr ⟨k, rfl⟩), by simp⟩
  | .transact k :: rest =>
    cases hd : decode k with
    | error d => exact ⟨_, step_of_undecoded hin hd, by simp⟩
    | ok i =>
      obtain ⟨t, ht, hresp⟩ := exec_responds i { s with inputs := rest }
      obtain ⟨hparams, hinputs, -, -⟩ := onlyInitConfigures i _ t ht
      exact ⟨t, (step_of_decoded hin hd).trans ht, by simp [hparams, hinputs, hresp]⟩

end Sys2Proof.Machine
end

section
/-! PROOFS. Writes to and reads of the delay line (R48, R91 to R95). -/

namespace Sys2Proof.Machine

open Sys2Proof

/-! ### Writing -/

theorem expectedRsp_dlWrite {s : State} (hc : s.cfg = true) (x : Word) : expectedRsp (.dlWrite x) s = .ok := by
  simp [expectedRsp, Instr.wf, hc]

theorem exec_dlWrite {s : State} (hc : s.cfg = true) (x : Word) :
    exec (.dlWrite x) s = .next (respond 0 (dlWrite x s)) := exec_of_ok (expectedRsp_dlWrite hc x)

/-- Settles O25: `memRead_dlWrite` and `wptr_dlWrite`. -/
theorem dlWriteAppendsOneSample : Obligations.DlWriteAppendsOneSample := by
  intro s x hinv hc
  obtain ⟨-, hw, -, -⟩ := hinv.ring hc
  exact ⟨_, _, exec_dlWrite hc x, memRead_dlWrite hinv.mem x, wptr_dlWrite hw x⟩

/-- After a write an offset counts back from the slot just written. -/
theorem pastSlot_dlWrite {s : State} (hn : 0 < s.n.toNat) (x : Word) (k : Nat) :
    pastSlot (dlWrite x s) k = (((s.wptr.toNat : Int) - k) % s.n.toNat).toNat := by
  have hw : (dlWrite x s).wptr.toNat = (s.wptr.toNat + 1) % s.n.toNat := by
    rw [dlWrite_wptr, BitVec.toNat_ofNat]
    exact Nat.mod_eq_of_lt ((Nat.mod_lt _ hn).trans s.n.isLt)
  have harg : (s.wptr.toNat : Int) + 1 - (1 + k) = s.wptr.toNat - k := by ring
  rw [pastSlot, hw, dlWrite_n, Int.sub_sub, Int.natCast_mod, Int.emod_sub_emod, Nat.cast_add, Nat.cast_one, harg]

/-- A write makes its own slot the one at offset 0. -/
theorem pastSlot_dlWrite_zero {s : State} (h : s.wptr.toNat < s.n.toNat) (x : Word) :
    pastSlot (dlWrite x s) 0 = s.wptr.toNat := by
  rw [pastSlot_dlWrite (Nat.zero_lt_of_lt h), Nat.cast_zero, Int.sub_zero, ← Int.natCast_mod, Int.toNat_natCast,
    Nat.mod_eq_of_lt h]

/-- A write moves every slot one offset deeper. -/
theorem pastSlot_dlWrite_succ {s : State} (hn : 0 < s.n.toNat) (x : Word) (k : Nat) :
    pastSlot (dlWrite x s) (k + 1) = pastSlot s k := by
  rw [pastSlot_dlWrite hn, pastSlot, Int.sub_sub, Nat.cast_add, Nat.cast_one, add_comm (k : Int)]

/-- Only the oldest sample, at offset N - 1, lies in the slot the next write takes. -/
theorem pastSlot_ne_wptr {s : State} {k : Nat} (h : k + 1 < s.n.toNat) : pastSlot s k ≠ s.wptr.toNat := by
  intro he
  have hnonneg := Int.emod_nonneg ((s.wptr.toNat : Int) - 1 - k) (b := (s.n.toNat : Int)) (by omega)
  have hmod : ((s.wptr.toNat : Int) - 1 - k) % s.n.toNat = s.wptr.toNat :=
    (Int.toNat_of_nonneg hnonneg).symm.trans (congrArg Nat.cast he)
  have hdvd : (s.n.toNat : Int) ∣ k + 1 := by
    have hback : (s.wptr.toNat : Int) - 1 - k - s.wptr.toNat = -(k + 1) := by ring
    rw [← Int.dvd_neg, ← hback]
    exact Int.dvd_self_sub_of_emod_eq hmod
  have := Int.le_of_dvd (by omega) hdvd
  omega

/-- Settles O26: offset 0 is the slot written; the slots one offset deeper keep their words. -/
theorem writeMovesHistoryOneDeeper : Obligations.WriteMovesHistoryOneDeeper := by
  intro s t x hinv hc ht
  obtain ⟨-, hw, -, -⟩ := hinv.ring hc
  cases (exec_dlWrite hc x).symm.trans ht
  have hread (k : Nat) : pastSample (respond 0 (dlWrite x s)) k =
      if pastSlot (dlWrite x s) k = s.wptr.toNat then x else memRead s.buf (pastSlot (dlWrite x s) k) :=
    memRead_dlWrite hinv.mem x _
  refine ⟨?_, fun k hk => ?_⟩
  · rw [hread, if_pos (pastSlot_dlWrite_zero hw x)]
  · rw [hread, pastSlot_dlWrite_succ (Nat.zero_lt_of_lt hw), if_neg (pastSlot_ne_wptr hk), pastSample]

/-! ### Reading -/

theorem isFinite_f32 {n : Nat} (h : n ≤ 2 ^ 32) : isFinite (f32 n) = true := by
  have hu : unitsOfMag 0x4F800000 = 2 ^ 32 * unit := by decide
  have hle : roundMag (n * unit) 1 ≤ 0x4F800000 :=
    roundMag_le_of_le (by decide) (by rw [hu]; exact Nat.mul_le_mul_right _ h)
  rw [isFinite_iff, f32, f32Signed, magOf_pack (roundMag_lt _ _)]
  exact hle.trans_lt (by decide)

/-- A word between +0.0 and a finite word is a finite value that is not negative. -/
theorem finite_of_fle_of_fle {w m : Word} (hm : isFinite m = true) (h0 : fle posZero w = true) (h1 : fle w m = true) :
    isFinite w = true ∧ 0 ≤ fix w := by
  have hz : fix posZero = 0 := by decide
  have hw := (fle_not_nan h0).2
  rw [fle_iff (by decide) hw, hz] at h0
  rw [fle_iff hw (not_nan_of_finite hm)] at h1
  have hunits : unitsOfMag (magOf w) ≤ unitsOfMag (magOf m) := by
    rw [← natAbs_fix, ← natAbs_fix]
    omega
  exact ⟨isFinite_iff.2 ((unitsOfMag_le_iff.1 hunits).trans_lt (isFinite_iff.1 hm)), h0⟩

/-- R94 at a finite offset that is not negative, with the two slots it reads written out. -/
theorem interpolate_eq {o : Word} (hf : isFinite o = true) (h0 : 0 ≤ fix o) (s : State) :
    interpolate s o =
      let a := memRead s.buf (((s.wptr.toNat : Int) - 1 - floorInt o) % s.n.toNat).toNat
      let b := memRead s.buf (((s.wptr.toNat : Int) - 2 - floorInt o) % s.n.toNat).toNat
      fadd a (fmul (fsub b a) (fsub o (ffloor o))) := by
  have hi : ((floorInt o).toNat : Int) = floorInt o := Int.toNat_of_nonneg (Int.ediv_nonneg h0 (Int.natCast_nonneg _))
  have hb : (s.wptr.toNat : Int) - 1 - (floorInt o + 1) = s.wptr.toNat - 2 - floorInt o := by ring
  simp only [interpolate, intOf_ffloor hf, pastSample, pastSlot, Nat.cast_add, Nat.cast_one, hi, hb]

theorem expectedRsp_dlRead {s : State} (hc : s.cfg = true) (o : Word) : expectedRsp (.dlRead o) s = .ok := by
  simp [expectedRsp, Instr.wf, hc]

/-- A DL_READ in range notes no clamp, so it changes nothing. -/
theorem exec_dlRead_in_range {s : State} {o : Word} (hc : s.cfg = true) (h0 : fle posZero o = true)
    (h1 : fle o (maxOffset s) = true) : exec (.dlRead o) s = .next (respond (interpolate s o) s) := by
  rw [exec_of_ok (expectedRsp_dlRead hc o), effect, dlRead, clampOffset_in_range h0 h1, noteRclamp_false]

/-- Settles O27: no clamp in range, and `interpolate_eq`. -/
theorem dlReadInterpolates : Obligations.DlReadInterpolates := by
  rintro s o hc h0 h1 a b rfl rfl
  have hmax : isFinite (f32 (s.n.toNat - 2)) = true := isFinite_f32 ((Nat.sub_le _ _).trans s.n.isLt.le)
  obtain ⟨hf, hnonneg⟩ := finite_of_fle_of_fle hmax h0 h1
  rw [exec_dlRead_in_range hc h0 h1, interpolate_eq hf hnonneg]
  rfl

end Sys2Proof.Machine
end

section
/-! PROOFS. What a PROCESS does with its input sample, and readback without side effects (R53, R57, R177). -/

namespace Sys2Proof.Machine

open Sys2Proof

/-! ### The write comes last -/

theorem wptr_grainStep (j : Nat) (sp : Word) (s : State) : (grainStep j sp s).2.wptr = s.wptr := by
  unfold grainStep
  dsimp only
  split <;> rfl

theorem wptr_mixLoop (sp : Word) (js : List Nat) : ∀ acc s, (mixLoop sp js acc s).2.wptr = s.wptr := by
  induction js with
  | nil => exact fun _ _ => rfl
  | cons j js ih => exact fun _ s => (ih _ _).trans (wptr_grainStep j sp s)

theorem wptr_trigger (gf sp : Word) (s : State) : (trigger gf sp s).wptr = s.wptr := by
  unfold trigger
  split <;> rfl

theorem wptr_hintStep (hint : Option Word) (sp : Word) (s : State) : (hintStep hint sp s).wptr = s.wptr := by
  unfold hintStep
  split
  · rfl
  · split
    · rw [generate_eq rfl]
      split
      · exact wptr_trigger _ _ _
      · rfl
    · rfl

/-- No part of a PROCESS but its write moves WPTR. -/
theorem wptr_engineBody (p : Word) (hint : Option Word) (s : State) : (engineBody p hint s).2.wptr = s.wptr :=
  (wptr_mixLoop _ _ _ _).trans (wptr_hintStep _ _ _)

/-- A PROCESS leaves the storage it found with its input sample in the slot of WPTR. -/
theorem buf_engineProcess (x p : Word) (hint : Option Word) (s : State) :
    (engineProcess x p hint s).2.buf = memWrite s.buf s.wptr.toNat x := by
  rw [engineProcess_eq, dlWrite_buf, buf_engineBody, wptr_engineBody]

/-- The input sample reaches nothing of a PROCESS but the storage: `engineBody` does not see it. -/
theorem respond_engineProcess_input (x x' p : Word) (hint : Option Word) (s : State) :
    respond (engineProcess x' p hint s).1 (engineProcess x' p hint s).2 =
      { respond (engineProcess x p hint s).1 (engineProcess x p hint s).2 with
        buf := (engineProcess x' p hint s).2.buf } := by
  rw [engineProcess_eq, engineProcess_eq]
  rfl

/-- Two input samples leave storages that differ in the slot of WPTR only. -/
theorem memRead_engineProcess_input {s : State} (h : Inv s) (x x' p : Word) (hint : Option Word) {k : Nat}
    (hk : k ≠ s.wptr.toNat) :
    memRead (engineProcess x' p hint s).2.buf k = memRead (engineProcess x p hint s).2.buf k := by
  rw [buf_engineProcess, buf_engineProcess, memRead_memWrite h.mem, memRead_memWrite h.mem, if_neg hk, if_neg hk]

/-- Settles O55: `respond_engineProcess_input` and `memRead_engineProcess_input`, for each of the two commands. -/
theorem writeComesLast : Obligations.WriteComesLast := by
  intro s x x' p h hinv hc
  constructor
  · refine ⟨_, _, exec_of_ok (expectedRsp_processN hc x p), ?_,
      fun k => memRead_engineProcess_input hinv x x' p none⟩
    rw [exec_of_ok (expectedRsp_processN hc x' p)]
    exact congrArg _ (respond_engineProcess_input x x' p none s)
  · refine ⟨_, _, exec_of_ok (expectedRsp_processH hc x p h), ?_,
      fun k => memRead_engineProcess_input hinv x x' p (some h)⟩
    rw [exec_of_ok (expectedRsp_processH hc x' p h)]
    exact congrArg _ (respond_engineProcess_input x x' p (some h) s)

/-! ### Readback -/

/-- A readback command leaves the state as it is, and its result does not depend on the last response (R53). -/
theorem effect_of_isPure {i : Instr} (hp : isPure i = true) (s : State) :
    (effect i s).2 = s ∧ ∀ v, (effect i (respond v s)).1 = (effect i s).1 := by
  cases i with
  | nop | rdreg _ | dlPeek _ | grFree _ | grRd _ _ | p2s _ | gfreq _ _ | wsize _ | alloc =>
    exact ⟨rfl, fun _ => rfl⟩
  | init _ | processN _ _ | processH _ _ _ | clrstat | dlWrite _ | dlRead _ | phStep _ | dtStep _ | grSet _ _ _ _
  | grStep _ _ | mix _ => exact absurd hp Bool.false_ne_true

theorem exec_of_isPure {i : Instr} {s : State} (hp : isPure i = true) (hok : expectedRsp i s = .ok) :
    exec i s = .next (respond (effect i s).1 s) := by
  rw [exec_of_ok hok, (effect_of_isPure hp s).1]

/-- Settles O60: the next state is the state with the answer noted, and there the command answers the same. -/
theorem readbackHasNoSideEffect : Obligations.ReadbackHasNoSideEffect := by
  intro i s t hp hok ht
  cases (exec_of_isPure hp hok).symm.trans ht
  have hrsp : expectedRsp i (respond (effect i s).1 s) = expectedRsp i s := expectedRsp_congr rfl rfl rfl i
  refine ⟨rfl, ?_⟩
  rw [exec_of_isPure hp (hrsp.trans hok), (effect_of_isPure hp s).2]
  rfl

end Sys2Proof.Machine
end

section
/-! PROOFS. The decoder and the encoder (R63 to R68, R72, R73). -/

namespace Sys2Proof

/-! ### The fields as numbers -/

theorem toNat_opcOf (cmd : Word) : (opcOf cmd).toNat = cmd.toNat % 2 ^ 8 := by simp [opcOf]

theorem idxOf_eq_zero {cmd : Word} : idxOf cmd = 0 ↔ cmd.toNat / 2 ^ 8 % 2 ^ 8 = 0 := by
  simp [idxOf, ← BitVec.toNat_inj, Nat.shiftRight_eq_div_pow]

theorem selOf_eq_zero {cmd : Word} : selOf cmd = 0 ↔ cmd.toNat / 2 ^ 16 % 2 ^ 4 = 0 := by
  simp [selOf, ← BitVec.toNat_inj, Nat.shiftRight_eq_div_pow]

theorem rsvOf_eq_zero {cmd : Word} : rsvOf cmd = 0 ↔ cmd.toNat / 2 ^ 20 = 0 := by
  have hlt : cmd.toNat / 2 ^ 20 < 2 ^ 12 := by omega
  rw [← BitVec.toNat_inj, rsvOf, BitVec.extractLsb'_toNat, Nat.shiftRight_eq_div_pow, Nat.mod_eq_of_lt hlt]
  rfl

/-! ### The rows of the table (R66) -/

/-- What the row selected by OPC takes from the other fields and the operand words; the rest of the command is 0. -/
theorem fields_of_rowOf {k : Command} {i : Instr} (h : rowOf k = some i) :
    i.opc = opcOf k.cmd
    ∧ i.idx = (if i.usesIdx then idxOf k.cmd else 0)
    ∧ i.sel = (if i.usesSel then selOf k.cmd else 0)
    ∧ i.operands = (if i.readsA then k.a else 0, if i.readsB then k.b else 0, if i.readsC then k.c else 0) := by
  unfold rowOf at h
  split at h
  case h_21 => cases h
  all_goals
    next hopc =>
    cases h
    exact ⟨(BitVec.eq_of_toNat_eq hopc).symm, rfl, rfl, rfl⟩

/-- A command is the row its OPC selects, where the fields and the operand words the row takes are the command's. -/
theorem rowOf_of_fields {k : Command} {i : Instr} (hopc : opcOf k.cmd = i.opc)
    (hidx : i.usesIdx = true → idxOf k.cmd = i.idx) (hsel : i.usesSel = true → selOf k.cmd = i.sel)
    (ha : i.readsA = true → k.a = i.operands.1) (hb : i.readsB = true → k.b = i.operands.2.1)
    (hc : i.readsC = true → k.c = i.operands.2.2) : rowOf k = some i := by
  unfold rowOf
  rw [hopc]
  cases i with
  | nop | clrstat | alloc => rfl
  | init _ | dlWrite _ | dlRead _ | dlPeek _ | phStep _ | dtStep _ | p2s _ | wsize _ | mix _ => rw [ha rfl]; rfl
  | processN _ _ | gfreq _ _ => rw [ha rfl, hb rfl]; rfl
  | processH _ _ _ => rw [ha rfl, hb rfl, hc rfl]; rfl
  | rdreg _ | grFree _ => rw [hidx rfl]; rfl
  | grSet _ _ _ _ => rw [hidx rfl, ha rfl, hb rfl, hc rfl]; rfl
  | grStep _ _ => rw [hidx rfl, ha rfl]; rfl
  | grRd _ _ => rw [hidx rfl, hsel rfl]; rfl

/-- The OPC column of R66. -/
def opcodes : List Nat :=
  [0x00, 0x01, 0x02, 0x03, 0x04, 0x05, 0x10, 0x11, 0x12, 0x20, 0x21, 0x30, 0x31, 0x32, 0x33, 0x40, 0x41, 0x42, 0x43,
    0x44]

theorem exists_rowOf {k : Command} (h : (opcOf k.cmd).toNat ∈ opcodes) : ∃ i, rowOf k = some i := by
  unfold rowOf
  split
  case h_21 => simp_all [opcodes]
  all_goals exact ⟨_, rfl⟩

theorem Instr.opc_mem_opcodes (i : Instr) : i.opc.toNat ∈ opcodes := by cases i <;> simp [Instr.opc, opcodes]

theorem Instr.usesIdx_iff (i : Instr) : i.usesIdx = true ↔ i.opc.toNat ∈ [0x04, 0x30, 0x31, 0x32, 0x33] := by
  cases i <;> simp [Instr.usesIdx, Instr.opc]

theorem Instr.usesSel_iff (i : Instr) : i.usesSel = true ↔ i.opc.toNat = 0x33 := by
  cases i <;> simp [Instr.usesSel, Instr.opc]

theorem Instr.idx_of_not_usesIdx {i : Instr} (h : i.usesIdx = false) : i.idx = 0 := by
  cases i with
  | rdreg _ | grSet _ _ _ _ | grStep _ _ | grFree _ | grRd _ _ => exact absurd h.symm Bool.false_ne_true
  | nop | init _ | processN _ _ | processH _ _ _ | clrstat | dlWrite _ | dlRead _ | dlPeek _ | phStep _ | dtStep _
  | p2s _ | gfreq _ _ | wsize _ | alloc | mix _ => rfl

theorem Instr.sel_of_not_usesSel {i : Instr} (h : i.usesSel = false) : i.sel = 0 := by
  cases i with
  | grRd _ _ => exact absurd h.symm Bool.false_ne_true
  | nop | init _ | processN _ _ | processH _ _ _ | rdreg _ | clrstat | dlWrite _ | dlRead _ | dlPeek _ | phStep _
  | dtStep _ | grSet _ _ _ _ | grStep _ _ | grFree _ | p2s _ | gfreq _ _ | wsize _ | alloc | mix _ => rfl

/-! ### Decoding -/

/-- The decoder, said once: the reserved field is 0, OPC selects the command's row, and IDX and SEL are 0 where the row
says 0 (R67). -/
theorem decode_eq_ok_iff {k : Command} {i : Instr} : decode k = .ok i ↔
    rsvOf k.cmd = 0 ∧ rowOf k = some i ∧ (i.usesIdx = false → idxOf k.cmd = 0)
      ∧ (i.usesSel = false → selOf k.cmd = 0) := by
  constructor
  · intro h
    unfold decode at h
    split at h
    · cases h
    next hrsv =>
    split at h
    · cases h
    next j hrow =>
    split at h
    · cases h
    next hidx =>
    split at h
    · cases h
    next hsel =>
    cases h
    exact ⟨not_not.1 hrsv, hrow, fun hu => not_not.1 fun hne => hidx ⟨hu, hne⟩,
      fun hu => not_not.1 fun hne => hsel ⟨hu, hne⟩⟩
  · rintro ⟨hrsv, hrow, hidx, hsel⟩
    unfold decode
    rw [if_neg (not_not.2 hrsv), hrow]
    dsimp only
    rw [if_neg (fun h => h.2 (hidx h.1)), if_neg (fun h => h.2 (hsel h.1))]

/-- Words that agree with a command's own words, operand words it does not read aside, decode to it. -/
theorem decode_of_words {k : Command} {i : Instr} (hcmd : k.cmd = (encode i).cmd)
    (ha : i.readsA = true → k.a = (encode i).a) (hb : i.readsB = true → k.b = (encode i).b)
    (hc : i.readsC = true → k.c = (encode i).c) : decode k = .ok i := by
  have hw : k.cmd = cmdWord i.opc i.idx i.sel := hcmd
  refine decode_eq_ok_iff.2 ⟨by simp [hw], rowOf_of_fields ?_ ?_ ?_ ha hb hc, ?_, ?_⟩
  · rw [hw, opcOf_cmdWord]
  · exact fun _ => by rw [hw, idxOf_cmdWord]
  · exact fun _ => by rw [hw, selOf_cmdWord]
  · exact fun hu => by rw [hw, idxOf_cmdWord, Instr.idx_of_not_usesIdx hu]
  · exact fun hu => by rw [hw, selOf_cmdWord, Instr.sel_of_not_usesSel hu]

/-- The command word of a command that was decoded is the word it was decoded from. -/
theorem encode_cmd_of_decode {k : Command} {i : Instr} (h : decode k = .ok i) : (encode i).cmd = k.cmd := by
  obtain ⟨hrsv, hrow, hidx, hsel⟩ := decode_eq_ok_iff.1 h
  obtain ⟨opc_eq, idx_eq, sel_eq, -⟩ := fields_of_rowOf hrow
  have hi : i.idx = idxOf k.cmd := by
    cases hu : i.usesIdx
    · rw [hidx hu, Instr.idx_of_not_usesIdx hu]
    · rw [idx_eq, if_pos hu]
  have hs : i.sel = selOf k.cmd := by
    cases hu : i.usesSel
    · rw [hsel hu, Instr.sel_of_not_usesSel hu]
    · rw [sel_eq, if_pos hu]
  calc (encode i).cmd = cmdWord (opcOf k.cmd) (idxOf k.cmd) (selOf k.cmd) := by rw [← opc_eq, ← hi, ← hs]; rfl
    _ = k.cmd := cmdWord_fields hrsv

/-- Settles O1: `decode_of_words` at the command's own words. -/
theorem decodeOfEncodeIsIdentity : Obligations.DecodeOfEncodeIsIdentity :=
  fun _ => decode_of_words rfl (fun _ => rfl) (fun _ => rfl) (fun _ => rfl)

/-- Settles O2: `encode_cmd_of_decode`, and the operand words by `fields_of_rowOf`. -/
theorem encodeOfDecodeIsIdentity : Obligations.EncodeOfDecodeIsIdentity := by
  intro k i h
  obtain ⟨-, hrow, -, -⟩ := decode_eq_ok_iff.1 h
  obtain ⟨-, -, -, hops⟩ := fields_of_rowOf hrow
  exact ⟨encode_cmd_of_decode h, congrArg (·.1) hops, congrArg (·.2.1) hops, congrArg (·.2.2) hops⟩

/-- Settles O4: the words that are read are the command's own (`encodeOfDecodeIsIdentity`), and no others matter
(`decode_of_words`). -/
theorem unreadOperandWordsHaveNoEffect : Obligations.UnreadOperandWordsHaveNoEffect := by
  intro k k' i h hcmd ha hb hc
  obtain ⟨ecmd, ea, eb, ec⟩ := encodeOfDecodeIsIdentity k i h
  refine decode_of_words (hcmd.trans ecmd.symm) ?_ ?_ ?_
  · exact fun hr => by rw [ha hr, ea, if_pos hr]
  · exact fun hr => by rw [hb hr, eb, if_pos hr]
  · exact fun hr => by rw [hc hr, ec, if_pos hr]

/-- Settles O3: `decode_eq_ok_iff` with each field written as a number. -/
theorem decodesExactlyTheTable : Obligations.DecodesExactlyTheTable := by
  intro k
  rw [← toNat_opcOf, ← rsvOf_eq_zero, Ne, ← idxOf_eq_zero, Ne, ← selOf_eq_zero]
  constructor
  · rintro ⟨i, h⟩
    obtain ⟨hrsv, hrow, hidx, hsel⟩ := decode_eq_ok_iff.1 h
    rw [← (fields_of_rowOf hrow).1, ← i.usesIdx_iff, ← i.usesSel_iff]
    refine ⟨hrsv, i.opc_mem_opcodes, ?_, ?_⟩
    · exact fun hne => Bool.of_not_eq_false (mt hidx hne)
    · exact fun hne => Bool.of_not_eq_false (mt hsel hne)
  · rintro ⟨hrsv, hopc, hidx, hsel⟩
    obtain ⟨i, hrow⟩ := exists_rowOf hopc
    rw [← (fields_of_rowOf hrow).1, ← i.usesIdx_iff] at hidx
    rw [← (fields_of_rowOf hrow).1, ← i.usesSel_iff] at hsel
    refine ⟨i, decode_eq_ok_iff.2 ⟨hrsv, hrow, ?_, ?_⟩⟩
    · exact fun hu => not_not.1 fun hne => by simp [hidx hne] at hu
    · exact fun hu => not_not.1 fun hne => by simp [hsel hne] at hu

/-- Settles O5: the decoder evaluated at the eight fixed words. -/
theorem writtenOutWordsDecode : Obligations.WrittenOutWordsDecode := by
  unfold Obligations.WrittenOutWordsDecode
  decide

end Sys2Proof
end

section
/-! PROOFS. The pseudo-instructions, and the commands that are rejected (R68, R70, R71, R74, R153). -/

namespace Sys2Proof.Machine

open Sys2Proof

/-! ### The pseudo-instructions -/

theorem namedOperand_life : namedOperand 4 fieldNames "life".toList = some 6 := by decide

theorem namedOperand_active : namedOperand 4 fieldNames "active".toList = some 0 := by decide

/-- A `gr.rd` line whose field is named is GR_RD of the field's number. -/
theorem line2_grRd {b : List Char} {field : BitVec 4} (hb : namedOperand 4 fieldNames b = some field) (a : List Char) :
    line2 "gr.rd" a b = (intOperand 8 a).map fun slot => .grRd slot field := by
  have hline : line2 "gr.rd" a b =
      (intOperand 8 a).bind fun slot => (namedOperand 4 fieldNames b).map (.grRd slot) := rfl
  rw [hline, hb, Option.map_eq_bind]
  rfl

/-- Settles O7: the lines without operands are evaluated; of the others `process` has the arms of its expansions, and
the field's name is read as its number (`line2_grRd`). -/
theorem pseudoInstructionsExpand : Obligations.PseudoInstructionsExpand :=
  ⟨by decide, by decide, by decide, by decide, fun a _ _ =>
    ⟨rfl, rfl, (line2_grRd namedOperand_life a).symm, (line2_grRd namedOperand_active a).symm⟩⟩

/-! ### Rejections -/

/-- Settles O9: a word that is not decoded to a command is an error of the decoder, and `step_of_undecoded`. -/
theorem undecodableWordIsIllegal : Obligations.UndecodableWordIsIllegal := by
  intro s k rest hin hno
  cases hd : decode k with
  | error d => exact step_of_undecoded hin hd
  | ok i => exact absurd hd (hno i)

/-- Settles O13: `exec_of_rejected`. -/
theorem rejectionIsPrecise : Obligations.RejectionIsPrecise := fun _ _ h => exec_of_rejected h

/-- The check of CFG comes first (R154). -/
theorem expectedRsp_unconfigured {i : Instr} {s : State} (hn : needsCfg i = true) (hc : s.cfg = false) :
    expectedRsp i s = .notConfigured := if_pos ⟨hn, hc⟩

/-- Settles O14: each of the ten commands needs CFG, so its code is NOT_CONFIGURED. -/
theorem unconfiguredCommandsAreRejected : Obligations.UnconfiguredCommandsAreRejected := by
  intro s x p h slot hc i hi
  have hn : needsCfg i = true := List.all_eq_true.1 rfl i hi
  have hrsp := expectedRsp_unconfigured hn hc
  rw [exec_of_rejected (by rw [hrsp]; decide), hrsp]
  rfl

end Sys2Proof.Machine
end

section
/-! PROOFS. The rejections of INIT, NOP and CLRSTAT (R81, R82, R84, R87). -/

namespace Sys2Proof.Machine

open Sys2Proof

/-! ### INIT -/

/-- R82's test of the rate is on its bits: not a zero, a NaN, a negative or an infinity. -/
theorem sampleRateOk_iff {sr : Word} :
    sampleRateOk sr = true ↔ magOf sr ≠ 0 ∧ isNaN sr = false ∧ signOf sr = false ∧ isInf sr = false := by
  simp only [sampleRateOk, Bool.and_eq_true, Bool.not_eq_true', flt_zero_iff, NonNeg, Nat.pos_iff_ne_zero]
  tauto

/-- The rate is tested first (R82). -/
theorem exec_init_of_badRate {sr : Word} (h : sampleRateOk sr = false) (s : State) :
    exec (.init sr) s = .next (rejected .badSampleRate s) := by simp [exec, execInit, h, reject]

theorem exec_init_of_overCapacity {sr : Word} {s : State} (hrate : sampleRateOk sr = true)
    (hcap : fitsCapacity s.params sr = false) : exec (.init sr) s = .next (rejected .capacity s) := by
  simp [exec, execInit, hrate, hcap, reject]

/-- Settles O15: the four ways of the first clause are the failures of `sampleRateOk_iff`; the second clause's rate
passes it. -/
theorem initRejections : Obligations.InitRejections := by
  refine fun s sr => ⟨fun hbad => exec_init_of_badRate ?_ s, fun hzero hnan hneg hinf hcap =>
    exec_init_of_overCapacity (sampleRateOk_iff.2 ⟨hzero, hnan, hneg, hinf⟩) hcap⟩
  rw [Bool.eq_false_iff, ne_eq, sampleRateOk_iff]
  rintro ⟨hzero, hnan, hneg, hinf⟩
  simp [hzero, hnan, hneg, hinf] at hbad

/-! ### NOP and CLRSTAT -/

/-- Only TRIG and CFG stand where R32's fields meet the mask of bits 6 and 0. -/
theorem statusFields_and_mask (code : BitVec 4) (trig ill rclamp hinval pclamp drop cfg : BitVec 1) :
    (0#20 ++ code ++ 0#1 ++ trig ++ ill ++ rclamp ++ hinval ++ pclamp ++ drop ++ cfg)
      &&& (0#20 ++ 0#4 ++ 0#1 ++ 1#1 ++ 0#1 ++ 0#1 ++ 0#1 ++ 0#1 ++ 0#1 ++ 1#1)
    = 0#20 ++ 0#4 ++ 0#1 ++ trig ++ 0#1 ++ 0#1 ++ 0#1 ++ 0#1 ++ 0#1 ++ cfg := by
  have hkeep : ∀ b : BitVec 1, b &&& 1#1 = b := by decide
  simp only [BitVec.and_append, BitVec.and_zero, hkeep]

/-- CLRSTAT on the STATUS word: TRIG (bit 6) and CFG (bit 0) stay, every other bit is cleared (R32, R87). -/
theorem statusWord_clearSticky (s : State) :
    statusWord { s with status := clearSticky s.status } = statusWord s &&& 0x00000041 :=
  (statusFields_and_mask ..).symm

/-- Settles O20: the effects of the two commands, and the STATUS word by `statusWord_clearSticky`. -/
theorem nopAndClrstat : Obligations.NopAndClrstat := by
  refine ⟨fun s => exec_of_ok rfl, fun s => exec_of_ok rfl, fun s hword => ⟨_, exec_of_ok rfl, ?_⟩⟩
  calc statusWord { s with status := clearSticky s.status } = statusWord s &&& 0x00000041 := statusWord_clearSticky s
    _ = 0x00000041 := by rw [hword]; rfl

end Sys2Proof.Machine
end

section
/-! PROOFS. The clamp of a read, reads at integral offsets, reads of the raw slots, and the ring's bounds (R93 to R97). -/

namespace Sys2Proof.Machine

open Sys2Proof

/-! ### Clamped reads -/

theorem clampOffset_of_nan {o : Word} (h : isNaN o = true) (s : State) : clampOffset s o = (posZero, true) := if_pos h

theorem clampOffset_of_neg {o : Word} (h : flt o posZero = true) (s : State) : clampOffset s o = (posZero, true) := by
  simp [clampOffset, h]

theorem clampOffset_of_above {s : State} {o : Word} (h0 : flt o posZero = false) (h : flt (maxOffset s) o = true) :
    clampOffset s o = (maxOffset s, true) := by
  simp [clampOffset, (flt_not_nan h).2, h0, h]

/-- A DL_READ whose offset is clamped reads at the clamped one and notes it in RCLAMP. -/
theorem exec_dlRead_clamped {s : State} {o oc : Word} (hc : s.cfg = true) (h : clampOffset s o = (oc, true)) :
    exec (.dlRead o) s = .next { s with
      status := { s.status with rclamp := true }
      response := some ⟨.ok, interpolate s oc⟩ } := by
  rw [exec_of_ok (expectedRsp_dlRead hc o), effect, dlRead, h, noteRclamp, Bool.or_true]
  rfl

/-- Settles O28: each clause is one clamp of R93, and `exec_dlRead_clamped`. -/
theorem dlReadClampsAndRecords : Obligations.DlReadClampsAndRecords := by
  refine fun s o hc => ⟨fun hlow => exec_dlRead_clamped hc ?_, fun h0 habove =>
    exec_dlRead_clamped hc (clampOffset_of_above h0 habove)⟩
  rcases hlow with hnan | hneg
  · exact clampOffset_of_nan hnan s
  · exact clampOffset_of_neg hneg s

/-! ### Integral offsets -/

/-- A finite value that is not a zero rounds to its own word. -/
theorem roundInt_fix {w : Word} (hf : isFinite w = true) (h0 : magOf w ≠ 0) (z : Bool) : roundInt z (fix w) = w := by
  have hmag : magOf (roundInt z (fix w)) = magOf w := by
    rw [magOf_roundInt, natAbs_fix, roundMag_unitsOfMag (isFinite_iff.1 hf)]
  have hne : fix w ≠ 0 := fun h => h0 (unitsOfMag_inj.1 (by rw [← natAbs_fix, h]; rfl))
  have hsign : decide (fix w < 0) = signOf w := by
    cases hs : signOf w
    · exact decide_eq_false (fix_nonneg hs).not_gt
    · exact decide_eq_true (lt_of_le_of_ne (fix_neg_iff hs) hne)
  exact word_ext (by rw [signOf_roundInt, if_neg hne, hsign]) hmag

/-- Adding a zero of either sign leaves a finite word that is not a zero. -/
theorem fadd_zero {a z : Word} (hf : isFinite a = true) (h0 : magOf a ≠ 0) (hz : magOf z = 0) : fadd a z = a := by
  have hzf : isFinite z = true := isFinite_iff.2 (by rw [hz]; decide)
  have hfix : fix z = 0 := Int.natAbs_eq_zero.1 (by rw [natAbs_fix, hz, unitsOfMag_zero])
  rw [fadd_finite hf hzf, hfix, add_zero, roundInt_fix hf h0]

theorem fsub_self {a : Word} (hf : isFinite a = true) : fsub a a = posZero := by
  rw [fsub_finite hf hf, sub_self, Bool.and_not_self]
  rfl

/-- A finite word times +0.0 is a zero. -/
theorem magOf_fmul_posZero {a : Word} (hf : isFinite a = true) : magOf (fmul a posZero) = 0 := by
  have hz : unitsOfMag (magOf posZero) = 0 := rfl
  rw [fmul_finite hf (by decide), hz, mul_zero, roundMag_zero, magOf_pack (by decide)]

theorem floorInt_f32 {k : Nat} (h : k ≤ 2 ^ 24) : floorInt (f32 k) = k := by
  rw [floorInt, fix_f32 h, Nat.cast_mul, Int.mul_ediv_cancel _ (Int.natCast_ne_zero.2 unit_pos.ne')]

/-- An integral offset has no fractional part. -/
theorem ffloor_f32 {k : Nat} (h : k ≤ 2 ^ 24) : ffloor (f32 k) = f32 k := by
  have hf : isFinite (f32 k) = true := isFinite_f32 (h.trans (by decide))
  simp only [ffloor, not_nan_of_finite hf, not_inf_of_finite hf, Bool.false_eq_true, if_false, floorInt_f32 h,
    Int.natAbs_natCast, (nonNeg_f32 k).2]
  rfl

/-- R94 at an integral offset: the difference to the older neighbour is weighed by +0.0. -/
theorem interpolate_f32 {k : Nat} (h : k ≤ 2 ^ 24) (s : State) :
    interpolate s (f32 k) =
      fadd (pastSample s k) (fmul (fsub (pastSample s (k + 1)) (pastSample s k)) posZero) := by
  have hi : (intOf (f32 k)).toNat = k := by rw [intOf, floorInt_f32 h, Int.toNat_natCast]
  simp only [interpolate, ffloor_f32 h, hi, fsub_self (isFinite_f32 (h.trans (by decide)))]

theorem fle_f32 {a b : Nat} (hab : a ≤ b) (hb : b ≤ 2 ^ 24) : fle (f32 a) (f32 b) = true := by
  rw [fle_iff (nonNeg_f32 a).1 (nonNeg_f32 b).1, fix_f32 (hab.trans hb), fix_f32 hb]
  exact Int.ofNat_le.2 (Nat.mul_le_mul_right _ hab)

/-- The ring of a configured block holds between 3 and 2^24 slots (R27). -/
theorem Inv.n_bounds {s : State} (h : Inv s) (hc : s.cfg = true) : 3 ≤ s.n.toNat ∧ s.n.toNat ≤ 2 ^ 24 := by
  obtain ⟨-, -, hn, hmax⟩ := h.ring hc
  exact ⟨hn, hmax.trans (dlMax_bounds h.params).2⟩

/-- Settles O29: an integral offset up to N - 2 is in range, and there R94 adds a zero to the sample. -/
theorem integralOffsetReadsTheSample : Obligations.IntegralOffsetReadsTheSample := by
  intro s k hinv hc hk hfin hne hdiff
  obtain ⟨-, hn⟩ := hinv.n_bounds hc
  have hlow : fle posZero (f32 k) = true := fle_zero_of_sign (nonNeg_f32 k).1 (nonNeg_f32 k).2
  have hhigh : fle (f32 k) (maxOffset s) = true := fle_f32 (by omega) (by omega)
  rw [exec_dlRead_in_range hc hlow hhigh, interpolate_f32 (by omega), fadd_zero hfin hne (magOf_fmul_posZero hdiff)]
  rfl

/-! ### The ring's bounds -/

/-- Settles O31: `floorInt_clampOffset` for the integer part, `pastSlot_lt` for the slots. -/
theorem readsStayInTheRing : Obligations.ReadsStayInTheRing := by
  intro s o hinv hc
  obtain ⟨hn3, hn⟩ := hinv.n_bounds hc
  have hpos : 0 < s.n.toNat := by omega
  obtain ⟨-, hfloor⟩ := floorInt_clampOffset (by omega) hn o
  exact ⟨hfloor, pastSlot_lt hpos _, pastSlot_lt hpos _, clampOffset_in_range⟩

/-! ### Raw slots -/

theorem expectedRsp_dlPeek {s : State} (hc : s.cfg = true) (k : Word) :
    expectedRsp (.dlPeek k) s = if s.n.toNat ≤ k.toNat then .badIndex else .ok := by
  simp [expectedRsp, Instr.wf, hc]

/-- Settles O30: R96's one check decides the response code. -/
theorem dlPeekReadsTheRawSlot : Obligations.DlPeekReadsTheRawSlot := by
  intro s k hc
  have hrsp := expectedRsp_dlPeek hc k
  refine ⟨fun hk => exec_of_ok (hrsp.trans (if_neg (Nat.not_le.2 hk))), fun hk => ?_⟩
  rw [if_pos hk] at hrsp
  rw [exec_of_rejected (by rw [hrsp]; decide), hrsp]
  rfl

end Sys2Proof.Machine
end

section
/-! PROOFS. The phase accumulator and the edge detector: PH_STEP and DT_STEP (R101 to R106). -/

namespace Sys2Proof.Machine

open Sys2Proof

/-! ### The commands -/

theorem expectedRsp_phStep {s : State} (hc : s.cfg = true) (f : Word) : expectedRsp (.phStep f) s = .ok := by
  simp [expectedRsp, Instr.wf, hc]

theorem expectedRsp_dtStep {s : State} (hc : s.cfg = true) (v : Word) : expectedRsp (.dtStep v) s = .ok := by
  simp [expectedRsp, Instr.wf, hc]

/-- PH_STEP stores and answers the wrapped sum (R101, R102). -/
theorem exec_phStep {s : State} (hc : s.cfg = true) (f : Word) :
    exec (.phStep f) s = .next { s with
      phase := wrapPhase (fadd s.phase (fdiv f s.sr))
      response := some ⟨.ok, wrapPhase (fadd s.phase (fdiv f s.sr))⟩ } := exec_of_ok (expectedRsp_phStep hc f)

/-- Settles O35: `deltaStep` is the difference and the stored operand. -/
theorem dtStepDifferences : Obligations.DtStepDifferences := fun _ v hc => exec_of_ok (expectedRsp_dtStep hc v)

/-! ### Values in [0, 1), and the wrap branch by branch (R101) -/

/-- The value of a word that is not negative, -0.0 among them. -/
theorem fix_eq_of_nonneg {w : Word} (h : 0 ≤ fix w) : fix w = unitsOfMag (magOf w) := by
  rw [← natAbs_fix, Int.natAbs_of_nonneg h]

theorem isFinite_of_fix_lt_two {w : Word} (h0 : 0 ≤ fix w) (h : fix w < fix two) : isFinite w = true := by
  have htwo : fix two = unitsOfMag (magOf two) := by decide
  rw [fix_eq_of_nonneg h0, htwo, Nat.cast_lt, unitsOfMag_lt_iff] at h
  exact isFinite_iff.2 (h.trans (by decide))

theorem InUnit.fix_bounds {w : Word} (h : InUnit w) : 0 ≤ fix w ∧ fix w < fix one := by
  obtain ⟨h0, h1⟩ := h
  have hn := (fle_not_nan h0).2
  exact ⟨(fle_iff (by decide) hn).1 h0, (flt_iff hn (by decide)).1 h1⟩

theorem InUnit.isFinite {w : Word} (h : InUnit w) : isFinite w = true :=
  isFinite_of_fix_lt_two h.fix_bounds.1 (h.fix_bounds.2.trans (by decide))

theorem wrapPhase_of_not_finite {x : Word} (h : isFinite x = false) : wrapPhase x = posZero := by
  refine if_pos ?_
  by_contra hc
  simp only [Bool.or_eq_true, not_or, Bool.not_eq_true] at hc
  exact Bool.false_ne_true (h.symm.trans (isFinite_of_not hc.1 hc.2))

theorem wrapPhase_of_inUnit {x : Word} (h : InUnit x) : wrapPhase x = x := by
  simp [wrapPhase, not_nan_of_finite h.isFinite, not_inf_of_finite h.isFinite, h.1, h.2]

theorem wrapPhase_of_not_inUnit {x : Word} (hf : isFinite x = true) (h : ¬ InUnit x) :
    wrapPhase x = if fle one (fsub x (ffloor x)) = true then posZero else fsub x (ffloor x) := by
  have hout : (fle posZero x && flt x one) = false := by simpa [InUnit] using h
  simp [wrapPhase, not_nan_of_finite hf, not_inf_of_finite hf, hout]

/-- R101's branches in its order. -/
theorem wrapPhase_eq (x : Word) :
    wrapPhase x = if isFinite x = false then posZero
      else if fle posZero x = true ∧ flt x one = true then x
      else if fle one (fsub x (ffloor x)) = true then posZero else fsub x (ffloor x) := by
  cases hf : isFinite x
  · rw [if_pos rfl, wrapPhase_of_not_finite hf]
  · rw [if_neg (by decide)]
    by_cases hin : fle posZero x = true ∧ flt x one = true
    · rw [if_pos hin, wrapPhase_of_inUnit hin]
    · rw [if_neg hin, wrapPhase_of_not_inUnit hf hin]

/-- Settles O32: `exec_phStep`, and the branches of the wrap. -/
theorem phStepAdvancesThePhase : Obligations.PhStepAdvancesThePhase := by
  rintro s f x r hc rfl rfl
  rw [exec_phStep hc, wrapPhase_eq]

/-! ### The phase is never -0.0 (R103) -/

theorem fix_eq_zero_iff {w : Word} : fix w = 0 ↔ magOf w = 0 := by
  rw [← Int.natAbs_eq_zero, natAbs_fix]
  exact unitsOfMag_inj (b := 0)

/-- A NaN or infinite operand never gives a finite sum. -/
theorem isFinite_of_fadd {a b : Word} (h : isFinite (fadd a b) = true) : isFinite a = true ∧ isFinite b = true := by
  unfold fadd at h
  split at h
  · exact absurd h (by decide)
  · next hnan =>
    simp only [Bool.or_eq_true, not_or, Bool.not_eq_true] at hnan
    split at h
    · next hinf =>
      split at h
      · exact absurd h (by decide)
      · exact absurd hinf (by rw [not_inf_of_finite h]; decide)
    · next ha =>
      split at h
      · next hinf => exact absurd hinf (by rw [not_inf_of_finite h]; decide)
      · next hb =>
        exact ⟨isFinite_of_not hnan.1 (Bool.not_eq_true _ ▸ ha), isFinite_of_not hnan.2 (Bool.not_eq_true _ ▸ hb)⟩

/-- Rounding gives -0.0 for no value but an exact zero. -/
theorem roundInt_eq_negZero {z : Bool} {v : Int} (h : roundInt z v = negZero) : v = 0 ∧ z = true := by
  have hmag : roundMag v.natAbs 1 = 0 := by rw [← magOf_roundInt z, h]; rfl
  have hv : v = 0 := by
    by_contra hne
    have := roundMag_pos (Int.natAbs_pos.2 hne)
    omega
  have hsign : signOf (roundInt z v) = true := by rw [h]; decide
  rw [signOf_roundInt, if_pos hv] at hsign
  exact ⟨hv, hsign⟩

/-- A sum is -0.0 only where its operands are: two values without a positive one cancel only as zeros. -/
theorem eq_negZero_of_fadd {a b : Word} (h : fadd a b = negZero) : a = negZero := by
  obtain ⟨ha, hb⟩ := isFinite_of_fadd (a := a) (b := b) (by rw [h]; decide)
  rw [fadd_finite ha hb] at h
  obtain ⟨hsum, hsigns⟩ := roundInt_eq_negZero h
  obtain ⟨hsa, hsb⟩ := Bool.and_eq_true_iff.1 hsigns
  have hfa := fix_neg_iff hsa
  have hfb := fix_neg_iff hsb
  exact word_ext hsa (fix_eq_zero_iff.1 (by omega))

/-- Only -0.0 wraps to -0.0: x - floor(x) has no sign. -/
theorem eq_negZero_of_wrapPhase {x : Word} (h : wrapPhase x = negZero) : x = negZero := by
  cases hf : isFinite x
  · rw [wrapPhase_of_not_finite hf] at h
    exact absurd h (by decide)
  · by_cases hin : InUnit x
    · rwa [wrapPhase_of_inUnit hin] at h
    · obtain ⟨f1, f2, f3⟩ := ffloor_spec hf
      have hpos : signOf (fsub x (ffloor x)) = false :=
        (fsub_nonneg hf f1 (f3 ▸ floorInt_le x) (by rw [f2, Bool.and_not_self])).2
      rw [wrapPhase_of_not_inUnit hf hin] at h
      split at h
      · exact absurd h (by decide)
      · rw [h] at hpos
        exact absurd hpos (by decide)

/-- Settles O33: `wrapPhase_inUnit`, and -0.0 comes only from -0.0. -/
theorem phaseStaysInUnitInterval : Obligations.PhaseStaysInUnitInterval := by
  intro s t f hc ht
  cases (exec_phStep hc f).symm.trans ht
  exact ⟨wrapPhase_inUnit _, fun hne h => hne (eq_negZero_of_fadd (eq_negZero_of_wrapPhase h))⟩

/-! ### The wrap of a sum in [1, 2) -/

/-- The words in [1, 2) are the multiples of 2^-23 there. -/
theorem exists_fix_of_binade {x : Word} (h1 : fix one ≤ fix x) (h2 : fix x < fix two) :
    ∃ k : Nat, k < 2 ^ 23 ∧ fix x = fix one + k * 2 ^ 126 := by
  have hx : fix x = unitsOfMag (magOf x) := fix_eq_of_nonneg (le_trans (by decide) h1)
  have e1 : fix one = unitsOfMag (magOf one) := by decide
  have e2 : fix two = unitsOfMag (magOf two) := by decide
  have m1 : magOf one = 127 * 2 ^ 23 := by decide
  have m2 : magOf two = 128 * 2 ^ 23 := by decide
  rw [e1, hx, Nat.cast_le, unitsOfMag_le_iff, m1] at h1
  rw [e2, hx, Nat.cast_lt, unitsOfMag_lt_iff, m2] at h2
  obtain ⟨k, hk⟩ : ∃ k, magOf x = 2 ^ 23 + k + 126 * 2 ^ 23 := ⟨magOf x - 127 * 2 ^ 23, by omega⟩
  have hone : fix one = 2 ^ 23 * 2 ^ 126 := by decide
  refine ⟨k, by omega, ?_⟩
  rw [hx, hk, unitsOfMag_shift (by omega) (by omega), hone]
  push_cast
  ring

/-- Subtracting 1.0 from a word in [1, 2) is exact. -/
theorem fix_fsub_one {x : Word} (hf : isFinite x = true) (h1 : fix one ≤ fix x) (h2 : fix x < fix two) :
    fix (fsub x one) = fix x - fix one := by
  obtain ⟨k, hk, hx⟩ := exists_fix_of_binade h1 h2
  rw [fsub_finite hf (by decide)]
  refine fix_roundInt_exact (n := k) (e := 126) (by omega) (by decide) ?_
  rw [hx, add_sub_cancel_left]
  rfl

/-- The integer part of a word in [1, 2) is 1.0. -/
theorem ffloor_eq_one {x : Word} (hf : isFinite x = true) (h1 : fix one ≤ fix x) (h2 : fix x < fix two) :
    ffloor x = one := by
  have e1 : fix one = 2 ^ 149 := by decide
  have e2 : fix two = 2 * 2 ^ 149 := by decide
  have hfloor : floorInt x = 1 := by
    rw [floorInt, unit_eq]
    push_cast
    omega
  have hsign : signOf x = false := by
    by_contra hs
    have := fix_neg_iff (Bool.not_eq_false _ ▸ hs)
    omega
  have hone : f32Signed false 1 = one := by decide
  simp [ffloor, not_nan_of_finite hf, not_inf_of_finite hf, hfloor, hsign, hone]

/-- R101 on a sum in [1, 2): one is subtracted, exactly. -/
theorem wrapPhase_of_one_le {x : Word} (h1 : fle one x = true) (h2 : flt x two = true) :
    wrapPhase x = fsub x one ∧ fix (fsub x one) = fix x - fix one := by
  have hn := (fle_not_nan h1).2
  have l1 := (fle_iff (by decide) hn).1 h1
  have l2 := (flt_iff hn (by decide)).1 h2
  have hf : isFinite x = true := isFinite_of_fix_lt_two (le_trans (by decide) l1) l2
  have hexact := fix_fsub_one hf l1 l2
  have htwo : fix two = 2 * fix one := by decide
  have hout : ¬ InUnit x := fun h => by
    have := (flt_iff hn (by decide)).1 h.2
    omega
  have hbelow : ¬ fle one (fsub x one) = true := fun h => by
    have := (fle_iff (by decide) (fle_not_nan h).2).1 h
    omega
  rw [wrapPhase_of_not_inUnit hf hout, ffloor_eq_one hf l1 l2, if_neg hbelow]
  exact ⟨rfl, hexact⟩

/-- Settles O34: the wrap of the sum, `wrapPhase_of_one_le`. -/
theorem wrapSubtractsOne : Obligations.WrapSubtractsOne := by
  rintro s f x hc rfl h1 h2
  obtain ⟨hwrap, hexact⟩ := wrapPhase_of_one_le h1 h2
  rw [exec_phStep hc, hwrap]
  exact ⟨rfl, hexact⟩

/-! ### The delta of a step (R106) -/

theorem fix_roundInt (z : Bool) (v : Int) :
    fix (roundInt z v) =
      if v < 0 then -(unitsOfMag (roundMag v.natAbs 1) : Int) else unitsOfMag (roundMag v.natAbs 1) := by
  rw [fix, signOf_roundInt, magOf_roundInt]
  by_cases hv : v = 0
  · subst hv
    simp [roundMag_zero]
  · simp only [if_neg hv, decide_eq_true_eq]

/-- A difference of finite words is negative exactly where the first is the smaller: no other value rounds to zero. -/
theorem flt_fsub_zero_iff {a b : Word} (ha : isFinite a = true) (hb : isFinite b = true) :
    flt (fsub a b) posZero = true ↔ fix a < fix b := by
  have hzero : fix posZero = 0 := by decide
  rw [fsub_finite ha hb, flt_iff (roundInt_not_nan _ _) (by decide), fix_roundInt, hzero]
  split
  · next hneg =>
    have hpos : 0 < unitsOfMag (roundMag (fix a - fix b).natAbs 1) :=
      unitsOfMag_lt_iff.2 (roundMag_pos (Int.natAbs_pos.2 hneg.ne))
    omega
  · omega

/-- The sum of values that are not negative, in units. -/
theorem fix_fadd_of_nonneg {a b : Word} (ha : isFinite a = true) (hb : isFinite b = true) (h0a : 0 ≤ fix a)
    (h0b : 0 ≤ fix b) : fix (fadd a b) = unitsOfMag (roundMag (unitsOfMag (magOf a) + unitsOfMag (magOf b)) 1) := by
  rw [fadd_finite ha hb, fix_roundInt, if_neg (by omega), Int.natAbs_add_of_nonneg h0a h0b, natAbs_fix, natAbs_fix]

/-- Adding a value that is not negative never goes back. -/
theorem le_fix_fadd {a b : Word} (ha : isFinite a = true) (hb : isFinite b = true) (h0a : 0 ≤ fix a)
    (h0b : 0 ≤ fix b) : fix a ≤ fix (fadd a b) := by
  rw [fix_fadd_of_nonneg ha hb h0a h0b, fix_eq_of_nonneg h0a, Nat.cast_le, unitsOfMag_le_iff]
  exact le_roundMag_of_le (isFinite_iff.1 ha) (Nat.le_add_right _ _)

/-- R106's bound, in units: a sum of a phase below 1 and an increment of at most 1 - 2^-23 that rounds to 1 or more
rounds below the phase plus 1. The greatest multiple of 2^-23 below the phase plus 1 is a binary32 value, and the sum
is not above it. -/
theorem unitsOfMag_roundMag_lt {p i : Nat} (hp : p < 2 ^ 149) (hi : i ≤ 2 ^ 149 - 2 ^ 126)
    (h : magOf one ≤ roundMag (p + i) 1) : unitsOfMag (roundMag (p + i) 1) < p + 2 ^ 149 := by
  have hpos : 0 < p := by
    by_contra hzero
    have hlast : unitsOfMag 0x3F7FFFFE = 2 ^ 149 - 2 ^ 126 := by decide
    have hle : roundMag (p + i) 1 ≤ 0x3F7FFFFE := roundMag_le_of_le (by decide) (by omega)
    have hone : magOf one = 0x3F800000 := by decide
    omega
  obtain ⟨k, hk⟩ : ∃ k, k = (p - 1) / 2 ^ 126 := ⟨_, rfl⟩
  have hunits : unitsOfMag (2 ^ 23 + k + 126 * 2 ^ 23) = (2 ^ 23 + k) * 2 ^ 126 :=
    unitsOfMag_shift (by omega) (by omega)
  have hle : roundMag (p + i) 1 ≤ 2 ^ 23 + k + 126 * 2 ^ 23 :=
    roundMag_le_of_le (by unfold infMag; omega) (by rw [hunits]; omega)
  calc unitsOfMag (roundMag (p + i) 1) ≤ (2 ^ 23 + k) * 2 ^ 126 := hunits ▸ unitsOfMag_le_iff.2 hle
    _ < p + 2 ^ 149 := by omega

/-- What R106 asks of an increment: a value in (0, 1 - 2^-23]. -/
structure SmallIncrement (i : Word) : Prop where
  isFinite : isFinite i = true
  pos : 0 < fix i
  le : fix i ≤ fix 0x3F7FFFFE

theorem smallIncrement {i : Word} (h0 : flt posZero i = true) (h1 : fle i 0x3F7FFFFE = true) : SmallIncrement i := by
  have hn := (flt_not_nan h0).2
  have hpos : 0 < fix i := (flt_iff (by decide) hn).1 h0
  have hle : fix i ≤ fix 0x3F7FFFFE := (fle_iff hn (by decide)).1 h1
  exact ⟨isFinite_of_fix_lt_two hpos.le (hle.trans_lt (by decide)), hpos, hle⟩

/-- R106's bound: a wrapping sum rounds below the phase plus 1. -/
theorem fix_fadd_lt {p i : Word} (hp : InUnit p) (hi : SmallIncrement i) (h : fix one ≤ fix (fadd p i)) :
    fix (fadd p i) < fix p + fix one := by
  obtain ⟨hp0, hp1⟩ := hp.fix_bounds
  have hle := hi.le
  have e1 : fix one = 2 ^ 149 := by decide
  have e2 : fix 0x3F7FFFFE = 2 ^ 149 - 2 ^ 126 := by decide
  have e3 : fix one = unitsOfMag (magOf one) := by decide
  rw [fix_fadd_of_nonneg hp.isFinite hi.isFinite hp0 hi.pos.le] at h ⊢
  rw [e3, Nat.cast_le, unitsOfMag_le_iff] at h
  rw [fix_eq_of_nonneg hp0] at hp1 ⊢
  rw [fix_eq_of_nonneg hi.pos.le] at hle
  have hlt := unitsOfMag_roundMag_lt (by omega) (by omega) h
  omega

/-- A phase in [0, 1) goes down exactly where its sum with the increment reaches 1 (R106). -/
theorem fix_wrapPhase_lt_iff {p i : Word} (hp : InUnit p) (hi : SmallIncrement i) :
    fix (wrapPhase (fadd p i)) < fix p ↔ fle one (fadd p i) = true := by
  obtain ⟨hp0, hp1⟩ := hp.fix_bounds
  have hup := le_fix_fadd hp.isFinite hi.isFinite hp0 hi.pos.le
  have hn : isNaN (fadd p i) = false := by
    rw [fadd_finite hp.isFinite hi.isFinite]
    exact roundInt_not_nan _ _
  cases hwrap : fle one (fadd p i)
  · have hin : InUnit (fadd p i) :=
      ⟨(fle_iff (by decide) hn).2 (hp0.trans hup), flt_of_not_fle (by decide) hn hwrap⟩
    rw [wrapPhase_of_inUnit hin]
    simpa using hup
  · have hlt := fix_fadd_lt hp hi ((fle_iff (by decide) hn).1 hwrap)
    have htwo : fix two = fix one + fix one := by decide
    obtain ⟨hsub, hexact⟩ := wrapPhase_of_one_le hwrap ((flt_iff hn (by decide)).2 (by omega))
    rw [hsub, hexact]
    simpa using (by omega : fix (fadd p i) - fix one < fix p)

/-- Settles O36: the delta's sign is the order of the two phases, and `fix_wrapPhase_lt_iff`. -/
theorem negativeDeltaExactlyOnWrap : Obligations.NegativeDeltaExactlyOnWrap := by
  intro s f hc hphase hd h0 h1
  refine ⟨_, _, _, exec_phStep hc f, dtStepDifferences _ _ hc, rfl, ?_⟩
  dsimp only
  rw [hd, flt_fsub_zero_iff (wrapPhase_inUnit _).isFinite hphase.isFinite]
  exact fix_wrapPhase_lt_iff hphase (smallIncrement h0 h1)

end Sys2Proof.Machine
end

section
/-! PROOFS. The grain voice: GR_SET, GR_STEP and the life of a grain (R111 to R118). -/

namespace Sys2Proof.Machine

open Sys2Proof

/-! ### The commands -/

theorem expectedRsp_grSet {s : State} {slot : BitVec 8} (hc : s.cfg = true) (hs : slot.toNat < s.params.pool)
    (f ws sp : Word) : expectedRsp (.grSet slot f ws sp) s = .ok := by
  simp [expectedRsp, Instr.wf, hc, hs]

theorem expectedRsp_grStep {s : State} {slot : BitVec 8} (hc : s.cfg = true) (hs : slot.toNat < s.params.pool)
    (sp : Word) : expectedRsp (.grStep slot sp) s = .ok := by
  simp [expectedRsp, Instr.wf, hc, hs]

/-- GR_SET answers the lifetime and leaves the triggered grain in the slot (R114, R115). -/
theorem exec_grSet {s : State} {slot : BitVec 8} (hc : s.cfg = true) (hs : slot.toNat < s.params.pool)
    (f ws sp : Word) :
    exec (.grSet slot f ws sp) s =
      .next (respond (BitVec.ofNat 32 (lifetime s.sr ws)) (setGrain slot.toNat (triggered s.sr f ws sp) s)) :=
  exec_of_ok (expectedRsp_grSet hc hs f ws sp)

/-- GR_STEP answers the grain's output, advances the grain and notes a clamped read (R117, R118). -/
theorem exec_grStep {s : State} {slot : BitVec 8} {g : Grain} (hc : s.cfg = true) (hs : slot.toNat < s.params.pool)
    (hg : s.grains[slot.toNat]? = some g) (sp : Word) :
    exec (.grStep slot sp) s =
      .next (respond (grainOutput s g) (noteRclamp (grainClamps s g) (setGrain slot.toNat (grainAfter sp g) s))) := by
  rw [exec_of_ok (expectedRsp_grStep hc hs sp), effect, grainStep_eq sp hg]
  rfl

theorem setGrain_self {s : State} {j : Nat} {g : Grain} (h : s.grains[j]? = some g) : setGrain j g s = s := by
  obtain ⟨hj, rfl⟩ := List.getElem?_eq_some_iff.1 h
  rw [setGrain, List.set_getElem_self]

/-- Settles O37: the grain `triggered` writes out. -/
theorem grSetArmsTheSlot : Obligations.GrSetArmsTheSlot := fun _ _ f ws sp hc hs => exec_grSet hc hs f ws sp

/-- Settles O39: `exec_grStep`, with the output, the grain and the clamp of an active grain, and of a free one. -/
theorem grStepPlaysOneSample : Obligations.GrStepPlaysOneSample := by
  intro s slot sp g hc hs hg
  rw [exec_grStep hc hs hg]
  constructor <;> intro ha
  · rw [grainClamps, grainOutput, grainAfter, ← clampOffset_snd, ha]
    rfl
  · rw [grainClamps, grainOutput, grainAfter, ha, if_neg Bool.false_ne_true, if_neg Bool.false_ne_true,
      setGrain_self hg, Bool.false_and, noteRclamp_false]
    rfl

/-! ### The life of a grain -/

/-- The grain has played `k` samples of a lifetime of `l`, and is active while samples are left. -/
structure HasPlayed (k l : Nat) (g : Grain) : Prop where
  count : g.count.toNat = k
  life : g.life.toNat = l
  active : g.active = decide (k < l)

/-- A grain right after its trigger has played nothing of a lifetime of at least 1 (R112, R114). -/
theorem hasPlayed_triggered (sr f ws sp : Word) : HasPlayed 0 (lifetime sr ws) (triggered sr f ws sp) where
  count := rfl
  life := toNat_lifetime sr ws
  active := (decide_eq_true (lifetime_bounds sr ws).1).symm

/-- A step before the end of the lifetime plays one more sample (R117). -/
theorem HasPlayed.after {k l : Nat} {g : Grain} (h : HasPlayed k l g) (hl : l ≤ Config.lifeMax) (hk : k < l)
    (sp : Word) : HasPlayed (k + 1) l (grainAfter sp g) := by
  obtain ⟨hcount, hlife, hact⟩ := h
  have ha : g.active = true := hact.trans (decide_eq_true hk)
  have hsucc : (g.count + 1).toNat = k + 1 := by
    rw [toNat_count_succ ⟨by omega, by omega, by omega⟩ ha, hcount]
  rw [grainAfter, if_pos ha]
  exact ⟨hsucc, hlife, by simp only [advanced, BitVec.lt_def, hsucc, hlife]⟩

/-- The grain after steps at the live speeds, the first speed first. -/
def grainAfterAll (speeds : List Word) (g : Grain) : Grain := speeds.foldl (fun g sp => grainAfter sp g) g

theorem HasPlayed.afterAll {l : Nat} (hl : l ≤ Config.lifeMax) (speeds : List Word) : ∀ {k : Nat} {g : Grain},
    HasPlayed k l g → k + speeds.length ≤ l → HasPlayed (k + speeds.length) l (grainAfterAll speeds g) := by
  induction speeds with
  | nil => exact fun h _ => h
  | cons sp speeds ih =>
    intro k g h hlen
    rw [List.length_cons] at hlen ⊢
    rw [show k + (speeds.length + 1) = k + 1 + speeds.length by omega]
    exact ih (h.after hl (by omega) sp) (by omega)

theorem execAll_cons {i : Instr} {s t : State} (h : exec i s = .next t) (is : List Instr) :
    execAll (i :: is) s = execAll is t := by
  rw [execAll, h]

/-- GR_STEPs of one slot, run one after the other, advance its grain at each speed in turn. -/
theorem execAll_grSteps {slot : BitVec 8} (speeds : List Word) : ∀ {s : State} {g : Grain}, s.cfg = true →
    slot.toNat < s.params.pool → s.grains[slot.toNat]? = some g →
    ∃ t, execAll (speeds.map (fun sp => .grStep slot sp)) s = .next t
      ∧ t.grains[slot.toNat]? = some (grainAfterAll speeds g) := by
  induction speeds with
  | nil => exact fun _ _ hg => ⟨_, rfl, hg⟩
  | cons sp speeds ih =>
    intro s g hc hs hg
    have hlen : slot.toNat < s.grains.length := (List.getElem?_eq_some_iff.1 hg).1
    rw [List.map_cons, execAll_cons (exec_grStep hc hs hg sp)]
    exact ih hc hs (List.getElem?_set_self hlen)

/-- Settles O42: GR_SET leaves a grain that has played nothing, and each step plays one sample of its lifetime. -/
theorem grainPlaysExactlyItsLifetime : Obligations.GrainPlaysExactlyItsLifetime := by
  intro s slot f ws sp speeds hinv hc hs hlen
  have hslot : slot.toNat < s.grains.length := hinv.pool ▸ hs
  rw [execAll_cons (exec_grSet hc hs f ws sp)]
  obtain ⟨t, hrun, hg⟩ := execAll_grSteps speeds (s := respond _ (setGrain slot.toNat (triggered s.sr f ws sp) s)) hc hs
    (List.getElem?_set_self hslot)
  obtain ⟨hcount, hlife, hact⟩ := (hasPlayed_triggered s.sr f ws sp).afterAll (lifetime_bounds s.sr ws).2 speeds
    (by omega)
  rw [Nat.zero_add] at hcount hact
  exact ⟨t, _, hrun, hg, hcount, hlife, hact⟩

end Sys2Proof.Machine
end

section
/-! PROOFS. The mapping commands, the allocator and the mixer: P2S, GFREQ, WSIZE, ALLOC and MIX (R126 to R136). -/

namespace Sys2Proof.Machine

open Sys2Proof

/-! ### The mixer -/

theorem expectedRsp_mix {s : State} (hc : s.cfg = true) (sp : Word) : expectedRsp (.mix sp) s = .ok := by
  simp [expectedRsp, Instr.wf, hc]

/-- MIX answers the scaled sum, advances every grain and notes a clamped read (R134, R136). -/
theorem exec_mix {s : State} (hl : s.grains.length = s.params.pool) (hc : s.cfg = true) (sp : Word) :
    exec (.mix sp) s =
      .next (respond (fmul ((s.grains.map (grainOutput s)).foldl fadd posZero) (gain s.params))
        (noteRclamp (s.grains.any (grainClamps s)) { s with grains := s.grains.map (grainAfter sp) })) := by
  rw [exec_of_ok (expectedRsp_mix hc sp), effect, mix_eq sp hl]

/-- Settles O49: the answer and the state `exec_mix` writes out. -/
theorem mixStepsEveryGrainOnce : Obligations.MixStepsEveryGrainOnce := fun _ sp hinv hc => exec_mix hinv.pool hc sp

/-! ### Zeros in products, quotients and sums -/

/-- A product of non-negative finite words, one of them +0.0, is +0.0. -/
theorem fmul_eq_posZero {a b : Word} (ha : NonNeg a) (hfa : isFinite a = true) (hb : NonNeg b)
    (hfb : isFinite b = true) (h0 : magOf a = 0 ∨ magOf b = 0) : fmul a b = posZero := by
  obtain ⟨hpos, hmag⟩ := fmul_pos ha hfa hb hfb
  have hunits : unitsOfMag (magOf a) * unitsOfMag (magOf b) = 0 := by
    rcases h0 with h0 | h0 <;> simp [h0]
  rw [hunits, roundMag_zero] at hmag
  exact word_ext hpos.2 hmag

/-- +0.0 divided by a positive word, +inf among them, is +0.0. -/
theorem fdiv_posZero {b : Word} (hb : NonNeg b) (h0 : 0 < magOf b) : fdiv posZero b = posZero := by
  cases hi : isInf b
  · obtain ⟨hpos, hmag⟩ := fdiv_pos (a := posZero) ⟨rfl, rfl⟩ rfl hb (isFinite_of_nonNeg hb hi) h0
    have hunits : unitsOfMag (magOf posZero) * unit = 0 := Nat.zero_mul _
    rw [hunits, roundMag_zero] at hmag
    exact word_ext hpos.2 hmag
  · obtain rfl : b = posInf := word_ext hb.2 (isInf_iff.1 hi)
    decide

/-- A word of at least 1.0 is positive. -/
theorem nonNeg_of_one_le {b : Word} (h : fle one b = true) : NonNeg b ∧ 0 < magOf b := by
  have hb := (fle_not_nan h).2
  have hone : fix posZero < fix one := by decide
  exact flt_zero_iff.1 ((flt_iff rfl hb).2 (hone.trans_le ((fle_iff rfl hb).1 h)))

/-! ### The mixer of a free pool -/

theorem voices_bounds {p : Params} (h : paramsOk p = true) : 1 ≤ p.voices ∧ p.voices ≤ 128 := by
  simp only [paramsOk, Bool.and_eq_true, decide_eq_true_eq] at h
  omega

/-- GAIN is a finite word that is not negative: at most 2.0, since VOICES is at least 1 (R6, R13). -/
theorem gain_range {p : Params} (h : paramsOk p = true) : NonNeg (gain p) ∧ isFinite (gain p) = true := by
  obtain ⟨hlow, hhigh⟩ := voices_bounds h
  have hv : unitsOfMag (magOf (f32 p.voices)) = p.voices * unit := unitsOfMag_f32 (by omega)
  have hpos : 0 < p.voices * unit := Nat.mul_pos hlow unit_pos
  have h0 : 0 < magOf (f32 p.voices) := by rwa [← unitsOfMag_lt_iff, unitsOfMag_zero, hv]
  obtain ⟨hn, hmag⟩ := fdiv_pos (a := two) ⟨rfl, rfl⟩ rfl (nonNeg_f32 _) (f32Signed_finite (by omega)) h0
  have hle : magOf (gain p) ≤ magOf two := by
    rw [gain, hmag, hv]
    exact roundMag_le_of_le_mul hpos (by decide) (Nat.mul_le_mul_left _ (Nat.le_mul_of_pos_left _ hlow))
  exact ⟨hn, isFinite_iff.2 (hle.trans_lt (by decide))⟩

/-- The sum starts at +0.0, and +0.0 + +0.0 is +0.0 (R16, R134). -/
theorem foldl_fadd_posZero {ws : List Word} (h : ∀ w ∈ ws, w = posZero) : ws.foldl fadd posZero = posZero := by
  induction ws with
  | nil => rfl
  | cons w ws ih =>
    obtain ⟨rfl, hws⟩ := List.forall_mem_cons.1 h
    exact ih hws

/-- Free grains stay as they are (R117). -/
theorem map_grainAfter_of_free {gs : List Grain} (h : ∀ g ∈ gs, g.active = false) (sp : Word) :
    gs.map (grainAfter sp) = gs :=
  (List.map_congr_left fun g hg => by rw [grainAfter, h g hg]; rfl).trans (List.map_id gs)

/-- Settles O50: free grains give +0.0 and stay, a sum of +0.0 is +0.0, and so is its product with GAIN. -/
theorem mixOfASilentPool : Obligations.MixOfASilentPool := by
  intro s sp hinv hc hfree
  have hsum : (s.grains.map (grainOutput s)).foldl fadd posZero = posZero :=
    foldl_fadd_posZero (List.forall_mem_map.2 fun g hg => by rw [grainOutput, hfree g hg]; rfl)
  have hclamp : s.grains.any (grainClamps s) = false :=
    List.any_eq_false.2 fun g hg => by rw [grainClamps, hfree g hg]; exact Bool.false_ne_true
  obtain ⟨hgain, hfin⟩ := gain_range hinv.params
  rw [exec_mix hinv.pool hc, hsum, fmul_eq_posZero ⟨rfl, rfl⟩ rfl hgain hfin (.inl rfl), hclamp, noteRclamp_false,
    map_grainAfter_of_free hfree]
  rfl

/-! ### Mapping -/

/-- GFREQ answers the grain frequency and changes nothing else (R129). -/
theorem exec_gfreq (h sp : Word) (s : State) : exec (.gfreq h sp) s = .next (respond (grainFreq s.params h sp) s) := rfl

/-- Settles O43: the operations the three commands are made of. -/
theorem mappingFormulas : Obligations.MappingFormulas := by
  rintro s p h sp gf k rfl
  exact ⟨exec_p2s p s, exec_gfreq h sp s, rfl⟩

/-- The divisor of the grain frequency is never below 1.0 (R128). -/
theorem one_le_freqDivisor (p : Params) (h : Word) : fle one (freqDivisor p h) = true := by
  rw [freqDivisor]
  split
  · assumption
  · decide

/-- At speed 0 the product h x |sp| is +0.0, and so is its quotient by the positive divisor (R128). -/
theorem grainFreq_zero_speed (p : Params) {h sp : Word} (hf : isFinite h = true) (hs : signOf h = false)
    (h0 : magOf sp = 0) : grainFreq p h sp = posZero := by
  have habs : fabs sp = posZero := word_ext (signOf_fabs sp) ((magOf_fabs sp).trans h0)
  obtain ⟨hdiv, hdiv0⟩ := nonNeg_of_one_le (one_le_freqDivisor p h)
  rw [grainFreq, habs, fmul_eq_posZero ⟨not_nan_of_finite hf, hs⟩ hf ⟨rfl, rfl⟩ rfl (.inr rfl),
    fdiv_posZero hdiv hdiv0]

/-- Settles O47: `one_le_freqDivisor`, and `grainFreq_zero_speed`. -/
theorem zeroSpeedHasNoGrainFrequency : Obligations.ZeroSpeedHasNoGrainFrequency := by
  refine fun s h sp => ⟨one_le_freqDivisor s.params h, fun hf hs h0 => ?_⟩
  rw [exec_gfreq, grainFreq_zero_speed s.params hf hs h0]
  rfl

/-! ### The allocator -/

/-- The scan finds a free slot whose every lower slot is active (R132). -/
theorem allocScan_of_lowest_free {s : State} (hl : s.grains.length = s.params.pool) {j : Nat} {g : Grain}
    (hg : s.grains[j]? = some g) (hfree : g.active = false)
    (hlow : ∀ (l : Nat) (g' : Grain), l < j → s.grains[l]? = some g' → g'.active = true) : allocScan s = some j := by
  obtain ⟨hj, rfl⟩ := List.getElem?_eq_some_iff.1 hg
  rw [allocScan_eq hl, List.findIdx?_eq_some_iff_getElem]
  refine ⟨hj, by rw [hfree]; rfl, fun l hlj => ?_⟩
  rw [hlow l _ hlj (List.getElem?_eq_getElem (hlj.trans hj))]
  exact Bool.false_ne_true

/-- Settles O48: the scan fails on a full pool, and a slot number below POOL fits the result word. -/
theorem allocFindsTheLowestFreeSlot : Obligations.AllocFindsTheLowestFreeSlot := by
  refine fun s hinv => ⟨allocWord s, rfl, fun hfull => ?_, fun j g hg hfree hlow => ?_⟩
  · rw [allocWord, (allocScan_eq_none hinv.pool).2 hfull]
    rfl
  · have hj : j < s.params.pool := hinv.pool ▸ (List.getElem?_eq_some_iff.1 hg).1
    have hv := (voices_bounds hinv.params).2
    rw [Params.pool] at hj
    rw [allocWord, allocScan_of_lowest_free hinv.pool hg hfree hlow]
    exact Nat.mod_eq_of_lt (by omega)

end Sys2Proof.Machine
end

section
/-! PROOFS. The per-sample process with and without a valid hint: PROCESS_N and PROCESS_H (R141 to R148, R181). -/

namespace Sys2Proof.Machine

open Sys2Proof

/-! ### The mixer and STATUS -/

/-- STATUS rewritten by `f`, nothing else changed. -/
def mapStatus (f : Status → Status) (s : State) : State := { s with status := f s.status }

/-- `f` neither reads nor writes RCLAMP, the one field of STATUS the mixer sets (R93, R134). -/
def LeavesRclamp (f : Status → Status) : Prop :=
  ∀ st b, f { st with rclamp := st.rclamp || b } = { f st with rclamp := (f st).rclamp || b }

theorem noteRclamp_mapStatus {f : Status → Status} (hf : LeavesRclamp f) (b : Bool) (s : State) :
    noteRclamp b (mapStatus f s) = mapStatus f (noteRclamp b s) := by
  simp only [noteRclamp, mapStatus, hf s.status b]

theorem grainStep_mapStatus {f : Status → Status} (hf : LeavesRclamp f) (j : Nat) (sp : Word) (s : State) :
    grainStep j sp (mapStatus f s) = ((grainStep j sp s).1, mapStatus f (grainStep j sp s).2) := by
  have hat : grainAt (mapStatus f s) j = grainAt s j := rfl
  unfold grainStep
  dsimp only
  rw [hat]
  split
  · rfl
  · exact Prod.ext rfl (congrArg (setGrain j _) (noteRclamp_mapStatus hf _ s))

theorem mixLoop_mapStatus {f : Status → Status} (hf : LeavesRclamp f) (sp : Word) (js : List Nat) : ∀ acc s,
    mixLoop sp js acc (mapStatus f s) = ((mixLoop sp js acc s).1, mapStatus f (mixLoop sp js acc s).2) := by
  induction js with
  | nil => exact fun _ _ => rfl
  | cons j js ih =>
    intro acc s
    rw [mixLoop, grainStep_mapStatus hf]
    exact ih _ _

/-- The mixer neither reads nor changes what such an `f` writes. -/
theorem mix_mapStatus {f : Status → Status} (hf : LeavesRclamp f) (sp : Word) (s : State) :
    mix sp (mapStatus f s) = ((mix sp s).1, mapStatus f (mix sp s).2) := by
  unfold mix
  rw [show (mapStatus f s).params = s.params from rfl, mixLoop_mapStatus hf]

/-! ### Mixer and write -/

/-- A PROCESS writes its input as DL_WRITE would have before it (R91, R143). -/
theorem write_engineProcess (x p : Word) (hint : Option Word) (s : State) :
    (engineProcess x p hint s).2.buf = (dlWrite x s).buf ∧ (engineProcess x p hint s).2.wptr = (dlWrite x s).wptr := by
  have hn : (engineBody p hint s).2.n = s.n := (sameBlock_engineProcess x p hint s).n
  refine ⟨buf_engineProcess x p hint s, ?_⟩
  rw [engineProcess_eq, dlWrite_wptr, wptr_engineBody, hn, dlWrite_wptr]

/-- The live speed of a PROCESS: that of the pitch used (R126, R141). -/
def liveSpeed (p : Word) (s : State) : Word := pitchToSpeed s.params (pitchUsed s.params p)

/-- The state of a PROCESS right before its mixer (R143). -/
def beforeMix (p : Word) (hint : Option Word) (s : State) : State :=
  hintStep hint (liveSpeed p s) (setTrig false (notePclamp (pitchClamped s.params p) s))

theorem engineBody_eq (p : Word) (hint : Option Word) (s : State) :
    engineBody p hint s = mix (liveSpeed p s) (beforeMix p hint s) := rfl

/-- What a PROCESS leaves: what its mixer leaves, and the write. -/
theorem respond_engineProcess (x p : Word) (hint : Option Word) (s : State) :
    respond (engineProcess x p hint s).1 (engineProcess x p hint s).2 =
      { respond (engineBody p hint s).1 (engineBody p hint s).2 with
        buf := (dlWrite x s).buf, wptr := (dlWrite x s).wptr } := by
  obtain ⟨hbuf, hwptr⟩ := write_engineProcess x p hint s
  rw [← hbuf, ← hwptr]
  rfl

/-! ### No hint -/

/-- What PROCESS_N does to STATUS besides the mixer: TRIG cleared, a clamped pitch noted (R141, R147). -/
def notePitch (hit : Bool) (st : Status) : Status := { st with trig := false, pclamp := st.pclamp || hit }

theorem leavesRclamp_notePitch (hit : Bool) : LeavesRclamp (notePitch hit) := fun _ _ => rfl

/-- PROCESS_N is MIX, then `notePitch`, then the write (R145). -/
theorem exec_processN_of_mix {s u : State} (hc : s.cfg = true) (x p : Word)
    (hu : exec (.mix (liveSpeed p s)) s = .next u) :
    exec (.processN x p) s = .next { mapStatus (notePitch (pitchClamped s.params p)) u with
      buf := (dlWrite x s).buf, wptr := (dlWrite x s).wptr } := by
  have hbody : engineBody p none s =
      ((mix (liveSpeed p s) s).1, mapStatus (notePitch (pitchClamped s.params p)) (mix (liveSpeed p s) s).2) :=
    mix_mapStatus (leavesRclamp_notePitch _) _ s
  rw [exec_of_ok (expectedRsp_mix hc _)] at hu
  cases hu
  rw [exec_of_ok (expectedRsp_processN hc x p), effect, respond_engineProcess, hbody]
  rfl

/-- Settles O52: `exec_processN_of_mix`, with the state MIX leaves. -/
theorem processWithoutHint : Obligations.ProcessWithoutHint := by
  intro s x p hinv hc
  obtain ⟨-, hwptr, -⟩ := hinv.ring hc
  have hmix := exec_mix hinv.pool hc (liveSpeed p s)
  exact ⟨_, (dlWrite x s).buf, (dlWrite x s).wptr, hmix, exec_processN_of_mix hc x p hmix, rfl, rfl,
    memRead_dlWrite hinv.mem x, wptr_dlWrite hwptr x⟩

/-! ### An invalid hint -/

theorem hintValid_eq_false {sr h : Word} (hv : flt posZero h = false ∨ fle h (fmul sr half) = false) :
    hintValid sr h = false := by
  rw [hintValid]
  rcases hv with hv | hv <;> simp [hv]

/-- An invalid hint only notes HINVAL before the mixer, which keeps it (R142). -/
theorem engineProcess_of_invalid_hint {s : State} {h : Word} (hv : hintValid s.sr h = false) (x p : Word) :
    engineProcess x p (some h) s = ((engineProcess x p none s).1, noteHinval (engineProcess x p none s).2) := by
  have hbefore : beforeMix p (some h) s =
      mapStatus (fun st => { st with hinval := true }) (beforeMix p none s) := by
    simp only [beforeMix, hintStep, setTrig_sr, notePclamp_sr, hv, Bool.false_eq_true, if_false]
    rfl
  rw [engineProcess_eq, engineProcess_eq, engineBody_eq, engineBody_eq, hbefore, mix_mapStatus (fun _ _ => rfl)]
  rfl

/-- Settles O53: `engineProcess_of_invalid_hint`. -/
theorem processWithInvalidHint : Obligations.ProcessWithInvalidHint := by
  intro s x p h hc hv
  refine ⟨_, exec_of_ok (expectedRsp_processN hc x p), ?_⟩
  have heffect : effect (.processH x p h) s = _ := engineProcess_of_invalid_hint (hintValid_eq_false hv) x p
  rw [exec_of_ok (expectedRsp_processH hc x p h), heffect]
  rfl

/-! ### A valid hint -/

/-- The pool after trigger generation: a trigger sets the lowest free slot, if there is one (R132, R143). -/
def poolAfterHint (trig : Bool) (g : Grain) (gs : List Grain) : List Grain :=
  match (trig, gs.findIdx? (fun g => !g.active)) with
  | (true, some j) => gs.set j g
  | _ => gs

/-- The trigger, said once: TRIG set, and the lowest free slot set, or DROP where every slot is active (R143). -/
theorem trigger_eq {s : State} (hl : s.grains.length = s.params.pool) (gf sp : Word) :
    trigger gf sp s = { s with
      grains := poolAfterHint true (triggered s.sr gf (windowSize gf) sp) s.grains
      status := { s.status with trig := true, drop := s.status.drop || s.grains.all (fun g => g.active) } } := by
  have hscan : allocScan (setTrig true s) = allocScan s := rfl
  unfold trigger poolAfterHint
  rw [hscan, ← allocScan_isNone hl, ← allocScan_eq hl]
  cases allocScan s with
  | none => simp [noteDrop, setTrig]
  | some j => simp [grainSet, setGrain, setTrig]

/-- The state a valid hint leaves before the mixer: the new phase, and what the trigger writes (R143, R147). -/
theorem beforeMix_of_valid_hint {s : State} (hl : s.grains.length = s.params.pool) (p : Word)
    {h sp gf ph : Word} {trig : Bool} (hv : hintValid s.sr h = true)
    (hsp : sp = liveSpeed p s) (hgf : gf = grainFreq s.params h sp)
    (hph : ph = wrapPhase (fadd s.phase (fdiv (fmul gf (f32 s.params.voices)) s.sr)))
    (htrig : trig = isTrigger (fsub ph s.dprev)) :
    beforeMix p (some h) s = { s with
      phase := ph
      dprev := ph
      grains := poolAfterHint trig (triggered s.sr gf (windowSize gf) sp) s.grains
      status := { s.status with
        pclamp := s.status.pclamp || pitchClamped s.params p
        trig := trig
        drop := s.status.drop || (trig && s.grains.all (fun g => g.active)) } } := by
  subst hsp hgf
  have hgen := generate_eq (h := h) (s := setTrig false (notePclamp (pitchClamped s.params p) s)) hph
  refine (if_pos hv).trans (hgen.trans ?_)
  cases trig with
  | false =>
    rw [Bool.false_and, Bool.or_false]
    exact if_neg fun hneg => Bool.false_ne_true (htrig.trans hneg)
  | true =>
    refine (if_pos htrig.symm).trans (trigger_eq ?_ _ _)
    exact hl

/-- Settles O54: `beforeMix_of_valid_hint` is the state MIX starts from, and `respond_engineProcess` adds the write. -/
theorem processWithValidHint : Obligations.ProcessWithValidHint := by
  intro s x p h sp gf ph trig hinv hc hpos hmax hsp hgf hph htrig
  have hv : hintValid s.sr h = true := Bool.and_eq_true_iff.2 ⟨hpos, hmax⟩
  obtain ⟨-, hwptr, -⟩ := hinv.ring hc
  have hspeed : liveSpeed p s = sp := hsp.symm
  have hbefore := beforeMix_of_valid_hint hinv.pool p hv hspeed.symm hgf hph htrig
  refine ⟨_, _, (dlWrite x s).buf, (dlWrite x s).wptr, rfl, exec_of_ok (expectedRsp_mix hc sp), ?_,
    memRead_dlWrite hinv.mem x, wptr_dlWrite hwptr x⟩
  rw [exec_of_ok (expectedRsp_processH hc x p h), effect, respond_engineProcess, engineBody_eq, hbefore, hspeed]
  rfl

/-! ### Decay -/

theorem grainAfterAll_of_free {g : Grain} (h : g.active = false) (speeds : List Word) : grainAfterAll speeds g = g := by
  induction speeds with
  | nil => rfl
  | cons sp speeds ih =>
    have hg : grainAfter sp g = g := by rw [grainAfter, h]; rfl
    rw [grainAfterAll, List.foldl_cons, hg]
    exact ih

/-- A grain is active after some steps exactly if it was and they are fewer than its remaining samples (R117). -/
theorem active_grainAfterAll (speeds : List Word) : ∀ {g : Grain}, GrainOk g →
    (grainAfterAll speeds g).active = (g.active && decide (speeds.length < g.life.toNat - g.count.toNat)) := by
  induction speeds with
  | nil =>
    intro g ok
    show g.active = _
    cases ha : g.active
    · rfl
    · have := ok.count_lt ha
      simpa using this
  | cons sp speeds ih =>
    intro g ok
    cases ha : g.active
    · rw [grainAfterAll_of_free ha, ha, Bool.false_and]
    · have hafter : grainAfter sp g = advanced sp g := if_pos ha
      have hnext : (grainAfter sp g).active = decide (g.count.toNat + 1 < g.life.toNat) := by
        rw [hafter, ← toNat_count_succ ok ha]
        rfl
      have hleft : (grainAfter sp g).life.toNat - (grainAfter sp g).count.toNat =
          g.life.toNat - (g.count.toNat + 1) := by
        rw [hafter, ← toNat_count_succ ok ha]
        rfl
      have hrest := ih (grainOk_after sp ok)
      rw [hnext, hleft, ← Bool.decide_and] at hrest
      refine hrest.trans ?_
      rw [Bool.true_and, List.length_cons, decide_eq_decide]
      omega

/-- What commands that give no valid hint leave of a state, one mixer run for each of `speeds`: every grain stepped at
each speed, the phase held, and +0.0 answered last from a pool that was free. -/
structure Decays (speeds : List Word) (s t : State) : Prop where
  block : SameBlock s t
  phase : t.phase = s.phase
  dprev : t.dprev = s.dprev
  grains : t.grains = s.grains.map (grainAfterAll speeds)
  silent : (∀ g ∈ s.grains, g.active = false) →
    t.response = if speeds = [] then s.response else some ⟨.ok, posZero⟩

theorem Decays.refl (s : State) : Decays [] s s :=
  ⟨.refl s, rfl, rfl, (List.map_id s.grains).symm, fun _ => rfl⟩

theorem Decays.cons {sp : Word} {speeds : List Word} {s t u : State} (h : Decays [sp] s t) (k : Decays speeds t u) :
    Decays (sp :: speeds) s u where
  block := h.block.trans k.block
  phase := k.phase.trans h.phase
  dprev := k.dprev.trans h.dprev
  grains := by rw [k.grains, h.grains, List.map_map]; rfl
  silent := fun hfree => by
    have ht : t.grains = s.grains := h.grains.trans (map_grainAfter_of_free hfree sp)
    rw [k.silent (ht ▸ hfree), h.silent hfree]
    exact ite_self _

/-- PROCESS_N keeps the phase and steps every grain once (R145, R148). -/
theorem decays_processN {s : State} (hinv : Inv s) (hc : s.cfg = true) (x p : Word) :
    ∃ sp t, exec (.processN x p) s = .next t ∧ Decays [sp] s t := by
  have hmix := exec_mix hinv.pool hc (liveSpeed p s)
  refine ⟨_, _, exec_processN_of_mix hc x p hmix, ⟨rfl, rfl, rfl, rfl, rfl⟩, rfl, rfl, rfl, fun hfree => ?_⟩
  have hsilent := mixOfASilentPool s (liveSpeed p s) hinv hc hfree
  rw [hmix] at hsilent
  exact congrArg State.response (Host.Outcome.next.inj hsilent)

/-- A command of the per-sample process that gives no valid hint at sample rate `sr` (R142, R145). -/
def GivesNoHint (sr : Word) (i : Instr) : Prop :=
  (∃ x p, i = .processN x p)
    ∨ ∃ x p h, i = .processH x p h ∧ (flt posZero h = false ∨ fle h (fmul sr half) = false)

theorem GivesNoHint.decays {s : State} {i : Instr} (h : GivesNoHint s.sr i) (hinv : Inv s) (hc : s.cfg = true) :
    ∃ sp t, exec i s = .next t ∧ Decays [sp] s t := by
  rcases h with ⟨x, p, rfl⟩ | ⟨x, p, hint, rfl, hv⟩
  · exact decays_processN hinv hc x p
  · obtain ⟨sp, t, ht, hdecays⟩ := decays_processN hinv hc x p
    obtain ⟨t', ht', hexec⟩ := processWithInvalidHint s x p hint hc hv
    cases ht.symm.trans ht'
    obtain ⟨hblock, hphase, hdprev, hgrains, hsilent⟩ := hdecays
    obtain ⟨hparams, hinputs, hcfg, hsr, hn⟩ := hblock
    exact ⟨sp, _, hexec, ⟨hparams, hinputs, hcfg, hsr, hn⟩, hphase, hdprev, hgrains, hsilent⟩

theorem execAll_decays (run : List Instr) : ∀ {s : State}, Inv s → s.cfg = true → (∀ i ∈ run, GivesNoHint s.sr i) →
    ∃ speeds t, execAll run s = .next t ∧ speeds.length = run.length ∧ Decays speeds s t := by
  induction run with
  | nil => exact fun _ _ _ => ⟨[], _, rfl, rfl, .refl _⟩
  | cons i is ih =>
    intro s hinv hc hrun
    obtain ⟨hi, his⟩ := List.forall_mem_cons.1 hrun
    obtain ⟨sp, t, ht, hfirst⟩ := hi.decays hinv hc
    obtain ⟨speeds, u, hu, hlen, hrest⟩ := ih (hinv.exec ht) (hfirst.block.cfg.trans hc)
      (fun j hj => hfirst.block.sr.symm ▸ his j hj)
    exact ⟨sp :: speeds, u, (execAll_cons ht is).trans hu, congrArg (· + 1) hlen, hfirst.cons hrest⟩

/-- Settles O56: `execAll_decays`, with `active_grainAfterAll` for each grain. -/
theorem decayWithoutHints : Obligations.DecayWithoutHints := by
  intro s run hinv hc hrun
  obtain ⟨speeds, t, ht, hlen, hdecays⟩ := execAll_decays run hinv hc hrun
  refine ⟨t, ht, hdecays.phase, hdecays.dprev, fun j g hg => ⟨grainAfterAll speeds g, ?_, ?_, ?_⟩, ?_⟩
  · rw [hdecays.grains, List.getElem?_map, hg]
    rfl
  · exact fun hfree => grainAfterAll_of_free hfree speeds
  · intro ha
    rw [active_grainAfterAll speeds (hinv.grains g (List.mem_of_getElem? hg)), ha, hlen, Bool.true_and]
  · intro hfree hne
    have hspeeds : speeds ≠ [] := by rwa [← List.length_pos_iff, hlen, List.length_pos_iff]
    rw [hdecays.silent hfree, if_neg hspeeds]

end Sys2Proof.Machine
end

section
/-! PROOFS. Every command is answered with the code of its cause (R152, R154). -/

namespace Sys2Proof.Machine

/-- Settles O12: an accepted command responds OK with its result, and a rejected one its code with result 0. -/
theorem responseCodeFollowsCauses : Obligations.ResponseCodeFollowsCauses := by
  intro i s
  by_cases hok : expectedRsp i s = .ok
  · exact ⟨_, (effect i s).1, exec_of_ok hok, by rw [hok]; rfl⟩
  · exact ⟨_, 0, exec_of_rejected hok, rfl⟩

end Sys2Proof.Machine
end
